-- ==== Sys2Proof/Word.lean ====
section
/-!
DEFINITION. The bit-vector types of the ACM core: bytes, instruction words, 64-bit registers, 5-bit
register indices (00_scope.md R6, R7, R8).
-/

namespace Sys2Proof

/-- One byte of `Mem` (20_memory.md R50). -/
abbrev Byte := BitVec 8

/-- One instruction word: "all instruction words are 32 bits" (30_encoding.md R80). -/
abbrev Word := BitVec 32

/-- The value of a general register or of `pc`, and an address value (00_scope.md R6). -/
abbrev DWord := BitVec 64

/-- A register field: a 5-bit index, 31 being the zero register (10_state.md R22). -/
abbrev RegIdx := BitVec 5

end Sys2Proof
end

