-- ==== Sys2Proof/Config.lean ====
section
/-!
DEFINITION. The implementation parameters of 00_scope.md R6. The five open ones are the fields of
`Config`; the machine carries them in its state (log 2). The model has no free value: "No result in
the core is left as `any value`" (93_implementation_defined.md).
-/

namespace Sys2Proof

/-- `MISALIGNED_DATA`: what a misaligned load or store does (20_memory.md R57, D16). -/
inductive MisalignedData where
  | allow
  | fault
  deriving DecidableEq, Repr

/-- `WB_OVERLAP`: pre- and post-indexed forms with `Rt = Rn != 31` (43_load_store.md R216, D19). -/
inductive WbOverlap where
  | fault
  | ordered
  deriving DecidableEq, Repr

/-- The five parameters "a model takes ... as configuration", with the defaults of 00_scope.md R6. -/
structure Config where
  /-- `MEM_SIZE`, in bytes (D6). -/
  memSize : Nat := 0x200000
  /-- `RESET_NZCV`, the vector `N:Z:C:V` after reset (D5). -/
  resetNzcv : BitVec 4 := 0b0000
  /-- `HALT_WORD` (D27). -/
  haltWord : Word := 0x14000000
  /-- `MISALIGNED_DATA` (D16). -/
  misalignedData : MisalignedData := .allow
  /-- `WB_OVERLAP` (D19). -/
  wbOverlap : WbOverlap := .fault
  deriving DecidableEq, Repr

/-- The parameters at their defaults (00_scope.md R6). -/
def Config.standard : Config := {}

/-- `RESET_PC` (00_scope.md R6, D4). -/
def resetPc : DWord := 0

/-- `LOAD_BASE`, the address of the image's first byte (00_scope.md R6, D4). -/
def loadBase : Nat := 0

end Sys2Proof
end

