-- ==== Sys2Proof/Syntax.lean ====
section
/-!
DEFINITION. The instructions: one constructor of `Instr` for each row of spec/opcode_table.json
(30_encoding.md R107), its arguments in the order of the row's fields, most significant first.
-/

namespace Sys2Proof

/-- The `sf` bit: the operation width, and for a load or store the transfer size
(40_alu.md R130, 43_load_store.md R200). -/
inductive OpSize where
  | w32
  | w64
  deriving DecidableEq, Repr

/-- The shift kinds of 40_alu.md R136. -/
inductive ShiftKind where
  | lsl
  | lsr
  | asr
  | ror
  deriving DecidableEq, Repr

/-- The seven condition codes of 30_encoding.md R94; no other 4-bit value is an instruction. -/
inductive Cond where
  | eq
  | ne
  | ge
  | lt
  | gt
  | le
  | al
  deriving DecidableEq, Repr

/-- The 33 instructions and the halt sentinel. -/
inductive Instr where
  /-- ADD (immediate), 41_dp_immediate.md R151. -/
  | addImm (sf : OpSize) (sh : Bool) (imm12 : BitVec 12) (rn rd : RegIdx)
  /-- ADDS (immediate), R152. -/
  | addsImm (sf : OpSize) (sh : Bool) (imm12 : BitVec 12) (rn rd : RegIdx)
  /-- SUB (immediate), R153. -/
  | subImm (sf : OpSize) (sh : Bool) (imm12 : BitVec 12) (rn rd : RegIdx)
  /-- SUBS (immediate), R154. -/
  | subsImm (sf : OpSize) (sh : Bool) (imm12 : BitVec 12) (rn rd : RegIdx)
  /-- MOVN, R155. -/
  | movn (sf : OpSize) (hw : BitVec 2) (imm16 : BitVec 16) (rd : RegIdx)
  /-- MOVZ, R156. -/
  | movz (sf : OpSize) (hw : BitVec 2) (imm16 : BitVec 16) (rd : RegIdx)
  /-- MOVK, R157. -/
  | movk (sf : OpSize) (hw : BitVec 2) (imm16 : BitVec 16) (rd : RegIdx)
  /-- ADD (shifted register), 42_dp_register.md R171. -/
  | addReg (sf : OpSize) (shift : ShiftKind) (rm : RegIdx) (imm6 : BitVec 6) (rn rd : RegIdx)
  /-- ADDS (shifted register), R172. -/
  | addsReg (sf : OpSize) (shift : ShiftKind) (rm : RegIdx) (imm6 : BitVec 6) (rn rd : RegIdx)
  /-- SUB (shifted register), R173. -/
  | subReg (sf : OpSize) (shift : ShiftKind) (rm : RegIdx) (imm6 : BitVec 6) (rn rd : RegIdx)
  /-- SUBS (shifted register), R174. -/
  | subsReg (sf : OpSize) (shift : ShiftKind) (rm : RegIdx) (imm6 : BitVec 6) (rn rd : RegIdx)
  /-- AND (shifted register), R175. -/
  | andReg (sf : OpSize) (shift : ShiftKind) (rm : RegIdx) (imm6 : BitVec 6) (rn rd : RegIdx)
  /-- BIC (shifted register), R176. -/
  | bicReg (sf : OpSize) (shift : ShiftKind) (rm : RegIdx) (imm6 : BitVec 6) (rn rd : RegIdx)
  /-- ORR (shifted register), R177. -/
  | orrReg (sf : OpSize) (shift : ShiftKind) (rm : RegIdx) (imm6 : BitVec 6) (rn rd : RegIdx)
  /-- ORN (shifted register), R178. -/
  | ornReg (sf : OpSize) (shift : ShiftKind) (rm : RegIdx) (imm6 : BitVec 6) (rn rd : RegIdx)
  /-- EOR (shifted register), R179. -/
  | eorReg (sf : OpSize) (shift : ShiftKind) (rm : RegIdx) (imm6 : BitVec 6) (rn rd : RegIdx)
  /-- EON (shifted register), R180. -/
  | eonReg (sf : OpSize) (shift : ShiftKind) (rm : RegIdx) (imm6 : BitVec 6) (rn rd : RegIdx)
  /-- ANDS (shifted register), R181. -/
  | andsReg (sf : OpSize) (shift : ShiftKind) (rm : RegIdx) (imm6 : BitVec 6) (rn rd : RegIdx)
  /-- BICS (shifted register), R182. -/
  | bicsReg (sf : OpSize) (shift : ShiftKind) (rm : RegIdx) (imm6 : BitVec 6) (rn rd : RegIdx)
  /-- MADD, R183. -/
  | madd (sf : OpSize) (rm ra rn rd : RegIdx)
  /-- MSUB, R184. -/
  | msub (sf : OpSize) (rm ra rn rd : RegIdx)
  /-- LDR (unsigned offset), 43_load_store.md R207. -/
  | ldrUnsigned (sf : OpSize) (imm12 : BitVec 12) (rn rt : RegIdx)
  /-- STR (unsigned offset), R208. -/
  | strUnsigned (sf : OpSize) (imm12 : BitVec 12) (rn rt : RegIdx)
  /-- LDR (pre-indexed), R209. -/
  | ldrPre (sf : OpSize) (simm9 : BitVec 9) (rn rt : RegIdx)
  /-- STR (pre-indexed), R210. -/
  | strPre (sf : OpSize) (simm9 : BitVec 9) (rn rt : RegIdx)
  /-- LDR (post-indexed), R211. -/
  | ldrPost (sf : OpSize) (simm9 : BitVec 9) (rn rt : RegIdx)
  /-- STR (post-indexed), R212. -/
  | strPost (sf : OpSize) (simm9 : BitVec 9) (rn rt : RegIdx)
  /-- LDR (register offset), R213. -/
  | ldrReg (sf : OpSize) (rm rn rt : RegIdx)
  /-- STR (register offset), R214. -/
  | strReg (sf : OpSize) (rm rn rt : RegIdx)
  /-- LDR (literal), R215. -/
  | ldrLit (sf : OpSize) (simm19 : BitVec 19) (rt : RegIdx)
  /-- B, 44_branch.md R231. -/
  | b (simm26 : BitVec 26)
  /-- BR, R232. -/
  | br (rn : RegIdx)
  /-- B.cond, R233. -/
  | bCond (simm19 : BitVec 19) (cond : Cond)
  /-- HALT, the halt sentinel, R234. -/
  | halt
  deriving DecidableEq, Repr

end Sys2Proof
end

