-- ==== Sys2Proof/WellFormed.lean ====
section
/-!
DEFINITION. Which instruction terms have an encoding: the "constraints" of spec/opcode_table.json
(30_encoding.md R99, R100, R101, R105). The one constraint that needs the encoded word, that it is
not `HALT_WORD`, is `Instr.realizable` of Decode.lean.
-/

namespace Sys2Proof

/-- A 32-bit move-wide has positions 0 and 16 only: `hw` in {0, 1} (30_encoding.md R99, D14). -/
def hwValid (sf : OpSize) (hw : BitVec 2) : Bool :=
  match sf with
  | .w32 => decide (hw.toNat < 2)
  | .w64 => true

/-- A 32-bit shift amount is below 32 (30_encoding.md R100, D13). -/
def shiftAmountValid (sf : OpSize) (imm6 : BitVec 6) : Bool :=
  match sf with
  | .w32 => decide (imm6.toNat < 32)
  | .w64 => true

/-- ROR is available to the logical class only (40_alu.md R136, D12). -/
def arithShiftValid (sf : OpSize) (shift : ShiftKind) (imm6 : BitVec 6) : Bool :=
  decide (shift ≠ .ror) && shiftAmountValid sf imm6

/-- Under `WB_OVERLAP = fault` a writeback form with `Rt = Rn != 31` is no instruction
(43_load_store.md R216, 30_encoding.md R101, D19). -/
def writebackValid (o : WbOverlap) (rn rt : RegIdx) : Bool :=
  decide (o = .ordered) || decide (rt ≠ rn) || decide (rn = 31)

/-- The field constraints of the instruction's row of spec/opcode_table.json. -/
def Instr.wellFormed (o : WbOverlap) : Instr → Bool
  | .addImm _ _ _ _ _ => true
  | .addsImm _ _ _ _ _ => true
  | .subImm _ _ _ _ _ => true
  | .subsImm _ _ _ _ _ => true
  | .movn sf hw _ _ => hwValid sf hw
  | .movz sf hw _ _ => hwValid sf hw
  | .movk sf hw _ _ => hwValid sf hw
  | .addReg sf shift _ imm6 _ _ => arithShiftValid sf shift imm6
  | .addsReg sf shift _ imm6 _ _ => arithShiftValid sf shift imm6
  | .subReg sf shift _ imm6 _ _ => arithShiftValid sf shift imm6
  | .subsReg sf shift _ imm6 _ _ => arithShiftValid sf shift imm6
  | .andReg sf _ _ imm6 _ _ => shiftAmountValid sf imm6
  | .bicReg sf _ _ imm6 _ _ => shiftAmountValid sf imm6
  | .orrReg sf _ _ imm6 _ _ => shiftAmountValid sf imm6
  | .ornReg sf _ _ imm6 _ _ => shiftAmountValid sf imm6
  | .eorReg sf _ _ imm6 _ _ => shiftAmountValid sf imm6
  | .eonReg sf _ _ imm6 _ _ => shiftAmountValid sf imm6
  | .andsReg sf _ _ imm6 _ _ => shiftAmountValid sf imm6
  | .bicsReg sf _ _ imm6 _ _ => shiftAmountValid sf imm6
  | .madd _ _ _ _ _ => true
  | .msub _ _ _ _ _ => true
  | .ldrUnsigned _ _ _ _ => true
  | .strUnsigned _ _ _ _ => true
  | .ldrPre _ _ rn rt => writebackValid o rn rt
  | .strPre _ _ rn rt => writebackValid o rn rt
  | .ldrPost _ _ rn rt => writebackValid o rn rt
  | .strPost _ _ rn rt => writebackValid o rn rt
  | .ldrReg _ _ _ _ => true
  | .strReg _ _ _ _ => true
  | .ldrLit _ _ _ => true
  | .b _ => true
  | .br _ => true
  | .bCond _ _ => true
  | .halt => true

end Sys2Proof
end

