-- ==== Sys2Proof/Decode.lean ====
section
/-!
DEFINITION. The decoder (30_encoding.md R98 to R106), total on any bytes and refusing by name; the
encoder (30_encoding.md section 2); the opcode table as rows (spec/opcode_table.json).
-/

namespace Sys2Proof

/-- Why a word is illegal: the illegal spaces (a) to (i) of 30_encoding.md R105, each by name. In the
machine all of them raise the one condition `UnknownInstruction`. -/
inductive IllegalWord where
  /-- (a): `op0` is of no class. -/
  | unallocatedOp0
  /-- (b): a data-processing-immediate word whose `opi` is neither `010` nor `101`. -/
  | unallocatedOpi
  /-- (c): move-wide with `opc = 01`. -/
  | moveWideOpc
  /-- (c): 32-bit move-wide with `hw` 2 or 3. -/
  | moveWidePosition
  /-- (d): a data-processing-register word of none of the three groups. -/
  | unallocatedDpr
  /-- (e): arithmetic with shift kind ROR. -/
  | arithmeticRor
  /-- (f): a 32-bit shift amount of 32 or more. -/
  | shiftAmount
  /-- (g): a single-data-transfer word whose fixed bits differ. -/
  | transferFixedBits
  /-- (g): `U = 0`, bit 21 = 0, `[11:10]` neither `11` nor `01`. -/
  | indexMode
  /-- (g): register offset whose subfield is not `011010`. -/
  | registerOffsetSubfield
  /-- (g): writeback with `Rt = Rn != 31` under `WB_OVERLAP = fault`. -/
  | writebackOverlap
  /-- (h): a literal load whose fixed bits differ. -/
  | literalFixedBits
  /-- (i): a branch-class word whose `[31:29]` selects nothing. -/
  | branchSubfield
  /-- (i): BR with a fixed bit different. -/
  | registerBranchFixedBits
  /-- (i): B.cond with a fixed bit different. -/
  | conditionalBranchFixedBits
  /-- (i): B.cond with a condition code outside 30_encoding.md R94. -/
  | conditionCode
  /-- Not a word at all: the bytes given are not four. -/
  | notOneWord
  deriving DecidableEq, Repr

/-! ## Fields -/

/-- The field of `len` bits of a word whose lowest bit is bit `lo` (00_scope.md R7). -/
def field (w : Word) (lo len : Nat) : BitVec len := w.extractLsb' lo len

/-- "sf: width selector bit; 0 = 32-bit operation, 1 = 64-bit" (40_alu.md R130). -/
def opSizeOf (sf : BitVec 1) : OpSize := if sf = 0 then .w32 else .w64

/-- The shift-type field (40_alu.md R136). -/
def shiftKindOf (shift : BitVec 2) : ShiftKind :=
  if shift = 0b00 then .lsl else if shift = 0b01 then .lsr else if shift = 0b10 then .asr else .ror

/-- The condition-code field; every value outside 30_encoding.md R94 is reserved. -/
def condOf (cond : BitVec 4) : Option Cond :=
  if cond = 0b0000 then some .eq
  else if cond = 0b0001 then some .ne
  else if cond = 0b1010 then some .ge
  else if cond = 0b1011 then some .lt
  else if cond = 0b1100 then some .gt
  else if cond = 0b1101 then some .le
  else if cond = 0b1110 then some .al
  else none

/-! ## The decoder -/

/-- DPI arithmetic (30_encoding.md R82): `opc` is (negate, set_flags). -/
def decodeArithImm (w : Word) : Instr :=
  let sf := opSizeOf (field w 31 1)
  let opc := field w 29 2
  let sh := decide (field w 22 1 = 1)
  let imm12 := field w 10 12
  let rn := field w 5 5
  let rd := field w 0 5
  if opc = 0b00 then .addImm sf sh imm12 rn rd
  else if opc = 0b01 then .addsImm sf sh imm12 rn rd
  else if opc = 0b10 then .subImm sf sh imm12 rn rd
  else .subsImm sf sh imm12 rn rd

/-- DPI move-wide (30_encoding.md R83, R99). -/
def decodeMoveWide (w : Word) : Except IllegalWord Instr :=
  let sf := opSizeOf (field w 31 1)
  let opc := field w 29 2
  let hw := field w 21 2
  let imm16 := field w 5 16
  let rd := field w 0 5
  if opc = 0b01 then .error .moveWideOpc
  else if field w 31 1 = 0 ∧ field w 22 1 = 1 then .error .moveWidePosition
  else if opc = 0b00 then .ok (.movn sf hw imm16 rd)
  else if opc = 0b10 then .ok (.movz sf hw imm16 rd)
  else .ok (.movk sf hw imm16 rd)

/-- The sub-dispatch on `opi` (30_encoding.md R99). -/
def decodeDpi (w : Word) : Except IllegalWord Instr :=
  if field w 23 3 = 0b010 then .ok (decodeArithImm w)
  else if field w 23 3 = 0b101 then decodeMoveWide w
  else .error .unallocatedOpi

/-- DPR arithmetic (30_encoding.md R85, R100). -/
def decodeArithReg (w : Word) : Except IllegalWord Instr :=
  let sf := opSizeOf (field w 31 1)
  let opc := field w 29 2
  let shift := shiftKindOf (field w 22 2)
  let rm := field w 16 5
  let imm6 := field w 10 6
  let rn := field w 5 5
  let rd := field w 0 5
  if field w 22 2 = 0b11 then .error .arithmeticRor
  else if field w 31 1 = 0 ∧ field w 15 1 = 1 then .error .shiftAmount
  else if opc = 0b00 then .ok (.addReg sf shift rm imm6 rn rd)
  else if opc = 0b01 then .ok (.addsReg sf shift rm imm6 rn rd)
  else if opc = 0b10 then .ok (.subReg sf shift rm imm6 rn rd)
  else .ok (.subsReg sf shift rm imm6 rn rd)

/-- DPR logical (30_encoding.md R86, R100): `opc` and the complement bit `N = word[21]`. -/
def decodeLogical (w : Word) : Except IllegalWord Instr :=
  let sf := opSizeOf (field w 31 1)
  let opc := field w 29 2
  let shift := shiftKindOf (field w 22 2)
  let rm := field w 16 5
  let imm6 := field w 10 6
  let rn := field w 5 5
  let rd := field w 0 5
  if field w 31 1 = 0 ∧ field w 15 1 = 1 then .error .shiftAmount
  else if field w 21 1 = 0 then
    if opc = 0b00 then .ok (.andReg sf shift rm imm6 rn rd)
    else if opc = 0b01 then .ok (.orrReg sf shift rm imm6 rn rd)
    else if opc = 0b10 then .ok (.eorReg sf shift rm imm6 rn rd)
    else .ok (.andsReg sf shift rm imm6 rn rd)
  else
    if opc = 0b00 then .ok (.bicReg sf shift rm imm6 rn rd)
    else if opc = 0b01 then .ok (.ornReg sf shift rm imm6 rn rd)
    else if opc = 0b10 then .ok (.eonReg sf shift rm imm6 rn rd)
    else .ok (.bicsReg sf shift rm imm6 rn rd)

/-- DPR multiply (30_encoding.md R87): bit 15 selects MSUB. -/
def decodeMultiply (w : Word) : Instr :=
  let sf := opSizeOf (field w 31 1)
  let rm := field w 16 5
  let ra := field w 10 5
  let rn := field w 5 5
  let rd := field w 0 5
  if field w 15 1 = 0 then .madd sf rm ra rn rd else .msub sf rm ra rn rd

/-- The sub-dispatch on `M = word[28]` and `opr = word[24:21]` (30_encoding.md R100). -/
def decodeDpr (w : Word) : Except IllegalWord Instr :=
  let m := field w 28 1
  let opr := field w 21 4
  if m = 0 ∧ opr &&& 0b1001 = 0b1000 then decodeArithReg w
  else if m = 0 ∧ opr &&& 0b1000 = 0b0000 then decodeLogical w
  else if m = 1 ∧ opr = 0b1000 ∧ field w 29 2 = 0b00 then .ok (decodeMultiply w)
  else .error .unallocatedDpr

/-- The overlap refusal of 30_encoding.md R101: it compares two fields of the word. -/
def overlapRefused (o : WbOverlap) (rn rt : RegIdx) : Bool :=
  decide (rt = rn) && decide (rn ≠ 31) && decide (o = .fault)

/-- The load/store sub-dispatch (30_encoding.md R101), its tests in that rule's order. -/
def decodeLoadStore (o : WbOverlap) (w : Word) : Except IllegalWord Instr :=
  let sf := opSizeOf (field w 30 1)
  let rt := field w 0 5
  let rn := field w 5 5
  let rm := field w 16 5
  let imm12 := field w 10 12
  let simm9 := field w 12 9
  let load := field w 22 1 = 1
  if field w 31 1 = 0 then
    if field w 24 6 = 0b011000 then .ok (.ldrLit sf (field w 5 19) rt) else .error .literalFixedBits
  else if field w 25 5 ≠ 0b11100 ∨ field w 23 1 ≠ 0 then .error .transferFixedBits
  else if field w 24 1 = 1 then
    if load then .ok (.ldrUnsigned sf imm12 rn rt) else .ok (.strUnsigned sf imm12 rn rt)
  else if field w 21 1 = 1 then
    if field w 10 6 = 0b011010 then
      if load then .ok (.ldrReg sf rm rn rt) else .ok (.strReg sf rm rn rt)
    else .error .registerOffsetSubfield
  else if field w 10 2 = 0b11 then
    if overlapRefused o rn rt then .error .writebackOverlap
    else if load then .ok (.ldrPre sf simm9 rn rt) else .ok (.strPre sf simm9 rn rt)
  else if field w 10 2 = 0b01 then
    if overlapRefused o rn rt then .error .writebackOverlap
    else if load then .ok (.ldrPost sf simm9 rn rt) else .ok (.strPost sf simm9 rn rt)
  else .error .indexMode

/-- The branch sub-dispatch on `word[31:29]` (30_encoding.md R102, D10). -/
def decodeBranch (w : Word) : Except IllegalWord Instr :=
  let sub := field w 29 3
  if sub = 0b000 then .ok (.b (field w 0 26))
  else if sub = 0b110 then
    if field w 10 22 = 0b1101011000011111000000 ∧ field w 0 5 = 0b00000 then .ok (.br (field w 5 5))
    else .error .registerBranchFixedBits
  else if sub = 0b010 then
    if field w 24 2 = 0b00 ∧ field w 4 1 = 0 then
      match condOf (field w 0 4) with
      | some c => .ok (.bCond (field w 5 19) c)
      | none => .error .conditionCode
    else .error .conditionalBranchFixedBits
  else .error .branchSubfield

/-- The top-level dispatch on `op0 = word[28:25]` (30_encoding.md R98). -/
def decodeClass (o : WbOverlap) (w : Word) : Except IllegalWord Instr :=
  let op0 := field w 25 4
  if op0 = 0b1000 ∨ op0 = 0b1001 then decodeDpi w
  else if op0 = 0b0101 ∨ op0 = 0b1101 then decodeDpr w
  else if op0 = 0b0100 ∨ op0 = 0b0110 ∨ op0 = 0b1100 ∨ op0 = 0b1110 then decodeLoadStore o w
  else if op0 = 0b1010 ∨ op0 = 0b1011 then decodeBranch w
  else .error .unallocatedOp0

/-- The instruction a fetched word stands for: the halt check first (30_encoding.md R95,
60_exceptions.md R253), then the decoder. -/
def decode (cfg : Config) (w : Word) : Except IllegalWord Instr :=
  if w = cfg.haltWord then .ok .halt else decodeClass cfg.wbOverlap w

/-- Four bytes, the least significant first, as one word (20_memory.md R55). -/
def wordOfBytes (b0 b1 b2 b3 : Byte) : Word := b3 ++ b2 ++ b1 ++ b0

/-- The decoder on bytes as memory holds them: an instruction is exactly four (30_encoding.md R80). -/
def decodeBytes (cfg : Config) : List Byte → Except IllegalWord Instr
  | [b0, b1, b2, b3] => decode cfg (wordOfBytes b0 b1 b2 b3)
  | _ => .error .notOneWord

/-- A word's bytes in memory order, "least significant byte first" (30_encoding.md R117). -/
def bytesOfWord (w : Word) : List Byte := [field w 0 8, field w 8 8, field w 16 8, field w 24 8]

/-- The instruction the decoder reads, under the default parameters, from an instruction whose bits
are `w`. Every instruction is one 32-bit word, so a longer one is refused. -/
def decodeTableWord (nbits w : Nat) : Option Instr :=
  if nbits ≤ 32 then
    (decodeBytes Config.standard (bytesOfWord (BitVec.ofNat 32 (w % 2 ^ nbits)))).toOption
  else none

/-! ## The encoder -/

/-- The `sf` bit of a width. -/
def sfBit : OpSize → BitVec 1
  | .w32 => 0
  | .w64 => 1

/-- The shift-type field of a shift kind (40_alu.md R136). -/
def shiftBits : ShiftKind → BitVec 2
  | .lsl => 0b00
  | .lsr => 0b01
  | .asr => 0b10
  | .ror => 0b11

/-- The condition-code field of a condition (30_encoding.md R94). -/
def condBits : Cond → BitVec 4
  | .eq => 0b0000
  | .ne => 0b0001
  | .ge => 0b1010
  | .lt => 0b1011
  | .gt => 0b1100
  | .le => 0b1101
  | .al => 0b1110

/-- DPI arithmetic, `sf opc 100 010 sh imm12 Rn Rd` (30_encoding.md R82). -/
def encArithImm (opc : BitVec 2) (sf : OpSize) (sh : Bool) (imm12 : BitVec 12) (rn rd : RegIdx) : Word :=
  sfBit sf ++ opc ++ 0b100#3 ++ 0b010#3 ++ BitVec.ofBool sh ++ imm12 ++ rn ++ rd

/-- DPI move-wide, `sf opc 100 101 hw imm16 Rd` (30_encoding.md R83). -/
def encMoveWide (opc : BitVec 2) (sf : OpSize) (hw : BitVec 2) (imm16 : BitVec 16) (rd : RegIdx) : Word :=
  sfBit sf ++ opc ++ 0b100#3 ++ 0b101#3 ++ hw ++ imm16 ++ rd

/-- DPR arithmetic, `sf opc 0 101 1 shift 0 Rm imm6 Rn Rd` (30_encoding.md R85). -/
def encArithReg (opc : BitVec 2) (sf : OpSize) (shift : ShiftKind) (rm : RegIdx) (imm6 : BitVec 6)
    (rn rd : RegIdx) : Word :=
  sfBit sf ++ opc ++ 0#1 ++ 0b101#3 ++ 1#1 ++ shiftBits shift ++ 0#1 ++ rm ++ imm6 ++ rn ++ rd

/-- DPR logical, `sf opc 0 101 0 shift N Rm imm6 Rn Rd` (30_encoding.md R86). -/
def encLogical (opc : BitVec 2) (n : BitVec 1) (sf : OpSize) (shift : ShiftKind) (rm : RegIdx)
    (imm6 : BitVec 6) (rn rd : RegIdx) : Word :=
  sfBit sf ++ opc ++ 0#1 ++ 0b101#3 ++ 0#1 ++ shiftBits shift ++ n ++ rm ++ imm6 ++ rn ++ rd

/-- DPR multiply, `sf 0011011000 Rm x Ra Rn Rd` (30_encoding.md R87). -/
def encMultiply (x : BitVec 1) (sf : OpSize) (rm ra rn rd : RegIdx) : Word :=
  sfBit sf ++ 0b0011011000#10 ++ rm ++ x ++ ra ++ rn ++ rd

/-- SDT unsigned offset, `1 sf 111 0 0 1 0 L imm12 Rn Rt` (30_encoding.md R88, R89). -/
def encUnsigned (l : BitVec 1) (sf : OpSize) (imm12 : BitVec 12) (rn rt : RegIdx) : Word :=
  1#1 ++ sfBit sf ++ 0b111#3 ++ 0b00#2 ++ 1#1 ++ 0#1 ++ l ++ imm12 ++ rn ++ rt

/-- SDT pre- and post-indexed, `1 sf 111 0 0 0 0 L 0 simm9 mode Rn Rt` (30_encoding.md R88, R89). -/
def encIndexed (l : BitVec 1) (mode : BitVec 2) (sf : OpSize) (simm9 : BitVec 9) (rn rt : RegIdx) : Word :=
  1#1 ++ sfBit sf ++ 0b111#3 ++ 0b00#2 ++ 0#1 ++ 0#1 ++ l ++ 0#1 ++ simm9 ++ mode ++ rn ++ rt

/-- SDT register offset, `1 sf 111 0 0 0 0 L 1 Rm 011010 Rn Rt` (30_encoding.md R88, R89). -/
def encRegOffset (l : BitVec 1) (sf : OpSize) (rm rn rt : RegIdx) : Word :=
  1#1 ++ sfBit sf ++ 0b111#3 ++ 0b00#2 ++ 0#1 ++ 0#1 ++ l ++ 1#1 ++ rm ++ 0b011010#6 ++ rn ++ rt

/-- LL, `0 sf 011000 simm19 Rt` (30_encoding.md R90). -/
def encLiteral (sf : OpSize) (simm19 : BitVec 19) (rt : RegIdx) : Word :=
  0#1 ++ sfBit sf ++ 0b011000#6 ++ simm19 ++ rt

/-- B, `000101 simm26` (30_encoding.md R91). -/
def encBranch (simm26 : BitVec 26) : Word := 0b000101#6 ++ simm26

/-- BR, `1101011000011111 000000 Rn 00000` (30_encoding.md R92). -/
def encBranchReg (rn : RegIdx) : Word := 0b1101011000011111#16 ++ 0b000000#6 ++ rn ++ 0b00000#5

/-- B.cond, `01010100 simm19 0 cond` (30_encoding.md R93). -/
def encBranchCond (simm19 : BitVec 19) (cond : Cond) : Word := 0b01010100#8 ++ simm19 ++ 0#1 ++ condBits cond

/-- The word of an instruction, from the format tables of 30_encoding.md section 2. The halt sentinel
is `HALT_WORD` itself (R95). -/
def encode (cfg : Config) : Instr → Word
  | .addImm sf sh imm12 rn rd => encArithImm 0b00 sf sh imm12 rn rd
  | .addsImm sf sh imm12 rn rd => encArithImm 0b01 sf sh imm12 rn rd
  | .subImm sf sh imm12 rn rd => encArithImm 0b10 sf sh imm12 rn rd
  | .subsImm sf sh imm12 rn rd => encArithImm 0b11 sf sh imm12 rn rd
  | .movn sf hw imm16 rd => encMoveWide 0b00 sf hw imm16 rd
  | .movz sf hw imm16 rd => encMoveWide 0b10 sf hw imm16 rd
  | .movk sf hw imm16 rd => encMoveWide 0b11 sf hw imm16 rd
  | .addReg sf shift rm imm6 rn rd => encArithReg 0b00 sf shift rm imm6 rn rd
  | .addsReg sf shift rm imm6 rn rd => encArithReg 0b01 sf shift rm imm6 rn rd
  | .subReg sf shift rm imm6 rn rd => encArithReg 0b10 sf shift rm imm6 rn rd
  | .subsReg sf shift rm imm6 rn rd => encArithReg 0b11 sf shift rm imm6 rn rd
  | .andReg sf shift rm imm6 rn rd => encLogical 0b00 0 sf shift rm imm6 rn rd
  | .bicReg sf shift rm imm6 rn rd => encLogical 0b00 1 sf shift rm imm6 rn rd
  | .orrReg sf shift rm imm6 rn rd => encLogical 0b01 0 sf shift rm imm6 rn rd
  | .ornReg sf shift rm imm6 rn rd => encLogical 0b01 1 sf shift rm imm6 rn rd
  | .eorReg sf shift rm imm6 rn rd => encLogical 0b10 0 sf shift rm imm6 rn rd
  | .eonReg sf shift rm imm6 rn rd => encLogical 0b10 1 sf shift rm imm6 rn rd
  | .andsReg sf shift rm imm6 rn rd => encLogical 0b11 0 sf shift rm imm6 rn rd
  | .bicsReg sf shift rm imm6 rn rd => encLogical 0b11 1 sf shift rm imm6 rn rd
  | .madd sf rm ra rn rd => encMultiply 0 sf rm ra rn rd
  | .msub sf rm ra rn rd => encMultiply 1 sf rm ra rn rd
  | .ldrUnsigned sf imm12 rn rt => encUnsigned 1 sf imm12 rn rt
  | .strUnsigned sf imm12 rn rt => encUnsigned 0 sf imm12 rn rt
  | .ldrPre sf simm9 rn rt => encIndexed 1 0b11 sf simm9 rn rt
  | .strPre sf simm9 rn rt => encIndexed 0 0b11 sf simm9 rn rt
  | .ldrPost sf simm9 rn rt => encIndexed 1 0b01 sf simm9 rn rt
  | .strPost sf simm9 rn rt => encIndexed 0 0b01 sf simm9 rn rt
  | .ldrReg sf rm rn rt => encRegOffset 1 sf rm rn rt
  | .strReg sf rm rn rt => encRegOffset 0 sf rm rn rt
  | .ldrLit sf simm19 rt => encLiteral sf simm19 rt
  | .b simm26 => encBranch simm26
  | .br rn => encBranchReg rn
  | .bCond simm19 cond => encBranchCond simm19 cond
  | .halt => cfg.haltWord

/-- The instructions that some word stands for, "the realizable subset of the ISA"
(30_encoding.md R118): the field constraints hold, and the word is not the halt word, which is taken
before decoding (30_encoding.md R95, 44_branch.md R231). -/
def Instr.realizable (cfg : Config) (i : Instr) : Bool :=
  i.wellFormed cfg.wbOverlap && (decide (i = .halt) || decide (encode cfg i ≠ cfg.haltWord))

/-! ## The opcode table -/

/-- The "constraints" column of spec/opcode_table.json, by name. -/
inductive RowConstraint where
  | unconstrained
  /-- "sf = 0 requires hw in {00, 01}". -/
  | position
  /-- "shift != 11" and "sf = 0 requires imm6 < 32". -/
  | arithmeticShift
  /-- "sf = 0 requires imm6 < 32". -/
  | logicalShift
  /-- "Rt != Rn or Rn = 31 when WB_OVERLAP = fault". -/
  | noOverlap
  /-- "cond in ..." the seven codes of R94. -/
  | knownCondition
  deriving DecidableEq, Repr

/-- One row of spec/opcode_table.json. -/
structure OpcodeRow where
  mnemonic : String
  value : Word
  mask : Word
  constraint : RowConstraint
  deriving DecidableEq, Repr

/-- The rows of spec/opcode_table.json other than HALT, whose match is the parameter `HALT_WORD`. -/
def opcodeTable : List OpcodeRow :=
  [ ⟨"ADD__immediate", 0x11000000, 0x7F800000, .unconstrained⟩,
    ⟨"ADDS__immediate", 0x31000000, 0x7F800000, .unconstrained⟩,
    ⟨"SUB__immediate", 0x51000000, 0x7F800000, .unconstrained⟩,
    ⟨"SUBS__immediate", 0x71000000, 0x7F800000, .unconstrained⟩,
    ⟨"MOVN", 0x12800000, 0x7F800000, .position⟩,
    ⟨"MOVZ", 0x52800000, 0x7F800000, .position⟩,
    ⟨"MOVK", 0x72800000, 0x7F800000, .position⟩,
    ⟨"ADD__shifted_register", 0x0B000000, 0x7F200000, .arithmeticShift⟩,
    ⟨"ADDS__shifted_register", 0x2B000000, 0x7F200000, .arithmeticShift⟩,
    ⟨"SUB__shifted_register", 0x4B000000, 0x7F200000, .arithmeticShift⟩,
    ⟨"SUBS__shifted_register", 0x6B000000, 0x7F200000, .arithmeticShift⟩,
    ⟨"AND__shifted_register", 0x0A000000, 0x7F200000, .logicalShift⟩,
    ⟨"BIC__shifted_register", 0x0A200000, 0x7F200000, .logicalShift⟩,
    ⟨"ORR__shifted_register", 0x2A000000, 0x7F200000, .logicalShift⟩,
    ⟨"ORN__shifted_register", 0x2A200000, 0x7F200000, .logicalShift⟩,
    ⟨"EOR__shifted_register", 0x4A000000, 0x7F200000, .logicalShift⟩,
    ⟨"EON__shifted_register", 0x4A200000, 0x7F200000, .logicalShift⟩ ] ++
  [ ⟨"ANDS__shifted_register", 0x6A000000, 0x7F200000, .logicalShift⟩,
    ⟨"BICS__shifted_register", 0x6A200000, 0x7F200000, .logicalShift⟩,
    ⟨"MADD", 0x1B000000, 0x7FE08000, .unconstrained⟩,
    ⟨"MSUB", 0x1B008000, 0x7FE08000, .unconstrained⟩,
    ⟨"LDR__unsigned_offset", 0xB9400000, 0xBFC00000, .unconstrained⟩,
    ⟨"STR__unsigned_offset", 0xB9000000, 0xBFC00000, .unconstrained⟩,
    ⟨"LDR__pre-indexed", 0xB8400C00, 0xBFE00C00, .noOverlap⟩,
    ⟨"STR__pre-indexed", 0xB8000C00, 0xBFE00C00, .noOverlap⟩,
    ⟨"LDR__post-indexed", 0xB8400400, 0xBFE00C00, .noOverlap⟩,
    ⟨"STR__post-indexed", 0xB8000400, 0xBFE00C00, .noOverlap⟩,
    ⟨"LDR__register_offset", 0xB8606800, 0xBFE0FC00, .unconstrained⟩,
    ⟨"STR__register_offset", 0xB8206800, 0xBFE0FC00, .unconstrained⟩,
    ⟨"LDR__literal", 0x18000000, 0xBF000000, .unconstrained⟩,
    ⟨"B", 0x14000000, 0xFC000000, .unconstrained⟩,
    ⟨"BR", 0xD61F0000, 0xFFFFFC1F, .unconstrained⟩,
    ⟨"B.cond", 0x54000000, 0xFF000010, .knownCondition⟩ ]

/-- Whether a word meets a row's constraint, read from the word's own fields. -/
def RowConstraint.holds (cfg : Config) (w : Word) : RowConstraint → Bool
  | .unconstrained => true
  | .position => decide (field w 31 1 = 1) || decide ((field w 21 2).toNat < 2)
  | .arithmeticShift =>
    decide (field w 22 2 ≠ 0b11) && (decide (field w 31 1 = 1) || decide ((field w 10 6).toNat < 32))
  | .logicalShift => decide (field w 31 1 = 1) || decide ((field w 10 6).toNat < 32)
  | .noOverlap =>
    decide (cfg.wbOverlap = .ordered) || decide (field w 0 5 ≠ field w 5 5) || decide (field w 5 5 = 31)
  | .knownCondition => (condOf (field w 0 4)).isSome

/-- A word is matched by a row when it is not the halt word ("checked before every other row"), its
masked bits are the row's, and the row's constraint holds. -/
def OpcodeRow.accepts (cfg : Config) (w : Word) (row : OpcodeRow) : Bool :=
  decide (w ≠ cfg.haltWord) && decide (w &&& row.mask = row.value) && row.constraint.holds cfg w

/-- The row of spec/opcode_table.json an instruction stands for, by its mnemonic there. -/
def Instr.mnemonic : Instr → String
  | .addImm _ _ _ _ _ => "ADD__immediate"
  | .addsImm _ _ _ _ _ => "ADDS__immediate"
  | .subImm _ _ _ _ _ => "SUB__immediate"
  | .subsImm _ _ _ _ _ => "SUBS__immediate"
  | .movn _ _ _ _ => "MOVN"
  | .movz _ _ _ _ => "MOVZ"
  | .movk _ _ _ _ => "MOVK"
  | .addReg _ _ _ _ _ _ => "ADD__shifted_register"
  | .addsReg _ _ _ _ _ _ => "ADDS__shifted_register"
  | .subReg _ _ _ _ _ _ => "SUB__shifted_register"
  | .subsReg _ _ _ _ _ _ => "SUBS__shifted_register"
  | .andReg _ _ _ _ _ _ => "AND__shifted_register"
  | .bicReg _ _ _ _ _ _ => "BIC__shifted_register"
  | .orrReg _ _ _ _ _ _ => "ORR__shifted_register"
  | .ornReg _ _ _ _ _ _ => "ORN__shifted_register"
  | .eorReg _ _ _ _ _ _ => "EOR__shifted_register"
  | .eonReg _ _ _ _ _ _ => "EON__shifted_register"
  | .andsReg _ _ _ _ _ _ => "ANDS__shifted_register"
  | .bicsReg _ _ _ _ _ _ => "BICS__shifted_register"
  | .madd _ _ _ _ _ => "MADD"
  | .msub _ _ _ _ _ => "MSUB"
  | .ldrUnsigned _ _ _ _ => "LDR__unsigned_offset"
  | .strUnsigned _ _ _ _ => "STR__unsigned_offset"
  | .ldrPre _ _ _ _ => "LDR__pre-indexed"
  | .strPre _ _ _ _ => "STR__pre-indexed"
  | .ldrPost _ _ _ _ => "LDR__post-indexed"
  | .strPost _ _ _ _ => "STR__post-indexed"
  | .ldrReg _ _ _ _ => "LDR__register_offset"
  | .strReg _ _ _ _ => "STR__register_offset"
  | .ldrLit _ _ _ => "LDR__literal"
  | .b _ => "B"
  | .br _ => "BR"
  | .bCond _ _ => "B.cond"
  | .halt => "HALT"

end Sys2Proof
end

