-- ==== Sys2Proof/Machine/State.lean ====
section
/-!
DEFINITION. The architectural state of the ACM core (10_state.md R20), the reasons a step can stop,
and the state after reset (10_state.md R36 to R40).
-/

namespace Sys2Proof.Machine

/-- The condition flags, "four independent booleans" (10_state.md R31). -/
structure Flags where
  n : Bool
  z : Bool
  c : Bool
  v : Bool
  deriving DecidableEq, Repr

/-- A fatal condition with the information it records (60_exceptions.md R250). -/
inductive FatalCondition where
  /-- Code 1: the word is not `HALT_WORD` and matches no row of the opcode table. -/
  | unknownInstruction (word : Word) (pc : DWord)
  /-- Code 2: `uint(addr) + size > MEM_SIZE`. -/
  | outOfBoundsAccess (addr : DWord) (size : Nat) (pc : DWord)
  /-- Code 3: `pc` not a multiple of 4 at fetch. -/
  | misalignedFetch (pc : DWord)
  /-- Code 4: a data access not aligned to its size, only with `MISALIGNED_DATA = fault`. -/
  | misalignedData (addr : DWord) (size : Nat) (pc : DWord)
  deriving DecidableEq, Repr

/-- The run status (10_state.md R35). -/
inductive RunStatus where
  | running
  | halted
  | faulted (condition : FatalCondition)
  deriving DecidableEq, Repr

/-- `Mem` as data: the bytes that are not 0, by address, addresses strictly rising. An unlisted address
reads 0, since memory is "zero-initialized" (10_state.md R39). -/
abbrev Memory := List Host.Cell

/-- The state tuple of 10_state.md R20, and the parameters of 00_scope.md R6 (`cfg`, the model's own
field, which no step changes; log 2). -/
structure State where
  /-- The general registers `X[0]` to `X[30]` (10_state.md R21). -/
  x : Vector DWord 31
  /-- The program counter (10_state.md R27). -/
  pc : DWord
  /-- N, Z, C, V (10_state.md R31). -/
  flags : Flags
  /-- The one memory (20_memory.md R50). -/
  mem : Memory
  /-- The run status (10_state.md R35). -/
  status : RunStatus
  /-- The parameters this machine was built with (00_scope.md R6). -/
  cfg : Config
  deriving DecidableEq, Repr

/-- Why a step is not enabled: "The step ... is enabled only while `status = Running`"
(10_state.md R35). The fatal conditions of the spec are no faults of this type: they are next states
whose `status` is `faulted` (log 1). -/
inductive Fault where
  /-- Raised by `step` alone, when `status` is `halted`: nothing wakes a halted core
  (60_exceptions.md R260). Safe: the spec says no step exists there. -/
  | steppedWhileHalted
  /-- Raised by `step` alone, when `status` is `faulted`: "No later step exists"
  (60_exceptions.md R252). Safe: the spec says no step exists there. -/
  | steppedWhileFaulted
  deriving DecidableEq, Repr

/-- Reasons to give an instruction no meaning. No step answers one: every instruction of the opcode
table has its meaning. -/
inductive Refusal where
  /-- An arm of `exec` whose instruction has no meaning yet; there is none. Safe. -/
  | notModelled (mnemonic : String)
  deriving DecidableEq, Repr

/-- The flags named by a vector `N:Z:C:V`, N its most significant bit (00_scope.md R9). -/
def flagsOfVector (v : BitVec 4) : Flags :=
  ⟨v.getLsbD 3, v.getLsbD 2, v.getLsbD 1, v.getLsbD 0⟩

/-- The reset state of a machine with parameters `cfg` in whose memory the host has placed the image:
registers 0 (10_state.md R36), `pc = RESET_PC` (R37), flags `RESET_NZCV` (R38), memory "as loaded"
(70_reset_and_hazards.md R280), status `Running` (R40). -/
def State.resetWith (cfg : Config) (mem : Memory) : State :=
  { x := Vector.replicate 31 0
    pc := resetPc
    flags := flagsOfVector cfg.resetNzcv
    mem := mem
    status := .running
    cfg := cfg }

/-- The machine right after reset with the default parameters and the empty image (10_state.md R36 to
R40; log 3, log 4). -/
def State.reset : State := State.resetWith Config.standard []

end Sys2Proof.Machine
end

