-- ==== Sys2Proof/Machine/Ops.lean ====
section
/-!
DEFINITION. The named operations every meaning is built from: registers (10_state.md R23, R24), memory
(20_memory.md R51 to R53, R57), fatal conditions (60_exceptions.md R252), instruction fetch
(20_memory.md R55, R58). No meaning touches the state another way.
-/

namespace Sys2Proof.Machine

/-! ## Sizes -/

/-- The transfer size `n` in bytes (43_load_store.md R200). -/
def opBytes : OpSize → Nat
  | .w32 => 4
  | .w64 => 8

/-- The operation width `w = 8n`: 32 or 64 bits (40_alu.md R130, 43_load_store.md R200). -/
def opBits (sf : OpSize) : Nat := 8 * opBytes sf

/-! ## Registers -/

/-- `x[i]`: register `i` as 64 bits, index 31 reading 0 (10_state.md R23). -/
def readX (i : RegIdx) (s : State) : DWord :=
  if h : i.toNat < 31 then s.x[i.toNat] else 0

/-- `xw(i, w)`: the low `w` bits of register `i` (10_state.md R23). -/
def readXw (w : Nat) (i : RegIdx) (s : State) : BitVec w := (readX i s).setWidth w

/-- `wrw(i, w, v)`: the whole slot becomes the zero-extended value; index 31 writes nothing
(10_state.md R24). -/
def writeXw (w : Nat) (i : RegIdx) (v : BitVec w) (s : State) : State :=
  if h : i.toNat < 31 then { s with x := s.x.set i.toNat (v.setWidth 64) } else s

/-- `x[i] <- v` is `wrw(i, 64, v)` (10_state.md R24). -/
def writeX (i : RegIdx) (v : DWord) (s : State) : State := writeXw 64 i v s

/-- `N:Z:C:V <- f`: all four at once (40_alu.md R139). -/
def setFlags (f : Flags) (s : State) : State := { s with flags := f }

/-- `pc <- target`. -/
def setPc (target : DWord) (s : State) : State := { s with pc := target }

/-- `pc <- pc + 4`, modulo `2^64` (10_state.md R28, R30). -/
def advance (s : State) : State := setPc (s.pc + 4) s

/-! ## Ends of a run -/

/-- Raising a fatal condition: no register, flag, memory byte or `pc` changes, and
`status <- Faulted(code, info)` (60_exceptions.md R252). There is no trap entry and no return from one
(R254, R255), so this is all that taking an exception does. -/
def raise (c : FatalCondition) (s : State) : State := { s with status := .faulted c }

/-- The numeric code of a fatal condition (60_exceptions.md R250). -/
def faultCode : FatalCondition → Nat
  | .unknownInstruction _ _ => 1
  | .outOfBoundsAccess _ _ _ => 2
  | .misalignedFetch _ => 3
  | .misalignedData _ _ _ => 4

/-- The halt sentinel's effect: `status <- Halted`, all else unchanged (44_branch.md R234). -/
def haltCore (s : State) : State := { s with status := .halted }

/-! ## Bytes of memory -/

/-- What an unlisted address reads as (10_state.md R39). -/
def emptyByte : Byte := 0

/-- `Mem[a]`. -/
def readByte (m : Memory) (a : Nat) : Byte :=
  match m with
  | [] => emptyByte
  | (k, b) :: rest => if k = a then b else readByte rest a

/-- One listed cell, or none when the byte is what an unlisted address reads as. -/
def cellFor (a : Nat) (b : Byte) : Memory := if b = emptyByte then [] else [(a, b)]

/-- `Mem[a] <- b`, keeping the addresses strictly rising and the byte 0 unlisted. -/
def writeByte (m : Memory) (a : Nat) (b : Byte) : Memory :=
  match m with
  | [] => cellFor a b
  | (k, c) :: rest =>
    if a < k then cellFor a b ++ (k, c) :: rest
    else if a = k then cellFor a b ++ rest
    else (k, c) :: writeByte rest a b

/-- The canonical form: every listed address is at least `lo`, addresses strictly rise, and no listed
byte is what an unlisted address reads as. -/
def cellsFrom (lo : Nat) : Memory → Bool
  | [] => true
  | (k, b) :: rest => decide (lo ≤ k) && decide (b ≠ emptyByte) && cellsFrom (k + 1) rest

/-- The canonical form of memory. -/
def Memory.wf (m : Memory) : Bool := cellsFrom 0 m

/-- Only bytes that exist, those of addresses below `MEM_SIZE`, are listed (20_memory.md R50). -/
def Memory.within (size : Nat) (m : Memory) : Bool := m.all fun cell => decide (cell.1 < size)

/-! ## Little-endian access -/

/-- The `n` bytes from address `a` as one value, the lowest address least significant
(20_memory.md R52). -/
def readLE (m : Memory) (a : Nat) : (n : Nat) → BitVec (8 * n)
  | 0 => 0#0
  | n + 1 => (readLE m (a + 1) n ++ readByte m a : BitVec (8 * n + 8))

/-- The low `n` bytes of `v` to the `n` bytes from address `a` (20_memory.md R53). -/
def writeLE {w : Nat} (m : Memory) (a : Nat) : (n : Nat) → (v : BitVec w) → Memory
  | 0, _ => m
  | n + 1, v => writeLE (writeByte m a (v.setWidth 8)) (a + 1) n (v >>> 8)

/-- `uint(a) + n <= MEM_SIZE`, on unbounded integers (20_memory.md R51). -/
def inBounds (cfg : Config) (a : DWord) (n : Nat) : Bool := decide (a.toNat + n ≤ cfg.memSize)

/-- `MISALIGNED_DATA = fault` and the address is no multiple of the access size (20_memory.md R57). -/
def misaligned (cfg : Config) (a : DWord) (n : Nat) : Bool :=
  decide (cfg.misalignedData = .fault) && decide (a.toNat % n ≠ 0)

/-- The condition a data access raises: bounds first, then alignment (20_memory.md R51, R57;
60_exceptions.md R253). -/
def dataFault (ea : DWord) (n : Nat) (s : State) : Option FatalCondition :=
  if inBounds s.cfg ea n = false then some (.outOfBoundsAccess ea n s.pc)
  else if misaligned s.cfg ea n = true then some (.misalignedData ea n s.pc)
  else none

/-- `MemRead(ea, n)` as a data access (20_memory.md R52). -/
def loadData (ea : DWord) (n : Nat) (s : State) : Except FatalCondition (BitVec (8 * n)) :=
  match dataFault ea n s with
  | some c => .error c
  | none => .ok (readLE s.mem ea.toNat n)

/-- The state after the bytes of `MemWrite(ea, n, v)` are written (20_memory.md R53). -/
def putBytes {w : Nat} (ea : DWord) (n : Nat) (v : BitVec w) (s : State) : State :=
  { s with mem := writeLE s.mem ea.toNat n v }

/-- `MemWrite(ea, n, v)` as a data access (20_memory.md R53). -/
def storeData {w : Nat} (ea : DWord) (n : Nat) (v : BitVec w) (s : State) : Except FatalCondition State :=
  match dataFault ea n s with
  | some c => .error c
  | none => .ok (putBytes ea n v s)

/-! ## Instruction fetch -/

/-- The condition a fetch raises: alignment first, then bounds (20_memory.md R55, R58;
60_exceptions.md R253). -/
def fetchFault (s : State) : Option FatalCondition :=
  if s.pc.toNat % 4 ≠ 0 then some (.misalignedFetch s.pc)
  else if inBounds s.cfg s.pc 4 = false then some (.outOfBoundsAccess s.pc 4 s.pc)
  else none

/-- The word at `pc`, `MemRead(pc, 4)` (20_memory.md R55). -/
def fetchWord (s : State) : Except FatalCondition Word :=
  match fetchFault s with
  | some c => .error c
  | none => .ok (readLE s.mem s.pc.toNat 4)

end Sys2Proof.Machine
end

