-- ==== Sys2Proof/Machine/Flags.lean ====
section
/-!
DEFINITION. Every flag computation and the condition unit (40_alu.md R131 to R134, R137), and the
multiplier, which sets no flag (R138).
-/

namespace Sys2Proof.Machine

/-- `AddFlags(a, b, w)`: the sum and its flags (40_alu.md R131). -/
def addFlags {w : Nat} (a b : BitVec w) : BitVec w × Flags :=
  let s := a.toNat + b.toNat
  let result := BitVec.ofNat w s
  (result,
    { n := result.msb
      z := decide (result = 0)
      c := decide (2 ^ w ≤ s)
      v := decide (a.msb = b.msb) && decide (result.msb ≠ a.msb) })

/-- `SubFlags(a, b, w)`: the difference and its flags, C meaning no borrow (40_alu.md R132). -/
def subFlags {w : Nat} (a b : BitVec w) : BitVec w × Flags :=
  let result := a - b
  (result,
    { n := result.msb
      z := decide (result = 0)
      c := decide (b.toNat ≤ a.toNat)
      v := decide (a.msb ≠ b.msb) && decide (result.msb ≠ a.msb) })

/-- `LogicFlags(r, w)`: N and Z from the result, C and V clear (40_alu.md R134). -/
def logicFlags {w : Nat} (r : BitVec w) : Flags :=
  { n := r.msb, z := decide (r = 0), c := false, v := false }

/-- `CondHolds(cond, N, Z, C, V)`; C is never read (40_alu.md R137). -/
def condHolds (cond : Cond) (f : Flags) : Bool :=
  match cond with
  | .eq => f.z
  | .ne => !f.z
  | .ge => f.n == f.v
  | .lt => !(f.n == f.v)
  | .gt => (f.n == f.v) && !f.z
  | .le => !((f.n == f.v) && !f.z)
  | .al => true

/-- `MulAdd(a, n, m, w)`: the low `w` bits of `a + n * m` (40_alu.md R138). -/
def mulAdd {w : Nat} (a n m : BitVec w) : BitVec w := a + n * m

/-- `MulSub(a, n, m, w)`: the low `w` bits of `a - n * m` (40_alu.md R138). -/
def mulSub {w : Nat} (a n m : BitVec w) : BitVec w := a - n * m

end Sys2Proof.Machine
end

