-- ==== Sys2Proof/Machine/Operands.lean ====
section
/-!
DEFINITION. Every operand form (30_encoding.md R97): immediates, the shifted register operand with the
barrel shifter (40_alu.md R135), the effective addresses of the five addressing modes
(43_load_store.md R202 to R206) and the branch targets (44_branch.md R230).
-/

namespace Sys2Proof.Machine

/-- `zext_w(imm12) << (12 * sh)` (41_dp_immediate.md R151). -/
def arithImm (w : Nat) (sh : Bool) (imm12 : BitVec 12) : BitVec w :=
  imm12.setWidth w <<< (12 * sh.toNat)

/-- `trunc_w(zext_w(imm16) << (16 * hw))` (41_dp_immediate.md R155). -/
def wideImm (w : Nat) (hw : BitVec 2) (imm16 : BitVec 16) : BitVec w :=
  imm16.setWidth w <<< (16 * hw.toNat)

/-- `NOT trunc_w(zext_w(0xFFFF) << (16 * hw))`, the bits MOVK keeps (41_dp_immediate.md R157). -/
def keepMask (w : Nat) (hw : BitVec 2) : BitVec w := ~~~ wideImm w hw 0xFFFF

/-- The barrel shifter `Shift(v, t, n, w)` (40_alu.md R135). -/
def shiftValue {w : Nat} (kind : ShiftKind) (v : BitVec w) (n : Nat) : BitVec w :=
  match kind with
  | .lsl => v <<< n
  | .lsr => v >>> n
  | .asr => ((v.signExtend (2 * w)) >>> n).setWidth w
  | .ror => (v >>> n) ||| (v <<< (w - n))

/-- `op2 = Shift(xw(Rm, w), shift, uint(imm6), w)` (42_dp_register.md R170). -/
def shiftedReg (w : Nat) (shift : ShiftKind) (rm : RegIdx) (imm6 : BitVec 6) (s : State) : BitVec w :=
  shiftValue shift (readXw w rm s) imm6.toNat

/-- The complemented shifted operand, `N = 1` (42_dp_register.md R188). -/
def invertedReg (w : Nat) (shift : ShiftKind) (rm : RegIdx) (imm6 : BitVec 6) (s : State) : BitVec w :=
  ~~~ shiftedReg w shift rm imm6 s

/-- Unsigned offset: `ea = x[Rn] + zext_64(imm12) * n` (43_load_store.md R202). -/
def eaUnsigned (sf : OpSize) (imm12 : BitVec 12) (rn : RegIdx) (s : State) : DWord :=
  readX rn s + imm12.setWidth 64 * BitVec.ofNat 64 (opBytes sf)

/-- `x[Rn] + sext_64(simm9)`: the address of a pre-indexed access, and what both writeback forms leave
in the base (43_load_store.md R203, R204). -/
def eaIndexed (simm9 : BitVec 9) (rn : RegIdx) (s : State) : DWord := readX rn s + simm9.signExtend 64

/-- Post-indexed: the access is at the old base (43_load_store.md R204). -/
def eaBase (rn : RegIdx) (s : State) : DWord := readX rn s

/-- Register offset: `ea = x[Rn] + x[Rm]`, not scaled (43_load_store.md R205). -/
def eaRegister (rm rn : RegIdx) (s : State) : DWord := readX rn s + readX rm s

/-- A target `pc + sext_64(simm) * 4`, relative to the instruction's own address: the literal address
(43_load_store.md R206) and the B and B.cond targets (44_branch.md R231, R233). -/
def pcRelative {k : Nat} (simm : BitVec k) (s : State) : DWord := s.pc + simm.signExtend 64 * 4

end Sys2Proof.Machine
end

