-- ==== Sys2Proof/Machine/Branch.lean ====
section
/-!
DEFINITION. Branches and the halt sentinel (44_branch.md): B, BR, B.cond, HALT.
-/

namespace Sys2Proof.Machine

/-- B (44_branch.md R231). -/
def execB (simm26 : BitVec 26) (s : State) : Host.Outcome State Fault Refusal :=
  .next (setPc (pcRelative simm26 s) s)

/-- BR: any 64-bit target; a bad one faults at the next fetch (44_branch.md R232). -/
def execBr (rn : RegIdx) (s : State) : Host.Outcome State Fault Refusal :=
  .next (setPc (readX rn s) s)

/-- B.cond (44_branch.md R233). -/
def execBCond (simm19 : BitVec 19) (cond : Cond) (s : State) : Host.Outcome State Fault Refusal :=
  if condHolds cond s.flags then .next (setPc (pcRelative simm19 s) s) else .next (advance s)

/-- HALT (44_branch.md R234). -/
def execHalt (s : State) : Host.Outcome State Fault Refusal := .next (haltCore s)

end Sys2Proof.Machine
end

