-- ==== Sys2Proof/Machine/DpImmediate.lean ====
section
/-!
DEFINITION. Data processing, immediate (41_dp_immediate.md): ADD, ADDS, SUB, SUBS; MOVN, MOVZ, MOVK.
-/

namespace Sys2Proof.Machine

/-- ADD (immediate) (41_dp_immediate.md R151). -/
def execAddImm (sf : OpSize) (sh : Bool) (imm12 : BitVec 12) (rn rd : RegIdx) (s : State) :
    Host.Outcome State Fault Refusal :=
  let w := opBits sf
  let result := readXw w rn s + arithImm w sh imm12
  .next (advance (writeXw w rd result s))

/-- ADDS (immediate) (41_dp_immediate.md R152). -/
def execAddsImm (sf : OpSize) (sh : Bool) (imm12 : BitVec 12) (rn rd : RegIdx) (s : State) :
    Host.Outcome State Fault Refusal :=
  let w := opBits sf
  let r := addFlags (readXw w rn s) (arithImm w sh imm12)
  .next (advance (setFlags r.2 (writeXw w rd r.1 s)))

/-- SUB (immediate) (41_dp_immediate.md R153). -/
def execSubImm (sf : OpSize) (sh : Bool) (imm12 : BitVec 12) (rn rd : RegIdx) (s : State) :
    Host.Outcome State Fault Refusal :=
  let w := opBits sf
  let result := readXw w rn s - arithImm w sh imm12
  .next (advance (writeXw w rd result s))

/-- SUBS (immediate) (41_dp_immediate.md R154). -/
def execSubsImm (sf : OpSize) (sh : Bool) (imm12 : BitVec 12) (rn rd : RegIdx) (s : State) :
    Host.Outcome State Fault Refusal :=
  let w := opBits sf
  let r := subFlags (readXw w rn s) (arithImm w sh imm12)
  .next (advance (setFlags r.2 (writeXw w rd r.1 s)))

/-- MOVN (41_dp_immediate.md R155). -/
def execMovn (sf : OpSize) (hw : BitVec 2) (imm16 : BitVec 16) (rd : RegIdx) (s : State) :
    Host.Outcome State Fault Refusal :=
  let w := opBits sf
  .next (advance (writeXw w rd (~~~ wideImm w hw imm16) s))

/-- MOVZ (41_dp_immediate.md R156). -/
def execMovz (sf : OpSize) (hw : BitVec 2) (imm16 : BitVec 16) (rd : RegIdx) (s : State) :
    Host.Outcome State Fault Refusal :=
  let w := opBits sf
  .next (advance (writeXw w rd (wideImm w hw imm16) s))

/-- MOVK: the other bits of `Rd` at the operation width are kept (41_dp_immediate.md R157). -/
def execMovk (sf : OpSize) (hw : BitVec 2) (imm16 : BitVec 16) (rd : RegIdx) (s : State) :
    Host.Outcome State Fault Refusal :=
  let w := opBits sf
  let result := (readXw w rd s &&& keepMask w hw) ||| wideImm w hw imm16
  .next (advance (writeXw w rd result s))

end Sys2Proof.Machine
end

