-- ==== Sys2Proof/Machine/DpRegister.lean ====
section
/-!
DEFINITION. Data processing, register (42_dp_register.md): ADD, ADDS, SUB, SUBS with a shifted register;
AND, BIC, ORR, ORN, EOR, EON, ANDS, BICS with a shifted register; MADD, MSUB.
-/

namespace Sys2Proof.Machine

/-- ADD (shifted register) (42_dp_register.md R171). -/
def execAddReg (sf : OpSize) (shift : ShiftKind) (rm : RegIdx) (imm6 : BitVec 6)
    (rn rd : RegIdx) (s : State) : Host.Outcome State Fault Refusal :=
  let w := opBits sf
  let result := readXw w rn s + shiftedReg w shift rm imm6 s
  .next (advance (writeXw w rd result s))

/-- ADDS (shifted register) (42_dp_register.md R172). -/
def execAddsReg (sf : OpSize) (shift : ShiftKind) (rm : RegIdx) (imm6 : BitVec 6)
    (rn rd : RegIdx) (s : State) : Host.Outcome State Fault Refusal :=
  let w := opBits sf
  let r := addFlags (readXw w rn s) (shiftedReg w shift rm imm6 s)
  .next (advance (setFlags r.2 (writeXw w rd r.1 s)))

/-- SUB (shifted register) (42_dp_register.md R173). -/
def execSubReg (sf : OpSize) (shift : ShiftKind) (rm : RegIdx) (imm6 : BitVec 6)
    (rn rd : RegIdx) (s : State) : Host.Outcome State Fault Refusal :=
  let w := opBits sf
  let result := readXw w rn s - shiftedReg w shift rm imm6 s
  .next (advance (writeXw w rd result s))

/-- SUBS (shifted register) (42_dp_register.md R174). -/
def execSubsReg (sf : OpSize) (shift : ShiftKind) (rm : RegIdx) (imm6 : BitVec 6)
    (rn rd : RegIdx) (s : State) : Host.Outcome State Fault Refusal :=
  let w := opBits sf
  let r := subFlags (readXw w rn s) (shiftedReg w shift rm imm6 s)
  .next (advance (setFlags r.2 (writeXw w rd r.1 s)))

/-- AND (shifted register) (42_dp_register.md R188, R175). -/
def execAndReg (sf : OpSize) (shift : ShiftKind) (rm : RegIdx) (imm6 : BitVec 6)
    (rn rd : RegIdx) (s : State) : Host.Outcome State Fault Refusal :=
  let w := opBits sf
  let result := readXw w rn s &&& shiftedReg w shift rm imm6 s
  .next (advance (writeXw w rd result s))

/-- BIC (shifted register) (42_dp_register.md R188, R176). -/
def execBicReg (sf : OpSize) (shift : ShiftKind) (rm : RegIdx) (imm6 : BitVec 6)
    (rn rd : RegIdx) (s : State) : Host.Outcome State Fault Refusal :=
  let w := opBits sf
  let result := readXw w rn s &&& invertedReg w shift rm imm6 s
  .next (advance (writeXw w rd result s))

/-- ORR (shifted register) (42_dp_register.md R188, R177). -/
def execOrrReg (sf : OpSize) (shift : ShiftKind) (rm : RegIdx) (imm6 : BitVec 6)
    (rn rd : RegIdx) (s : State) : Host.Outcome State Fault Refusal :=
  let w := opBits sf
  let result := readXw w rn s ||| shiftedReg w shift rm imm6 s
  .next (advance (writeXw w rd result s))

/-- ORN (shifted register) (42_dp_register.md R188, R178). -/
def execOrnReg (sf : OpSize) (shift : ShiftKind) (rm : RegIdx) (imm6 : BitVec 6)
    (rn rd : RegIdx) (s : State) : Host.Outcome State Fault Refusal :=
  let w := opBits sf
  let result := readXw w rn s ||| invertedReg w shift rm imm6 s
  .next (advance (writeXw w rd result s))

/-- EOR (shifted register) (42_dp_register.md R188, R179). -/
def execEorReg (sf : OpSize) (shift : ShiftKind) (rm : RegIdx) (imm6 : BitVec 6)
    (rn rd : RegIdx) (s : State) : Host.Outcome State Fault Refusal :=
  let w := opBits sf
  let result := readXw w rn s ^^^ shiftedReg w shift rm imm6 s
  .next (advance (writeXw w rd result s))

/-- EON (shifted register) (42_dp_register.md R188, R180). -/
def execEonReg (sf : OpSize) (shift : ShiftKind) (rm : RegIdx) (imm6 : BitVec 6)
    (rn rd : RegIdx) (s : State) : Host.Outcome State Fault Refusal :=
  let w := opBits sf
  let result := readXw w rn s ^^^ invertedReg w shift rm imm6 s
  .next (advance (writeXw w rd result s))

/-- ANDS (shifted register) (42_dp_register.md R188, R181). -/
def execAndsReg (sf : OpSize) (shift : ShiftKind) (rm : RegIdx) (imm6 : BitVec 6)
    (rn rd : RegIdx) (s : State) : Host.Outcome State Fault Refusal :=
  let w := opBits sf
  let result := readXw w rn s &&& shiftedReg w shift rm imm6 s
  .next (advance (setFlags (logicFlags result) (writeXw w rd result s)))

/-- BICS (shifted register) (42_dp_register.md R188, R182). -/
def execBicsReg (sf : OpSize) (shift : ShiftKind) (rm : RegIdx) (imm6 : BitVec 6)
    (rn rd : RegIdx) (s : State) : Host.Outcome State Fault Refusal :=
  let w := opBits sf
  let result := readXw w rn s &&& invertedReg w shift rm imm6 s
  .next (advance (setFlags (logicFlags result) (writeXw w rd result s)))

/-- MADD (42_dp_register.md R183). -/
def execMadd (sf : OpSize) (rm ra rn rd : RegIdx) (s : State) : Host.Outcome State Fault Refusal :=
  let w := opBits sf
  let result := mulAdd (readXw w ra s) (readXw w rn s) (readXw w rm s)
  .next (advance (writeXw w rd result s))

/-- MSUB (42_dp_register.md R184). -/
def execMsub (sf : OpSize) (rm ra rn rd : RegIdx) (s : State) : Host.Outcome State Fault Refusal :=
  let w := opBits sf
  let result := mulSub (readXw w ra s) (readXw w rn s) (readXw w rm s)
  .next (advance (writeXw w rd result s))

end Sys2Proof.Machine
end

