-- ==== Sys2Proof/Machine/LoadStore.lean ====
section
/-!
DEFINITION. Loads and stores (43_load_store.md): LDR and STR with unsigned-offset, pre-indexed,
post-indexed and register-offset addressing, and LDR literal. The writes of one instruction stand in
the order its rule lists them, which is what `WB_OVERLAP = ordered` asks for (R216); under
`WB_OVERLAP = fault` the decoder has refused `Rt = Rn != 31` (30_encoding.md R101).
-/

namespace Sys2Proof.Machine

/-- A load of `n` bytes at `ea`: `finish` applies the register writes to the value read, `pc` advances;
a data-access condition ends the step with nothing written (43_load_store.md R200, R201). -/
def loadThen (ea : DWord) (n : Nat) (finish : BitVec (8 * n) → State → State) (s : State) :
    Host.Outcome State Fault Refusal :=
  match loadData ea n s with
  | .error c => .next (raise c s)
  | .ok v => .next (advance (finish v s))

/-- A store of the low `n` bytes of `Rt` at `ea`: `finish` applies the writeback, `pc` advances; a
data-access condition ends the step with nothing written (43_load_store.md R200, R201). -/
def storeThen (ea : DWord) (n : Nat) (rt : RegIdx) (finish : State → State) (s : State) :
    Host.Outcome State Fault Refusal :=
  match storeData ea n (readXw (8 * n) rt s) s with
  | .error c => .next (raise c s)
  | .ok s' => .next (advance (finish s'))

/-- LDR (unsigned offset) (43_load_store.md R207). -/
def execLdrUnsigned (sf : OpSize) (imm12 : BitVec 12) (rn rt : RegIdx) (s : State) :
    Host.Outcome State Fault Refusal :=
  loadThen (eaUnsigned sf imm12 rn s) (opBytes sf) (writeXw _ rt) s

/-- STR (unsigned offset) (43_load_store.md R208). -/
def execStrUnsigned (sf : OpSize) (imm12 : BitVec 12) (rn rt : RegIdx) (s : State) :
    Host.Outcome State Fault Refusal :=
  storeThen (eaUnsigned sf imm12 rn s) (opBytes sf) rt id s

/-- LDR (pre-indexed): the base is written first and `Rt` last (43_load_store.md R209, R216). -/
def execLdrPre (sf : OpSize) (simm9 : BitVec 9) (rn rt : RegIdx) (s : State) :
    Host.Outcome State Fault Refusal :=
  let ea := eaIndexed simm9 rn s
  loadThen ea (opBytes sf) (fun v t => writeXw _ rt v (writeX rn ea t)) s

/-- STR (pre-indexed): `Rt` is read before any write (43_load_store.md R210, R216). -/
def execStrPre (sf : OpSize) (simm9 : BitVec 9) (rn rt : RegIdx) (s : State) :
    Host.Outcome State Fault Refusal :=
  let ea := eaIndexed simm9 rn s
  storeThen ea (opBytes sf) rt (writeX rn ea) s

/-- LDR (post-indexed): `Rt` is written first and the base last (43_load_store.md R211, R216). -/
def execLdrPost (sf : OpSize) (simm9 : BitVec 9) (rn rt : RegIdx) (s : State) :
    Host.Outcome State Fault Refusal :=
  loadThen (eaBase rn s) (opBytes sf) (fun v t => writeX rn (eaIndexed simm9 rn s) (writeXw _ rt v t)) s

/-- STR (post-indexed) (43_load_store.md R212). -/
def execStrPost (sf : OpSize) (simm9 : BitVec 9) (rn rt : RegIdx) (s : State) :
    Host.Outcome State Fault Refusal :=
  storeThen (eaBase rn s) (opBytes sf) rt (writeX rn (eaIndexed simm9 rn s)) s

/-- LDR (register offset) (43_load_store.md R213). -/
def execLdrReg (sf : OpSize) (rm rn rt : RegIdx) (s : State) : Host.Outcome State Fault Refusal :=
  loadThen (eaRegister rm rn s) (opBytes sf) (writeXw _ rt) s

/-- STR (register offset) (43_load_store.md R214). -/
def execStrReg (sf : OpSize) (rm rn rt : RegIdx) (s : State) : Host.Outcome State Fault Refusal :=
  storeThen (eaRegister rm rn s) (opBytes sf) rt id s

/-- LDR (literal) (43_load_store.md R215). -/
def execLdrLit (sf : OpSize) (simm19 : BitVec 19) (rt : RegIdx) (s : State) :
    Host.Outcome State Fault Refusal :=
  loadThen (pcRelative simm19 s) (opBytes sf) (writeXw _ rt) s

end Sys2Proof.Machine
end

