-- ==== Sys2Proof/Machine/Dispatch.lean ====
section
/-!
DEFINITION. The dispatch: one arm per constructor of `Instr`, each one call of its meaning.
-/

namespace Sys2Proof.Machine

/-- The effect of an instruction (70_reset_and_hazards.md R282, "execute" and "commit"). Whether a step is
enabled at all is asked by `step`, not here (log 7). -/
def exec (i : Instr) (s : State) : Host.Outcome State Fault Refusal :=
  match i with
  | .addImm sf sh imm12 rn rd => Sys2Proof.Machine.execAddImm sf sh imm12 rn rd s
  | .addsImm sf sh imm12 rn rd => Sys2Proof.Machine.execAddsImm sf sh imm12 rn rd s
  | .subImm sf sh imm12 rn rd => Sys2Proof.Machine.execSubImm sf sh imm12 rn rd s
  | .subsImm sf sh imm12 rn rd => Sys2Proof.Machine.execSubsImm sf sh imm12 rn rd s
  | .movn sf hw imm16 rd => Sys2Proof.Machine.execMovn sf hw imm16 rd s
  | .movz sf hw imm16 rd => Sys2Proof.Machine.execMovz sf hw imm16 rd s
  | .movk sf hw imm16 rd => Sys2Proof.Machine.execMovk sf hw imm16 rd s
  | .addReg sf shift rm imm6 rn rd => Sys2Proof.Machine.execAddReg sf shift rm imm6 rn rd s
  | .addsReg sf shift rm imm6 rn rd => Sys2Proof.Machine.execAddsReg sf shift rm imm6 rn rd s
  | .subReg sf shift rm imm6 rn rd => Sys2Proof.Machine.execSubReg sf shift rm imm6 rn rd s
  | .subsReg sf shift rm imm6 rn rd => Sys2Proof.Machine.execSubsReg sf shift rm imm6 rn rd s
  | .andReg sf shift rm imm6 rn rd => Sys2Proof.Machine.execAndReg sf shift rm imm6 rn rd s
  | .bicReg sf shift rm imm6 rn rd => Sys2Proof.Machine.execBicReg sf shift rm imm6 rn rd s
  | .orrReg sf shift rm imm6 rn rd => Sys2Proof.Machine.execOrrReg sf shift rm imm6 rn rd s
  | .ornReg sf shift rm imm6 rn rd => Sys2Proof.Machine.execOrnReg sf shift rm imm6 rn rd s
  | .eorReg sf shift rm imm6 rn rd => Sys2Proof.Machine.execEorReg sf shift rm imm6 rn rd s
  | .eonReg sf shift rm imm6 rn rd => Sys2Proof.Machine.execEonReg sf shift rm imm6 rn rd s
  | .andsReg sf shift rm imm6 rn rd => Sys2Proof.Machine.execAndsReg sf shift rm imm6 rn rd s
  | .bicsReg sf shift rm imm6 rn rd => Sys2Proof.Machine.execBicsReg sf shift rm imm6 rn rd s
  | .madd sf rm ra rn rd => Sys2Proof.Machine.execMadd sf rm ra rn rd s
  | .msub sf rm ra rn rd => Sys2Proof.Machine.execMsub sf rm ra rn rd s
  | .ldrUnsigned sf imm12 rn rt => Sys2Proof.Machine.execLdrUnsigned sf imm12 rn rt s
  | .strUnsigned sf imm12 rn rt => Sys2Proof.Machine.execStrUnsigned sf imm12 rn rt s
  | .ldrPre sf simm9 rn rt => Sys2Proof.Machine.execLdrPre sf simm9 rn rt s
  | .strPre sf simm9 rn rt => Sys2Proof.Machine.execStrPre sf simm9 rn rt s
  | .ldrPost sf simm9 rn rt => Sys2Proof.Machine.execLdrPost sf simm9 rn rt s
  | .strPost sf simm9 rn rt => Sys2Proof.Machine.execStrPost sf simm9 rn rt s
  | .ldrReg sf rm rn rt => Sys2Proof.Machine.execLdrReg sf rm rn rt s
  | .strReg sf rm rn rt => Sys2Proof.Machine.execStrReg sf rm rn rt s
  | .ldrLit sf simm19 rt => Sys2Proof.Machine.execLdrLit sf simm19 rt s
  | .b simm26 => Sys2Proof.Machine.execB simm26 s
  | .br rn => Sys2Proof.Machine.execBr rn s
  | .bCond simm19 cond => Sys2Proof.Machine.execBCond simm19 cond s
  | .halt => Sys2Proof.Machine.execHalt s

end Sys2Proof.Machine
end

