-- ==== Sys2Proof/Machine/Step.lean ====
section
/-!
DEFINITION. One step of the core (70_reset_and_hazards.md R282).
-/

namespace Sys2Proof.Machine

/-- A running step: fetch, halt check and decode, execute. A condition of the fetch or of the decoder
ends it with nothing but `status` written (60_exceptions.md R252). -/
def runStep (s : State) : Host.Outcome State Fault Refusal :=
  match fetchWord s with
  | .error c => .next (raise c s)
  | .ok w =>
    match decode s.cfg w with
    | .error _ => .next (raise (.unknownInstruction w s.pc) s)
    | .ok i => exec i s

/-- One step, "enabled only while `status = Running`" (70_reset_and_hazards.md R282). -/
def step (s : State) : Host.Outcome State Fault Refusal :=
  match s.status with
  | .running => runStep s
  | .halted => .fault .steppedWhileHalted
  | .faulted _ => .fault .steppedWhileFaulted

/-- `s` with the word `w` (its bits from `nbits` up 0) placed at `pc`, and running, so that the next
step runs it. It stands for the host's load of an image (log 4). -/
def State.withFetchWord (s : State) (nbits w : Nat) : State :=
  { s with
    mem := writeLE s.mem s.pc.toNat 4 (BitVec.ofNat 32 (w % 2 ^ nbits))
    status := .running }

end Sys2Proof.Machine
end

