-- ==== Sys2Proof/Machine/AsmSyntax.lean ====
section
/-!
DEFINITION. The toolchain view of the ISA (30_encoding.md section 7): the assembler's errors, its source
lines and tokens, and its instruction form (IR). The assembler is no part of the machine; it says which
words a source line stands for.
-/

namespace Sys2Proof.Machine

/-- "The error taxonomy of the whole toolchain" (30_encoding.md R116). The last three are never raised by
the assembler: two are the core's (60_exceptions.md R250) and `ioError` is file handling's. -/
inductive ToolError where
  /-- `SyntaxError`, "unrecognized mnemonic/operand shape" (90_conflicts.md C11). An unrecognized
  mnemonic, `UnknownMnemonic` of 30_encoding.md R110, lists "the offending token"; the others list none. -/
  | syntaxError (offending : Option (List Char))
  | duplicateLabel
  | undefinedLabel
  | rangeError
  | alignmentError
  | operandTypeError
  | outOfBoundsAccess
  | unknownInstruction
  | ioError
  deriving DecidableEq, Repr

/-- A register token: `x` selects 64-bit width, `w` 32-bit; `zr` is field value 31 (30_encoding.md R111). -/
structure RegToken where
  size : OpSize
  idx : RegIdx
  deriving DecidableEq, Repr

/-- A classified operand token (30_encoding.md R111). -/
inductive Atom where
  | reg (r : RegToken)
  | imm (v : Int)
  | name (text : List Char)
  | comma
  | lbracket
  | rbracket
  | bang
  deriving DecidableEq, Repr

/-- A source line (30_encoding.md R108): blank, a label definition, or one instruction or directive. -/
inductive SourceLine where
  | blank
  | label (name : List Char)
  | slot (text : List Char)
  deriving DecidableEq, Repr

/-- The target of a PC-relative operand: a label, or a byte address (30_encoding.md R112, D47). -/
inductive Target where
  | label (name : List Char)
  | address (v : Int)
  deriving DecidableEq, Repr

/-- A shift suffix `lsl|lsr|asr|ror #amount` (30_encoding.md R111). -/
structure ShiftSuffix where
  kind : ShiftKind
  amount : Int
  deriving DecidableEq, Repr

/-- The last operand of an arithmetic, logical or move-wide instruction (30_encoding.md R113, R114). -/
inductive FlexOperand where
  | imm (v : Int) (shift : Option ShiftSuffix)
  | reg (r : RegToken) (shift : Option ShiftSuffix)
  deriving DecidableEq, Repr

/-- The logical operations by `opc` (30_encoding.md R86). -/
inductive LogicOp where
  | and
  | orr
  | eor
  | ands
  deriving DecidableEq, Repr

/-- The move-wide operations (30_encoding.md R83). -/
inductive WideOp where
  | movn
  | movz
  | movk
  deriving DecidableEq, Repr

/-- A load/store operand (30_encoding.md R112). -/
inductive AddressMode where
  | unsignedOffset (base : RegToken) (offset : Int)
  | preIndexed (base : RegToken) (offset : Int)
  | postIndexed (base : RegToken) (offset : Int)
  | registerOffset (base index : RegToken)
  | literal (t : Target)
  deriving DecidableEq, Repr

/-- An instruction or directive after parsing, pseudo-instructions already lowered "to their general
Arithmetic/Logical representation" (30_encoding.md R113, R114). -/
inductive AsmIr where
  | arithmetic (negate setFlags : Bool) (rd rn : RegToken) (op : FlexOperand)
  | logical (op : LogicOp) (complement : Bool) (rd rn : RegToken) (operand : FlexOperand)
  | moveWide (op : WideOp) (rd : RegToken) (operand : FlexOperand)
  | multiply (negate : Bool) (rd rn rm ra : RegToken)
  | transfer (load : Bool) (rt : RegToken) (mode : AddressMode)
  | branch (t : Target)
  | branchRegister (r : RegToken)
  | branchCond (cond : Cond) (t : Target)
  | directive (v : Int)
  deriving DecidableEq, Repr

/-- What a mnemonic stands for (30_encoding.md R110, R113, R114). -/
inductive MnemonicForm where
  /-- `add adds sub subs`. -/
  | arithmetic (negate setFlags : Bool)
  /-- `cmn cmp`: ADDS and SUBS into the zero register. -/
  | compare (negate : Bool)
  /-- `neg negs`: SUB and SUBS from the zero register. -/
  | negated (setFlags : Bool)
  /-- `and bic orr orn eor eon ands bics`. -/
  | logical (op : LogicOp) (complement : Bool)
  | tst
  | mvn
  | mov
  | moveWide (op : WideOp)
  /-- `madd msub`. -/
  | multiplyAdd (negate : Bool)
  /-- `mul mneg`. -/
  | multiply (negate : Bool)
  | b
  | br
  | bCond (cond : Cond)
  /-- `ldr str`. -/
  | transfer (load : Bool)
  /-- `.int`. -/
  | int
  deriving DecidableEq, Repr

/-- The symbol table: "label to address" (30_encoding.md R109). -/
abbrev SymbolTable := List (List Char × Nat)

/-- One slot of the image: an instruction, or a raw data word (30_encoding.md R96). -/
inductive ImageItem where
  | instr (i : Instr)
  | data (w : Word)
  deriving DecidableEq, Repr

end Sys2Proof.Machine
end

