-- ==== Sys2Proof/Machine/AsmParse.lean ====
section
/-!
DEFINITION. Parsing of source lines (30_encoding.md R108, R110 to R114): line classification, tokens,
mnemonic dispatch, operand forms, and the lowering of pseudo-instructions. Where the spec leaves the
splitting of text or the choice of an error open, log 12, log 13, log 15 and log 19 say what stands here.
-/

namespace Sys2Proof.Machine

/-! ## Characters and lines -/

/-- White space within a line (log 12). -/
def isBlankChar (c : Char) : Bool := c == ' ' || c == '\t' || c == '\r'

/-- The text without its leading white space. -/
def dropBlanks : List Char → List Char
  | [] => []
  | c :: rest => if isBlankChar c then dropBlanks rest else c :: rest

/-- The text without leading and trailing white space. -/
def trimBlanks (text : List Char) : List Char := (dropBlanks (dropBlanks text).reverse).reverse

/-- A source text as its lines. -/
def splitLines : List Char → List (List Char)
  | [] => [[]]
  | c :: rest =>
    if c = '\n' then [] :: splitLines rest
    else
      match splitLines rest with
      | [] => [[c]]
      | line :: lines => (c :: line) :: lines

/-- The first character of an IDENT: "letter/underscore/dot" (30_encoding.md R108). -/
def isIdentStart (c : Char) : Bool := c.isAlpha || c == '_' || c == '.'

/-- A later character of an IDENT: "alphanumerics/`$`/underscore/dot" (30_encoding.md R108). -/
def isIdentRest (c : Char) : Bool := c.isAlphanum || c == '$' || c == '_' || c == '.'

/-- An IDENT (30_encoding.md R108). -/
def isIdent : List Char → Bool
  | [] => false
  | c :: rest => isIdentStart c && rest.all isIdentRest

/-- The label a line defines, if the line matches `^\s*IDENT:\s*$` (30_encoding.md R108). -/
def labelOf (line : List Char) : Option (List Char) :=
  match (trimBlanks line).reverse with
  | ':' :: rest => if isIdent rest.reverse then some rest.reverse else none
  | _ => none

/-- The kind of a source line (30_encoding.md R108; no comment syntax, D45). -/
def classifyLine (line : List Char) : SourceLine :=
  if trimBlanks line = [] then .blank
  else
    match labelOf line with
    | some name => .label name
    | none => .slot (trimBlanks line)

/-! ## Numbers and registers -/

/-- A decimal digit's value. -/
def decDigit (c : Char) : Option Nat :=
  if '0' ≤ c ∧ c ≤ '9' then some (c.toNat - 48) else none

/-- A hexadecimal digit's value, either case. -/
def hexDigitOf (c : Char) : Option Nat :=
  if '0' ≤ c ∧ c ≤ '9' then some (c.toNat - 48)
  else if 'a' ≤ c ∧ c ≤ 'f' then some (c.toNat - 87)
  else if 'A' ≤ c ∧ c ≤ 'F' then some (c.toNat - 55)
  else none

/-- The value of a run of digits, `acc` being the digits before it. -/
def digitsValue (digit : Char → Option Nat) (radix : Nat) (acc : Nat) : List Char → Option Nat
  | [] => some acc
  | c :: rest =>
    match digit c with
    | some d => digitsValue digit radix (acc * radix + d) rest
    | none => none

/-- An unsigned number: decimal, or `0x` hexadecimal (30_encoding.md R111, D31). -/
def parseNat : List Char → Option Nat
  | [] => none
  | '0' :: 'x' :: c :: rest => digitsValue hexDigitOf 16 0 (c :: rest)
  | c :: rest => digitsValue decDigit 10 0 (c :: rest)

/-- A number "with an optional leading `-`" (D31). -/
def parseNumber : List Char → Option Int
  | '-' :: rest => (parseNat rest).map fun n => -(n : Int)
  | text => (parseNat text).map fun n => (n : Int)

/-- What a register-like token is: no register token at all, a register, or an index out of range, which
is a syntax error (90_conflicts.md C15). -/
def parseRegister (size : OpSize) (rest : List Char) : Option (Except ToolError RegToken) :=
  if rest = ['z', 'r'] then some (.ok ⟨size, 31⟩)
  else
    match rest with
    | [] => none
    | c :: cs =>
      match digitsValue decDigit 10 0 (c :: cs) with
      | some n => if n ≤ 30 then some (.ok ⟨size, BitVec.ofNat 5 n⟩) else some (.error (.syntaxError none))
      | none => none

/-- The register a token names: "starts with `x`/`w` (case-insensitive)" (30_encoding.md R111). -/
def registerOf (text : List Char) : Option (Except ToolError RegToken) :=
  match text.map Char.toLower with
  | 'x' :: rest => parseRegister .w64 rest
  | 'w' :: rest => parseRegister .w32 rest
  | _ => none

/-! ## Tokens -/

/-- One word of operand text: an immediate "starts with `#`"; a register; "any other token is treated as
a label reference" (30_encoding.md R111). `sp` and `wsp` are a syntax error (10_state.md R26, D35). -/
def classifyWord (text : List Char) : Except ToolError Atom :=
  match text with
  | '#' :: rest =>
    match parseNumber rest with
    | some v => .ok (.imm v)
    | none => .error (.syntaxError none)
  | _ =>
    if text.map Char.toLower = ['s', 'p'] ∨ text.map Char.toLower = ['w', 's', 'p'] then .error (.syntaxError none)
    else
      match registerOf text with
      | some (.ok r) => .ok (.reg r)
      | some (.error e) => .error e
      | none => .ok (.name text)

/-- The word read so far, as an atom in front of the rest. -/
def flushWord (word : List Char) (rest : Except ToolError (List Atom)) : Except ToolError (List Atom) :=
  match word with
  | [] => rest
  | c :: cs =>
    match classifyWord (c :: cs), rest with
    | .ok a, .ok as => .ok (a :: as)
    | .error e, _ => .error e
    | .ok _, .error e => .error e

/-- An atom in front of the rest. -/
def consAtom (a : Atom) (rest : Except ToolError (List Atom)) : Except ToolError (List Atom) :=
  match rest with
  | .ok as => .ok (a :: as)
  | .error e => .error e

/-- The atoms of operand text; `word` holds the characters of the word being read (log 12). -/
def lexOperands (word : List Char) : List Char → Except ToolError (List Atom)
  | [] => flushWord word (.ok [])
  | c :: rest =>
    if isBlankChar c then flushWord word (lexOperands [] rest)
    else if c = ',' then flushWord word (consAtom .comma (lexOperands [] rest))
    else if c = '[' then flushWord word (consAtom .lbracket (lexOperands [] rest))
    else if c = ']' then flushWord word (consAtom .rbracket (lexOperands [] rest))
    else if c = '!' then flushWord word (consAtom .bang (lexOperands [] rest))
    else lexOperands (word ++ [c]) rest

/-- "the first whitespace-delimited token" and the text after it (30_encoding.md R110). -/
def firstToken : List Char → List Char × List Char
  | [] => ([], [])
  | c :: rest =>
    if isBlankChar c then ([], rest)
    else
      let r := firstToken rest
      (c :: r.1, r.2)

/-! ## Mnemonics -/

/-- The accepted first tokens, lower case only (30_encoding.md R110, D43). -/
def mnemonicForms : List (List Char × MnemonicForm) :=
  [ (['a', 'd', 'd'], .arithmetic false false), (['a', 'd', 'd', 's'], .arithmetic false true),
    (['s', 'u', 'b'], .arithmetic true false), (['s', 'u', 'b', 's'], .arithmetic true true),
    (['c', 'm', 'p'], .compare true), (['c', 'm', 'n'], .compare false),
    (['n', 'e', 'g'], .negated false), (['n', 'e', 'g', 's'], .negated true),
    (['a', 'n', 'd'], .logical .and false), (['a', 'n', 'd', 's'], .logical .ands false),
    (['b', 'i', 'c'], .logical .and true), (['b', 'i', 'c', 's'], .logical .ands true),
    (['e', 'o', 'r'], .logical .eor false), (['e', 'o', 'n'], .logical .eor true),
    (['o', 'r', 'r'], .logical .orr false), (['o', 'r', 'n'], .logical .orr true),
    (['t', 's', 't'], .tst), (['m', 'v', 'n'], .mvn), (['m', 'o', 'v'], .mov) ] ++
  [ (['m', 'o', 'v', 'n'], .moveWide .movn), (['m', 'o', 'v', 'z'], .moveWide .movz),
    (['m', 'o', 'v', 'k'], .moveWide .movk),
    (['m', 'a', 'd', 'd'], .multiplyAdd false), (['m', 's', 'u', 'b'], .multiplyAdd true),
    (['m', 'u', 'l'], .multiply false), (['m', 'n', 'e', 'g'], .multiply true),
    (['b', 'r'], .br), (['b'], .b),
    (['b', '.', 'e', 'q'], .bCond .eq), (['b', '.', 'n', 'e'], .bCond .ne),
    (['b', '.', 'g', 'e'], .bCond .ge), (['b', '.', 'l', 't'], .bCond .lt),
    (['b', '.', 'g', 't'], .bCond .gt), (['b', '.', 'l', 'e'], .bCond .le),
    (['b', '.', 'a', 'l'], .bCond .al),
    (['l', 'd', 'r'], .transfer true), (['s', 't', 'r'], .transfer false),
    (['.', 'i', 'n', 't'], .int) ]

/-- A shift kind by its name (30_encoding.md R111). -/
def shiftKindNamed (text : List Char) : Option ShiftKind :=
  if text = ['l', 's', 'l'] then some .lsl
  else if text = ['l', 's', 'r'] then some .lsr
  else if text = ['a', 's', 'r'] then some .asr
  else if text = ['r', 'o', 'r'] then some .ror
  else none

/-! ## Operand forms -/

/-- An optional shift suffix `, kind #amount` (30_encoding.md R111). -/
def parseSuffix : List Atom → Except ToolError (Option ShiftSuffix)
  | [] => .ok none
  | [.comma, .name kind, .imm amount] =>
    match shiftKindNamed kind with
    | some k => .ok (some ⟨k, amount⟩)
    | none => .error (.syntaxError none)
  | _ => .error (.syntaxError none)

/-- `#imm{, shift}` or `Rm{, shift}` (30_encoding.md R113). -/
def parseFlex : List Atom → Except ToolError FlexOperand
  | .imm v :: rest => (parseSuffix rest).map (.imm v)
  | .reg r :: rest => (parseSuffix rest).map (.reg r)
  | _ => .error (.syntaxError none)

/-- A PC-relative target: a label or `#imm`. A register is the wrong operand type, for `b.cond` by
44_branch.md R235, for `b` by the model's reading of 30_encoding.md R116 (log 13). -/
def parseTarget : List Atom → Except ToolError Target
  | [.name text] => .ok (.label text)
  | [.imm v] => .ok (.address v)
  | [.reg _] => .error .operandTypeError
  | _ => .error (.syntaxError none)

/-- The operand of a load or store (30_encoding.md R112); a bare register is the wrong operand type
(log 13). -/
def parseAddress : List Atom → Except ToolError AddressMode
  | [.lbracket, .reg n, .rbracket] => .ok (.unsignedOffset n 0)
  | [.lbracket, .reg n, .comma, .imm v, .rbracket] => .ok (.unsignedOffset n v)
  | [.lbracket, .reg n, .comma, .imm v, .rbracket, .bang] => .ok (.preIndexed n v)
  | [.lbracket, .reg n, .rbracket, .comma, .imm v] => .ok (.postIndexed n v)
  | [.lbracket, .reg n, .comma, .reg m, .rbracket] => .ok (.registerOffset n m)
  | [.name text] => .ok (.literal (.label text))
  | [.imm v] => .ok (.literal (.address v))
  | [.reg _] => .error .operandTypeError
  | _ => .error (.syntaxError none)

/-- The zero register of a width, "`xzr` or `wzr` of the instruction's width" (30_encoding.md R114). -/
def zeroOf (size : OpSize) : RegToken := ⟨size, 31⟩

/-- `Rd, Rn, <op>`. -/
def parseThree (build : RegToken → RegToken → FlexOperand → AsmIr) : List Atom → Except ToolError AsmIr
  | .reg d :: .comma :: .reg n :: .comma :: rest => (parseFlex rest).map (build d n)
  | _ => .error (.syntaxError none)

/-- `R, <op>`: one register and the last operand (30_encoding.md R113, R114). -/
def parseTwo (build : RegToken → FlexOperand → AsmIr) : List Atom → Except ToolError AsmIr
  | .reg r :: .comma :: rest => (parseFlex rest).map (build r)
  | _ => .error (.syntaxError none)

/-- `mov Rd, Rm`: a register only, no shift (30_encoding.md R114). -/
def parseMov : List Atom → Except ToolError AsmIr
  | [.reg d, .comma, .reg m] => .ok (.logical .orr false d (zeroOf d.size) (.reg m none))
  | [.reg _, .comma, .imm _] => .error .operandTypeError
  | _ => .error (.syntaxError none)

/-- `Rd, #imm16{, lsl #s}` (30_encoding.md R113). A register operand parses too, and the encoder refuses
it (R116). -/
def parseMoveWide (op : WideOp) (ops : List Atom) : Except ToolError AsmIr :=
  parseTwo (fun d operand => .moveWide op d operand) ops

/-- `Rd, Rn, Rm, Ra`. -/
def parseMultiplyAdd (negate : Bool) : List Atom → Except ToolError AsmIr
  | [.reg d, .comma, .reg n, .comma, .reg m, .comma, .reg a] => .ok (.multiply negate d n m a)
  | _ => .error (.syntaxError none)

/-- `Rd, Rn, Rm`, the accumulator being the zero register (30_encoding.md R114). -/
def parseMultiply (negate : Bool) : List Atom → Except ToolError AsmIr
  | [.reg d, .comma, .reg n, .comma, .reg m] => .ok (.multiply negate d n m (zeroOf d.size))
  | _ => .error (.syntaxError none)

/-- `Rt, <addr>`. -/
def parseTransfer (load : Bool) : List Atom → Except ToolError AsmIr
  | .reg t :: .comma :: rest => (parseAddress rest).map (.transfer load t)
  | _ => .error (.syntaxError none)

/-- `Xn` (a label or an immediate is the wrong operand type, log 13). -/
def parseRegisterBranch : List Atom → Except ToolError AsmIr
  | [.reg r] => .ok (.branchRegister r)
  | [.name _] => .error .operandTypeError
  | [.imm _] => .error .operandTypeError
  | _ => .error (.syntaxError none)

/-- `.int <value>`: the value has no `#` (30_encoding.md R113). -/
def parseInt : List Atom → Except ToolError AsmIr
  | [.name text] =>
    match parseNumber text with
    | some v => .ok (.directive v)
    | none => .error (.syntaxError none)
  | _ => .error (.syntaxError none)

/-- The instruction a mnemonic and its operands stand for, pseudo-instructions lowered
(30_encoding.md R113, R114). -/
def parseOperands (form : MnemonicForm) (ops : List Atom) : Except ToolError AsmIr :=
  match form with
  | .arithmetic negate setFlags => parseThree (fun d n op => .arithmetic negate setFlags d n op) ops
  | .compare negate => parseTwo (fun n op => .arithmetic negate true (zeroOf n.size) n op) ops
  | .negated setFlags => parseTwo (fun d op => .arithmetic true setFlags d (zeroOf d.size) op) ops
  | .logical op complement => parseThree (fun d n operand => .logical op complement d n operand) ops
  | .tst => parseTwo (fun n operand => .logical .ands false (zeroOf n.size) n operand) ops
  | .mvn => parseTwo (fun d operand => .logical .orr true d (zeroOf d.size) operand) ops
  | .mov => parseMov ops
  | .moveWide op => parseMoveWide op ops
  | .multiplyAdd negate => parseMultiplyAdd negate ops
  | .multiply negate => parseMultiply negate ops
  | .b => (parseTarget ops).map .branch
  | .br => parseRegisterBranch ops
  | .bCond cond => (parseTarget ops).map (.branchCond cond)
  | .transfer load => parseTransfer load ops
  | .int => parseInt ops

/-- One instruction or directive line (30_encoding.md R110): an unknown first token is a syntax error that
lists the token (90_conflicts.md C11). It is looked for before the operands are read (log 19). -/
def parseLine (text : List Char) : Except ToolError AsmIr :=
  let t := firstToken text
  match mnemonicForms.lookup t.1 with
  | none => .error (.syntaxError (some t.1))
  | some form =>
    match lexOperands [] t.2 with
    | .error e => .error e
    | .ok ops => parseOperands form ops

end Sys2Proof.Machine
end

