-- ==== Sys2Proof/Machine/Assembler.lean ====
section
/-!
DEFINITION. The assembler's encoder with its checks (30_encoding.md R111, R113, R115, R116) and the two
passes (30_encoding.md R109, R117).
-/

namespace Sys2Proof.Machine

/-! ## Checked fields -/

/-- Operands of another width than the destination's are refused (30_encoding.md R111, D48). -/
def requireSize (size : OpSize) (r : RegToken) : Except ToolError RegIdx :=
  if r.size = size then .ok r.idx else .error .operandTypeError

/-- An integer between `lo` and `hi` as a field of `k` bits; outside, `RangeError`
(30_encoding.md R116). -/
def rangedField (k : Nat) (lo hi v : Int) : Except ToolError (BitVec k) :=
  if lo ≤ v ∧ v ≤ hi then .ok (BitVec.ofInt k v) else .error .rangeError

/-- `lsl #0` and `lsl #12` are the shifts of an arithmetic immediate (30_encoding.md R113, D33). -/
def arithImmShift : Option ShiftSuffix → Except ToolError Bool
  | none => .ok false
  | some ⟨kind, amount⟩ =>
    if kind = .lsl ∧ amount = 0 then .ok false
    else if kind = .lsl ∧ amount = 12 then .ok true
    else .error .rangeError

/-- A register operand's shift: kind, and amount 0 to `w - 1` (30_encoding.md R116). -/
def regShift (size : OpSize) : Option ShiftSuffix → Except ToolError (ShiftKind × BitVec 6)
  | none => .ok (.lsl, 0)
  | some ⟨kind, amount⟩ =>
    match rangedField 6 0 (opBits size - 1) amount with
    | .ok imm6 => .ok (kind, imm6)
    | .error e => .error e

/-- Arithmetic takes `lsl`, `lsr`, `asr` only (30_encoding.md R113, D12; the error, log 13). The amount is
checked before the kind, the model's choice (log 19). -/
def arithRegShift (size : OpSize) (shift : Option ShiftSuffix) : Except ToolError (ShiftKind × BitVec 6) :=
  match regShift size shift with
  | .ok (kind, imm6) => if kind = .ror then .error .operandTypeError else .ok (kind, imm6)
  | .error e => .error e

/-- A move-wide position: `s` is a multiple of 16 below `w` (30_encoding.md R113, D30; a shift kind
other than `lsl`, log 13). -/
def widePosition (size : OpSize) : Option ShiftSuffix → Except ToolError (BitVec 2)
  | none => .ok 0
  | some ⟨kind, amount⟩ =>
    if kind ≠ .lsl then .error (.syntaxError none)
    else if 0 ≤ amount ∧ amount < opBits size ∧ amount % 16 = 0 then .ok (BitVec.ofInt 2 (amount / 16))
    else .error .rangeError

/-! ## Labels -/

/-- `resolve`: an undefined label is a fatal error (30_encoding.md R109). -/
def resolve (labels : SymbolTable) (name : List Char) : Except ToolError Nat :=
  match labels.lookup name with
  | some a => .ok a
  | none => .error .undefinedLabel

/-- `define`: a label defined twice is a fatal error (30_encoding.md R109). -/
def define (labels : SymbolTable) (name : List Char) (a : Nat) : Except ToolError SymbolTable :=
  match labels.lookup name with
  | some _ => .error .duplicateLabel
  | none => .ok ((name, a) :: labels)

/-- The byte address a target denotes (30_encoding.md R115, D47). -/
def targetAddress (labels : SymbolTable) : Target → Except ToolError Int
  | .label name => (resolve labels name).map fun a => (a : Int)
  | .address v => .ok v

/-- The word offset `(t - self)/4` in a field of `k` bits: `AlignmentError` if the byte offset is no
multiple of 4, `RangeError` beyond the field's reach (30_encoding.md R115, D34, log 14). -/
def relativeField (labels : SymbolTable) (self : Nat) (k : Nat) (t : Target) : Except ToolError (BitVec k) :=
  match targetAddress labels t with
  | .error e => .error e
  | .ok a =>
    let offset := a - self
    if offset % 4 ≠ 0 then .error .alignmentError
    else rangedField k (-(2 ^ (k - 1))) (2 ^ (k - 1) - 1) (offset / 4)

/-! ## The encoder of the assembler -/

/-- The arithmetic instruction of (negate, set_flags), immediate form (30_encoding.md R82). -/
def arithImmInstr (negate setFlags : Bool) (sf : OpSize) (sh : Bool) (imm12 : BitVec 12) (rn rd : RegIdx) : Instr :=
  match negate, setFlags with
  | false, false => .addImm sf sh imm12 rn rd
  | false, true => .addsImm sf sh imm12 rn rd
  | true, false => .subImm sf sh imm12 rn rd
  | true, true => .subsImm sf sh imm12 rn rd

/-- The arithmetic instruction of (negate, set_flags), register form (30_encoding.md R85). -/
def arithRegInstr (negate setFlags : Bool) (sf : OpSize) (shift : ShiftKind) (rm : RegIdx) (imm6 : BitVec 6)
    (rn rd : RegIdx) : Instr :=
  match negate, setFlags with
  | false, false => .addReg sf shift rm imm6 rn rd
  | false, true => .addsReg sf shift rm imm6 rn rd
  | true, false => .subReg sf shift rm imm6 rn rd
  | true, true => .subsReg sf shift rm imm6 rn rd

/-- The logical instruction of an operation and the complement bit (30_encoding.md R86). -/
def logicalInstr (op : LogicOp) (complement : Bool) (sf : OpSize) (shift : ShiftKind) (rm : RegIdx)
    (imm6 : BitVec 6) (rn rd : RegIdx) : Instr :=
  match op, complement with
  | .and, false => .andReg sf shift rm imm6 rn rd
  | .and, true => .bicReg sf shift rm imm6 rn rd
  | .orr, false => .orrReg sf shift rm imm6 rn rd
  | .orr, true => .ornReg sf shift rm imm6 rn rd
  | .eor, false => .eorReg sf shift rm imm6 rn rd
  | .eor, true => .eonReg sf shift rm imm6 rn rd
  | .ands, false => .andsReg sf shift rm imm6 rn rd
  | .ands, true => .bicsReg sf shift rm imm6 rn rd

/-- The move-wide instruction of an operation (30_encoding.md R83). -/
def moveWideInstr (op : WideOp) (sf : OpSize) (hw : BitVec 2) (imm16 : BitVec 16) (rd : RegIdx) : Instr :=
  match op with
  | .movn => .movn sf hw imm16 rd
  | .movz => .movz sf hw imm16 rd
  | .movk => .movk sf hw imm16 rd

/-- ADD, ADDS, SUB, SUBS from the IR (30_encoding.md R113). Where a line has several faults the spec gives
no order: widths are checked first, then the shift, then the immediate's range (log 19). -/
def encodeArithmetic (negate setFlags : Bool) (rd rn : RegToken) (op : FlexOperand) : Except ToolError Instr := do
  let n ← requireSize rd.size rn
  match op with
  | .imm v shift =>
    let sh ← arithImmShift shift
    let imm12 ← rangedField 12 0 4095 v
    return arithImmInstr negate setFlags rd.size sh imm12 n rd.idx
  | .reg rm shift =>
    let m ← requireSize rd.size rm
    let (kind, imm6) ← arithRegShift rd.size shift
    return arithRegInstr negate setFlags rd.size kind m imm6 n rd.idx

/-- The logical instructions from the IR; an immediate has no encoding (30_encoding.md R114, D42). Widths
are checked before the amount (log 19). -/
def encodeLogical (op : LogicOp) (complement : Bool) (rd rn : RegToken) (operand : FlexOperand) :
    Except ToolError Instr := do
  let n ← requireSize rd.size rn
  match operand with
  | .imm _ _ => throw .operandTypeError
  | .reg rm shift =>
    let m ← requireSize rd.size rm
    let (kind, imm6) ← regShift rd.size shift
    return logicalInstr op complement rd.size kind m imm6 n rd.idx

/-- MOVN, MOVZ, MOVK from the IR (30_encoding.md R113): "a register-form operand reaching the
immediate-only encoder" is refused (R116). The position is checked before the range (log 19). -/
def encodeMoveWide (op : WideOp) (rd : RegToken) (operand : FlexOperand) : Except ToolError Instr := do
  match operand with
  | .imm v shift =>
    let hw ← widePosition rd.size shift
    let imm16 ← rangedField 16 0 65535 v
    return moveWideInstr op rd.size hw imm16 rd.idx
  | .reg _ _ => throw .operandTypeError

/-- MADD, MSUB from the IR (30_encoding.md R113). -/
def encodeMultiplyIr (negate : Bool) (rd rn rm ra : RegToken) : Except ToolError Instr := do
  let n ← requireSize rd.size rn
  let m ← requireSize rd.size rm
  let a ← requireSize rd.size ra
  return if negate then .msub rd.size m a n rd.idx else .madd rd.size m a n rd.idx

/-- Loads and stores from the IR: "the base and index are always `x` registers" (30_encoding.md R111);
an unsigned offset is a multiple of the size in 0..4095*size, a writeback offset -256..255 (R116);
there is no literal store (D32). The base's width
is checked before the offset (log 19), and a `w` base or index gives `OperandTypeError` (log 13). -/
def encodeTransfer (labels : SymbolTable) (self : Nat) (load : Bool) (rt : RegToken) (mode : AddressMode) :
    Except ToolError Instr := do
  let sf := rt.size
  match mode with
  | .unsignedOffset base offset =>
    let rn ← requireSize .w64 base
    if offset % opBytes sf ≠ 0 then throw .rangeError
    let imm12 ← rangedField 12 0 4095 (offset / opBytes sf)
    return if load then .ldrUnsigned sf imm12 rn rt.idx else .strUnsigned sf imm12 rn rt.idx
  | .preIndexed base offset =>
    let rn ← requireSize .w64 base
    let simm9 ← rangedField 9 (-256) 255 offset
    return if load then .ldrPre sf simm9 rn rt.idx else .strPre sf simm9 rn rt.idx
  | .postIndexed base offset =>
    let rn ← requireSize .w64 base
    let simm9 ← rangedField 9 (-256) 255 offset
    return if load then .ldrPost sf simm9 rn rt.idx else .strPost sf simm9 rn rt.idx
  | .registerOffset base index =>
    let rn ← requireSize .w64 base
    let rm ← requireSize .w64 index
    return if load then .ldrReg sf rm rn rt.idx else .strReg sf rm rn rt.idx
  | .literal t =>
    if load then
      let simm19 ← relativeField labels self 19 t
      return .ldrLit sf simm19 rt.idx
    else throw .operandTypeError

/-- One slot of the image from the IR of an instruction at address `self` (30_encoding.md R96, R115,
R116). A 32-bit register as the operand of `br`, whose form is `br Xn` (R113), gives `OperandTypeError`, the
model's choice (log 13). -/
def assembleIr (labels : SymbolTable) (self : Nat) : AsmIr → Except ToolError ImageItem
  | .arithmetic negate setFlags rd rn op => (encodeArithmetic negate setFlags rd rn op).map .instr
  | .logical op complement rd rn operand => (encodeLogical op complement rd rn operand).map .instr
  | .moveWide op rd operand => (encodeMoveWide op rd operand).map .instr
  | .multiply negate rd rn rm ra => (encodeMultiplyIr negate rd rn rm ra).map .instr
  | .transfer load rt mode => (encodeTransfer labels self load rt mode).map .instr
  | .branch t => (relativeField labels self 26 t).map fun simm26 => .instr (.b simm26)
  | .branchRegister r => (requireSize .w64 r).map fun rn => .instr (.br rn)
  | .branchCond cond t => (relativeField labels self 19 t).map fun simm19 => .instr (.bCond simm19 cond)
  | .directive v => (rangedField 32 (-(2 ^ 31)) (2 ^ 32 - 1) v).map .data

/-- The word of a slot. The assembler never writes the sentinel as an instruction, so the parameters play
no part. -/
def itemWord : ImageItem → Word
  | .instr i => encode Config.standard i
  | .data w => w

/-! ## The two passes -/

/-- Pass 1: a label line binds the counter; an instruction or directive line advances it by 4
(30_encoding.md R109). -/
def passOne (counter : Nat) (labels : SymbolTable) : List SourceLine → Except ToolError (SymbolTable × Nat)
  | [] => .ok (labels, counter)
  | .blank :: rest => passOne counter labels rest
  | .label name :: rest =>
    match define labels name counter with
    | .ok labels' => passOne counter labels' rest
    | .error e => .error e
  | .slot _ :: rest => passOne (counter + 4) labels rest

/-- The word of one instruction or directive line at address `self`. -/
def assembleLine (labels : SymbolTable) (self : Nat) (text : List Char) : Except ToolError Word := do
  let ir ← parseLine text
  let item ← assembleIr labels self ir
  return itemWord item

/-- Pass 2: parse and encode each instruction line in order (30_encoding.md R109). -/
def passTwo (labels : SymbolTable) (counter : Nat) : List SourceLine → Except ToolError (List Word)
  | [] => .ok []
  | .blank :: rest => passTwo labels counter rest
  | .label _ :: rest => passTwo labels counter rest
  | .slot text :: rest =>
    match assembleLine labels counter text with
    | .error e => .error e
    | .ok w => (passTwo labels (counter + 4) rest).map (w :: ·)

/-- Both passes; the instruction counts "must match ... exactly" (30_encoding.md R109, R116). -/
def assembleLines (lines : List SourceLine) : Except ToolError (List Word) :=
  match passOne 0 [] lines with
  | .error e => .error e
  | .ok (labels, final) =>
    match passTwo labels 0 lines with
    | .error e => .error e
    | .ok words => if words.length = final / 4 then .ok words else .error (.syntaxError none)

/-- A source text to its words: it "either fully succeeds and produces one correct binary, or fails and
produces none" (30_encoding.md R116). -/
def assemble (text : List Char) : Except ToolError (List Word) :=
  assembleLines ((splitLines text).map classifyLine)

/-- The binary: each word "serialized little-endian", nothing else (30_encoding.md R117). -/
def imageOf (words : List Word) : List Byte := words.flatMap bytesOfWord

end Sys2Proof.Machine
end

