-- ==== Sys2Proof/Machine/Launch.lean ====
section
/-!
DEFINITION. The host's side of a run (60_exceptions.md R261): loading the image (20_memory.md R61),
reset (70_reset_and_hazards.md R280), running while `status = Running`, and the final-state dump
(10_state.md R42).
-/

namespace Sys2Proof.Machine

/-! ## Load and reset -/

/-- The memory in which the bytes stand from address `a` on and every other byte is 0
(20_memory.md R61). -/
def imageCells (a : Nat) : List Byte → Memory
  | [] => []
  | b :: rest => cellFor a b ++ imageCells (a + 1) rest

/-- A launch: load the image, then reset. An image longer than `MEM_SIZE` is refused: "no state exists
and nothing runs" (20_memory.md R61, 70_reset_and_hazards.md R280). -/
def launch (cfg : Config) (image : List Byte) : Option State :=
  if image.length ≤ cfg.memSize then some (State.resetWith cfg (imageCells loadBase image)) else none

/-! ## Run -/

/-- The run, "repeats steps while `status = Running`", bounded by `fuel`, which is no state of the core
(60_exceptions.md R261, 70_reset_and_hazards.md R283, D46). -/
def runFor : Nat → State → State
  | 0, s => s
  | fuel + 1, s =>
    match step s with
    | .next t => runFor fuel t
    | .fault _ => s
    | .refused _ => s

/-! ## The end of a run -/

/-- What the final-state dump observes (10_state.md R42, D36): the registers, `pc`, the flags, and every
non-zero aligned word with its address. -/
structure FinalDump where
  registers : List DWord
  pc : DWord
  flags : Flags
  words : List (Nat × Word)
  deriving DecidableEq, Repr

/-- The multiples of 4 at or below the listed addresses, each once, in ascending order. -/
def wordAddresses (m : Memory) : List Nat :=
  match m with
  | [] => []
  | (k, _) :: rest =>
    let later := wordAddresses rest
    if later.head? = some (k - k % 4) then later else (k - k % 4) :: later

/-- "one line per non-zero 32-bit-aligned word ... in ascending address order, omitting all-zero words",
the word at `a` being `MemRead(a, 4)` (10_state.md R42; a partial word at the top, log 8). -/
def nonZeroWords (size : Nat) (m : Memory) : List (Nat × Word) :=
  ((wordAddresses m).filter fun a => decide (a + 4 ≤ size) && decide (readLE m a 4 ≠ 0)).map
    fun a => (a, readLE m a 4)

/-- The values of the dump (10_state.md R42). -/
def dumpOf (s : State) : FinalDump :=
  { registers := s.x.toList
    pc := s.pc
    flags := s.flags
    words := nonZeroWords s.cfg.memSize s.mem }

/-- The dump, produced only when `status = Halted`; "A fatal condition produces no dump"
(10_state.md R42). -/
def finalDump (s : State) : Option FinalDump :=
  match s.status with
  | .running => none
  | .halted => some (dumpOf s)
  | .faulted _ => none

/-- Whether the host exits with status zero: on a halt; nonzero on every fault; nothing while running
(60_exceptions.md R261). -/
def exitsZero (s : State) : Option Bool :=
  match s.status with
  | .running => none
  | .halted => some true
  | .faulted _ => some false

/-! ## The dump as text (10_state.md R42; index width, log 8) -/

/-- One hexadecimal digit, upper case as in program P1 of 95_test_vectors.md. -/
def hexDigit (d : Nat) : Char :=
  if d < 10 then Char.ofNat (48 + d) else Char.ofNat (55 + d)

/-- `digits` hexadecimal digits of `v`, zero-padded, most significant first. -/
def hexText : (digits : Nat) → (v : Nat) → List Char
  | 0, _ => []
  | k + 1, v => hexText k (v / 16) ++ [hexDigit (v % 16)]

/-- The line of register `i`: `X<index> = <16-hex-digit zero-padded value>`. -/
def registerLine (i : Nat) (v : DWord) : String :=
  "X" ++ toString i ++ " = " ++ String.ofList (hexText 16 v.toNat)

/-- "four characters in order N,Z,C,V, each either the flag letter (set) or `-` (clear)". -/
def pstateText (f : Flags) : String :=
  String.ofList [if f.n then 'N' else '-', if f.z then 'Z' else '-', if f.c then 'C' else '-',
    if f.v then 'V' else '-']

/-- The line of a memory word: `0x<8-hex-digit address>: <8-hex-digit value>`. -/
def wordLine (entry : Nat × Word) : String :=
  "0x" ++ String.ofList (hexText 8 entry.1) ++ ": " ++ String.ofList (hexText 8 entry.2.toNat)

/-- The lines of the final-state dump (10_state.md R42). -/
def dumpLines (d : FinalDump) : List String :=
  ["Registers:"] ++ d.registers.mapIdx registerLine ++
    ["PC = " ++ String.ofList (hexText 16 d.pc.toNat), "PSTATE : " ++ pstateText d.flags, "Non-Zero Memory:"] ++
    d.words.map wordLine

end Sys2Proof.Machine
end

