-- ==== Sys2Proof/Machine/Ports.lean ====
section
/-!
DEFINITION. The untimed block interface of 10_state.md R41, as functions of the state at the start of a
step.
-/

namespace Sys2Proof.Machine

/-- The data port (10_state.md R41): `wdata` and `rdata` use their low `size` bytes; what the bytes above
hold is the model's choice (log 9). -/
structure DataPort where
  addr : DWord
  size : Nat
  we : Bool
  wdata : DWord
  rdata : DWord
  deriving DecidableEq, Repr

/-- The effective address and the transfer size of the data access an instruction makes
(43_load_store.md R202 to R206); only the nine loads and stores make one. -/
def dataAccess (i : Instr) (s : State) : Option (DWord × Nat) :=
  match i with
  | .ldrUnsigned sf imm12 rn _ => some (eaUnsigned sf imm12 rn s, opBytes sf)
  | .strUnsigned sf imm12 rn _ => some (eaUnsigned sf imm12 rn s, opBytes sf)
  | .ldrPre sf simm9 rn _ => some (eaIndexed simm9 rn s, opBytes sf)
  | .strPre sf simm9 rn _ => some (eaIndexed simm9 rn s, opBytes sf)
  | .ldrPost sf _ rn _ => some (eaBase rn s, opBytes sf)
  | .strPost sf _ rn _ => some (eaBase rn s, opBytes sf)
  | .ldrReg sf rm rn _ => some (eaRegister rm rn s, opBytes sf)
  | .strReg sf rm rn _ => some (eaRegister rm rn s, opBytes sf)
  | .ldrLit sf simm19 _ => some (pcRelative simm19 s, opBytes sf)
  | .addImm _ _ _ _ _ => none
  | .addsImm _ _ _ _ _ => none
  | .subImm _ _ _ _ _ => none
  | .subsImm _ _ _ _ _ => none
  | .movn _ _ _ _ => none
  | .movz _ _ _ _ => none
  | .movk _ _ _ _ => none
  | .addReg _ _ _ _ _ _ => none
  | .addsReg _ _ _ _ _ _ => none
  | .subReg _ _ _ _ _ _ => none
  | .subsReg _ _ _ _ _ _ => none
  | .andReg _ _ _ _ _ _ => none
  | .bicReg _ _ _ _ _ _ => none
  | .orrReg _ _ _ _ _ _ => none
  | .ornReg _ _ _ _ _ _ => none
  | .eorReg _ _ _ _ _ _ => none
  | .eonReg _ _ _ _ _ _ => none
  | .andsReg _ _ _ _ _ _ => none
  | .bicsReg _ _ _ _ _ _ => none
  | .madd _ _ _ _ _ => none
  | .msub _ _ _ _ _ => none
  | .b _ => none
  | .br _ => none
  | .bCond _ _ => none
  | .halt => none

/-- The register a store takes its data from; `none` for every instruction that stores nothing
(43_load_store.md R200). -/
def storedRegister (i : Instr) : Option RegIdx :=
  match i with
  | .strUnsigned _ _ _ rt => some rt
  | .strPre _ _ _ rt => some rt
  | .strPost _ _ _ rt => some rt
  | .strReg _ _ _ rt => some rt
  | .ldrUnsigned _ _ _ _ => none
  | .ldrPre _ _ _ _ => none
  | .ldrPost _ _ _ _ => none
  | .ldrReg _ _ _ _ => none
  | .ldrLit _ _ _ => none
  | .addImm _ _ _ _ _ => none
  | .addsImm _ _ _ _ _ => none
  | .subImm _ _ _ _ _ => none
  | .subsImm _ _ _ _ _ => none
  | .movn _ _ _ _ => none
  | .movz _ _ _ _ => none
  | .movk _ _ _ _ => none
  | .addReg _ _ _ _ _ _ => none
  | .addsReg _ _ _ _ _ _ => none
  | .subReg _ _ _ _ _ _ => none
  | .subsReg _ _ _ _ _ _ => none
  | .andReg _ _ _ _ _ _ => none
  | .bicReg _ _ _ _ _ _ => none
  | .orrReg _ _ _ _ _ _ => none
  | .ornReg _ _ _ _ _ _ => none
  | .eorReg _ _ _ _ _ _ => none
  | .eonReg _ _ _ _ _ _ => none
  | .andsReg _ _ _ _ _ _ => none
  | .bicsReg _ _ _ _ _ _ => none
  | .madd _ _ _ _ _ => none
  | .msub _ _ _ _ _ => none
  | .b _ => none
  | .br _ => none
  | .bCond _ _ => none
  | .halt => none

/-- The data port while instruction `i` executes: a load or a store drives it; an access that raises a
condition is not performed (20_memory.md R51). A load's `wdata` and a store's `rdata` are 0,
and so are the upper four bytes of `wdata` and `rdata` in a 4-byte access (log 9). -/
def dataPort (i : Instr) (s : State) : Option DataPort :=
  match dataAccess i s with
  | none => none
  | some (ea, n) =>
    match dataFault ea n s with
    | some _ => none
    | none =>
      match storedRegister i with
      | some rt =>
        some { addr := ea, size := n, we := true, wdata := (readXw (8 * n) rt s).setWidth 64, rdata := 0 }
      | none =>
        some { addr := ea, size := n, we := false, wdata := 0, rdata := (readLE s.mem ea.toNat n).setWidth 64 }

/-- The word a step fetches: none when the fetch raises a condition, and none when `status` is not
Running, since no step is enabled then (10_state.md R35). -/
def fetchedWord (s : State) : Option Word :=
  match s.status with
  | .running => (fetchWord s).toOption
  | .halted => none
  | .faulted _ => none

/-- The instruction a running step executes, if its fetch and decode raise nothing. -/
def fetchedInstr (s : State) : Option Instr := (fetchedWord s).bind fun w => (decode s.cfg w).toOption

/-- The outputs of the block during one step (10_state.md R41). -/
structure BlockOutputs where
  ifetchAddr : DWord
  /-- The word the memory answers, absent when there is no fetch (log 9). -/
  ifetchData : Option Word
  dmem : Option DataPort
  status : RunStatus
  state : State
  deriving DecidableEq, Repr

/-- The block's ports at the start of a step from `s` (10_state.md R41). While `status` is Halted or
Faulted no step exists and R41 states nothing of the ports: `ifetchAddr` is `pc` all the same, and
`ifetchData` and `dmem` are absent, the model's choice (log 9). -/
def blockOutputs (s : State) : BlockOutputs :=
  { ifetchAddr := s.pc
    ifetchData := fetchedWord s
    dmem := (fetchedInstr s).bind fun i => dataPort i s
    status := s.status
    state := s }

/-- The `reset` input: it "applies rules R36 to R40 after the host has placed the image", so it keeps
the memory (10_state.md R41, 70_reset_and_hazards.md R280). -/
def resetInput (s : State) : State := State.resetWith s.cfg s.mem

/-- The `step` input: one step while `status = Running`; otherwise the core is stuck and "the state
stays as it is" (10_state.md R41; 93_implementation_defined.md I15). -/
def stepInput (s : State) : State :=
  match step s with
  | .next t => t
  | .fault _ => s
  | .refused _ => s

end Sys2Proof.Machine
end

