-- ==== Sys2Proof/Safety.lean ====
section
/-!
DEFINITION. The terms the claims use: what a well-kept state is, which registers and flags an
instruction may write (10_state.md R25, R31), and what "everything else unchanged" means.
-/

namespace Sys2Proof.Machine

/-! ## The invariant -/

/-- The memory is in its canonical form and lists only bytes that exist (20_memory.md R50). -/
def State.Inv (s : State) : Prop := Memory.wf s.mem = true ∧ Memory.within s.cfg.memSize s.mem = true

/-! ## What an instruction may touch -/

/-- "The flag-setting instructions are exactly ADDS (immediate), SUBS (immediate), ADDS (shifted
register), SUBS (shifted register), ANDS and BICS" (10_state.md R31). -/
def setsFlags : Instr → Bool
  | .addsImm .. => true
  | .subsImm .. => true
  | .addsReg .. => true
  | .subsReg .. => true
  | .andsReg .. => true
  | .bicsReg .. => true
  | _ => false

/-- The registers an instruction writes (10_state.md R25, column "writes"). -/
def destinations : Instr → List RegIdx
  | .addImm _ _ _ _ rd | .addsImm _ _ _ _ rd | .subImm _ _ _ _ rd | .subsImm _ _ _ _ rd => [rd]
  | .movn _ _ _ rd | .movz _ _ _ rd | .movk _ _ _ rd => [rd]
  | .addReg _ _ _ _ _ rd | .addsReg _ _ _ _ _ rd | .subReg _ _ _ _ _ rd | .subsReg _ _ _ _ _ rd => [rd]
  | .andReg _ _ _ _ _ rd | .bicReg _ _ _ _ _ rd | .orrReg _ _ _ _ _ rd | .ornReg _ _ _ _ _ rd => [rd]
  | .eorReg _ _ _ _ _ rd | .eonReg _ _ _ _ _ rd | .andsReg _ _ _ _ _ rd | .bicsReg _ _ _ _ _ rd => [rd]
  | .madd _ _ _ _ rd | .msub _ _ _ _ rd => [rd]
  | .ldrUnsigned _ _ _ rt | .ldrReg _ _ _ rt | .ldrLit _ _ rt => [rt]
  | .ldrPre _ _ rn rt | .ldrPost _ _ rn rt => [rt, rn]
  | .strPre _ _ rn _ | .strPost _ _ rn _ => [rn]
  | .strUnsigned .. | .strReg .. | .b _ | .br _ | .bCond .. | .halt => []

/-- The registers an instruction reads (10_state.md R25, column "reads"). -/
def sources : Instr → List RegIdx
  | .addImm _ _ _ rn _ | .addsImm _ _ _ rn _ | .subImm _ _ _ rn _ | .subsImm _ _ _ rn _ => [rn]
  | .movn .. | .movz .. => []
  | .movk _ _ _ rd => [rd]
  | .addReg _ _ rm _ rn _ | .addsReg _ _ rm _ rn _ | .subReg _ _ rm _ rn _ | .subsReg _ _ rm _ rn _ => [rn, rm]
  | .andReg _ _ rm _ rn _ | .bicReg _ _ rm _ rn _ | .orrReg _ _ rm _ rn _ | .ornReg _ _ rm _ rn _ => [rn, rm]
  | .eorReg _ _ rm _ rn _ | .eonReg _ _ rm _ rn _ | .andsReg _ _ rm _ rn _ | .bicsReg _ _ rm _ rn _ => [rn, rm]
  | .madd _ rm ra rn _ | .msub _ rm ra rn _ => [rn, rm, ra]
  | .ldrUnsigned _ _ rn _ | .ldrPre _ _ rn _ | .ldrPost _ _ rn _ => [rn]
  | .strUnsigned _ _ rn rt | .strPre _ _ rn rt | .strPost _ _ rn rt => [rn, rt]
  | .ldrReg _ rm rn _ => [rn, rm]
  | .strReg _ rm rn rt => [rn, rm, rt]
  | .br rn => [rn]
  | .ldrLit .. | .b _ | .bCond .. | .halt => []

/-! ## Frames -/

/-- Every byte of memory reads as before. -/
def SameMemory (s t : State) : Prop := ∀ a, readByte t.mem a = readByte s.mem a

/-- The `n` bytes from `ea` are those of `v`, least significant first, and every other byte reads as
before. -/
def StoredAt {w : Nat} (s t : State) (ea : DWord) (n : Nat) (v : BitVec w) : Prop :=
  ∀ a, readByte t.mem a =
    if ea.toNat ≤ a ∧ a < ea.toNat + n then v.extractLsb' (8 * (a - ea.toNat)) 8 else readByte s.mem a

/-- `v` is the value of the `n` bytes from `ea`, the lowest address least significant
(20_memory.md R52). -/
def LoadedFrom {w : Nat} (s : State) (ea : DWord) (n : Nat) (v : BitVec w) : Prop :=
  ∀ k, k < n → v.extractLsb' (8 * k) 8 = readByte s.mem (ea.toNat + k)

/-- Every general register reads as before. -/
def SameRegisters (s t : State) : Prop := ∀ r, readX r t = readX r s

/-- Register `rd` reads as the zero-extension of `v` (if it is not the zero register), every other one as
before (10_state.md R24). -/
def OneRegister (s t : State) (rd : RegIdx) {w : Nat} (v : BitVec w) : Prop :=
  ∀ r, readX r t = if r = rd ∧ r ≠ 31 then v.setWidth 64 else readX r s

/-- Flags, run status and parameters are as before. -/
def SameControl (s t : State) : Prop := t.flags = s.flags ∧ t.status = s.status ∧ t.cfg = s.cfg

/-- Run status and parameters are as before, the flags are `f`. -/
def FlagsBecome (s t : State) (f : Flags) : Prop := t.flags = f ∧ t.status = s.status ∧ t.cfg = s.cfg

/-- `pc <- pc + 4`, modulo `2^64` (10_state.md R28, R30). -/
def NextPc (s t : State) : Prop := t.pc.toNat = (s.pc.toNat + 4) % 2 ^ 64

/-- The result of a data-processing instruction that sets no flag: `Rd` gets `v`, `pc` advances, nothing
else changes. -/
def DpResult (s t : State) (rd : RegIdx) {w : Nat} (v : BitVec w) : Prop :=
  OneRegister s t rd v ∧ SameControl s t ∧ NextPc s t ∧ SameMemory s t

/-- The result of a data-processing instruction that sets the flags to `f`. -/
def DpFlagResult (s t : State) (rd : RegIdx) {w : Nat} (v : BitVec w) (f : Flags) : Prop :=
  OneRegister s t rd v ∧ FlagsBecome s t f ∧ NextPc s t ∧ SameMemory s t

/-- `v` is a sum's result and `f` its flags: C is the carry out, V says that the signed sum does not fit
(40_alu.md R131). -/
def SumFlags {w : Nat} (a b v : BitVec w) (f : Flags) : Prop :=
  f.n = v.msb ∧ (f.z = true ↔ v = 0) ∧ (f.c = true ↔ 2 ^ w ≤ a.toNat + b.toNat) ∧
    (f.v = true ↔ a.toInt + b.toInt ≠ v.toInt)

/-- `v` is a difference's result and `f` its flags: C means no borrow, V says that the signed difference
does not fit (40_alu.md R132). -/
def DifferenceFlags {w : Nat} (a b v : BitVec w) (f : Flags) : Prop :=
  f.n = v.msb ∧ (f.z = true ↔ v = 0) ∧ (f.c = true ↔ b.toNat ≤ a.toNat) ∧
    (f.v = true ↔ a.toInt - b.toInt ≠ v.toInt)

/-- The table of 40_alu.md R137: when each condition holds. -/
def CondMeans (f : Flags) : Cond → Prop
  | .eq => f.z = true
  | .ne => f.z = false
  | .ge => f.n = f.v
  | .lt => f.n ≠ f.v
  | .gt => f.n = f.v ∧ f.z = false
  | .le => f.n ≠ f.v ∨ f.z = true
  | .al => True

/-- `pc` moved by a signed number of words, modulo `2^64` (44_branch.md R230). -/
def PcMovedBy (s t : State) (words : Int) : Prop := (t.pc.toNat : Int) = (s.pc.toNat + 4 * words) % 2 ^ 64

/-- The access of `n` bytes at `ea` raises nothing: it is in bounds, and aligned if
`MISALIGNED_DATA = fault` (20_memory.md R51, R57). -/
def AccessAllowed (s : State) (ea : DWord) (n : Nat) : Prop :=
  ea.toNat + n ≤ s.cfg.memSize ∧ (s.cfg.misalignedData = .allow ∨ ea.toNat % n = 0)

/-- The state in which only the run status changed, to `Faulted` (60_exceptions.md R252). -/
def OnlyFaulted (s t : State) (c : FatalCondition) : Prop :=
  t.x = s.x ∧ t.pc = s.pc ∧ t.flags = s.flags ∧ t.mem = s.mem ∧ t.cfg = s.cfg ∧ t.status = .faulted c

/-- A running state whose fetch raises nothing and gives the word `w`. -/
def Fetches (s : State) (w : Word) : Prop :=
  s.status = .running ∧ s.pc.toNat % 4 = 0 ∧ s.pc.toNat + 4 ≤ s.cfg.memSize ∧ readLE s.mem s.pc.toNat 4 = w

/-- A running state whose step executes `i`. -/
def Executes (s : State) (i : Instr) : Prop := ∃ w, Fetches s w ∧ decode s.cfg w = .ok i

end Sys2Proof.Machine
end

