-- ==== Sys2Proof/Certificates/Slice0/Obligations.lean ====
section
/-!
DEFINITION. The statements for the provers. A statement that rests on a choice of the model, or on what
the spec marks as its own decision (D<n>, 92_eei_decisions.md), as derived, or as general knowledge (GK),
says so in its docstring.
-/

open Sys2Proof Sys2Proof.Machine

/-! ## Launch, reset, invariant -/

/-- A launch whose image fits leaves every register 0 (10_state.md R36), `pc = 0` (R37), the flags
`RESET_NZCV`, by default all clear (R38), the image in memory and zero elsewhere (R39), status Running (R40). The
register, `pc` and flag values are the spec's decisions D3, D4, D5. -/
def Obligations.LaunchGivesResetState : Prop :=
  ∀ (cfg : Config) (image : List Byte), image.length ≤ cfg.memSize →
    ∃ s, launch cfg image = some s ∧ (∀ r, readX r s = 0) ∧ s.pc = 0 ∧
      s.flags = ⟨cfg.resetNzcv.getLsbD 3, cfg.resetNzcv.getLsbD 2, cfg.resetNzcv.getLsbD 1, cfg.resetNzcv.getLsbD 0⟩ ∧
      (∀ a, readByte s.mem a = image.getD a 0) ∧ s.status = .running ∧ s.cfg = cfg ∧
      (cfg = Config.standard → s.flags = ⟨false, false, false, false⟩)

/-- The loader (20_memory.md R61): word `i` of the binary occupies bytes `[4i, 4i+4)` little-endian,
bytes beyond the image are 0, trailing bytes are loaded as they are, and an image longer than `MEM_SIZE`
gives no state at all (the last two are its decision D7). -/
def Obligations.ImageIsLoadedOrRefused : Prop :=
  ∀ (cfg : Config) (words : List Word) (trailing : List Byte),
    (4 * words.length + trailing.length ≤ cfg.memSize →
      ∃ s, launch cfg (imageOf words ++ trailing) = some s ∧
        (∀ i w, words[i]? = some w → readLE s.mem (4 * i) 4 = w) ∧
        (∀ k b, trailing[k]? = some b → readByte s.mem (4 * words.length + k) = b) ∧
        (∀ a, 4 * words.length + trailing.length ≤ a → readByte s.mem a = 0)) ∧
    (cfg.memSize < 4 * words.length + trailing.length → launch cfg (imageOf words ++ trailing) = none)

/-- The reset state meets the invariant: canonical memory, only existing bytes listed. -/
def Obligations.ResetMeetsInvariant : Prop := State.reset.Inv

/-- Every launched state meets the invariant. -/
def Obligations.LaunchMeetsInvariant : Prop :=
  ∀ (cfg : Config) (image : List Byte) (s : State), launch cfg image = some s → s.Inv

/-- From every state that meets the invariant, a step gives one that meets it. -/
def Obligations.StepKeepsInvariant : Prop :=
  ∀ s t : State, s.Inv → step s = .next t → t.Inv

/-- No step changes a parameter: `cfg` is the model's own field (log 2), fixed for a machine. -/
def Obligations.StepKeepsParameters : Prop :=
  ∀ s t : State, step s = .next t → t.cfg = s.cfg

/-! ## Registers and memory -/

/-- Register access (10_state.md R22, R23, R24): index 31 reads 0 at every width and discards writes; a
read of width `w` gives the low `w` bits; a write of width 32 or 64 replaces the whole slot by the
zero-extended value, and touches no other register, flag, byte, `pc` or status. Index 31 alone
as zero register and the cleared upper half are the spec's decisions D1, D2. -/
def Obligations.RegisterReadAndWrite : Prop :=
  ∀ (sf : OpSize) (i : RegIdx) (v : BitVec (opBits sf)) (s : State),
    readXw (opBits sf) 31 s = 0 ∧ (∀ v' : BitVec (opBits sf), writeXw (opBits sf) 31 v' s = s) ∧
    (∀ h : i.toNat < 31, (readX i s).toNat = (s.x[i.toNat]).toNat ∧
      (readXw (opBits sf) i s).toNat = (s.x[i.toNat]).toNat % 2 ^ opBits sf) ∧
    (i ≠ 31 → (readX i (writeXw (opBits sf) i v s)).toNat = v.toNat) ∧
    (∀ u : DWord, writeX i u s = writeXw (opBits .w64) i u s) ∧
    (∀ j, j ≠ i → readX j (writeXw (opBits sf) i v s) = readX j s) ∧
    SameControl s (writeXw (opBits sf) i v s) ∧ (writeXw (opBits sf) i v s).pc = s.pc ∧
    SameMemory s (writeXw (opBits sf) i v s)

/-- `MemRead` and `MemWrite` (20_memory.md R52, R53): out of bounds they raise `OutOfBoundsAccess`; in
bounds a read gives the bytes, lowest address least significant, and a write stores them and changes no
other byte, which is what a load or a store does where the alignment check of R57 does not stop it. -/
def Obligations.MemReadAndWriteAreLittleEndian : Prop :=
  ∀ (ea : DWord) (n w : Nat) (v : BitVec w) (s : State), n = 4 ∨ n = 8 → 8 * n ≤ w → s.Inv →
    (ea.toNat + n ≤ s.cfg.memSize →
      LoadedFrom s ea n (readLE s.mem ea.toNat n) ∧ StoredAt s (putBytes ea n v s) ea n v) ∧
    (s.cfg.memSize < ea.toNat + n →
      loadData ea n s = .error (.outOfBoundsAccess ea n s.pc) ∧
      storeData ea n v s = .error (.outOfBoundsAccess ea n s.pc)) ∧
    (AccessAllowed s ea n →
      (∃ r, loadData ea n s = .ok r ∧ LoadedFrom s ea n r) ∧
      (∃ t, storeData ea n v s = .ok t ∧ StoredAt s t ea n v ∧ SameRegisters s t ∧ SameControl s t ∧ t.pc = s.pc))

/-- "a 4-byte load from address `a` after an 8-byte store of `v` to `a` returns `v[31:0]`, and from
`a + 4` returns `v[63:32]`" (20_memory.md R56); and two 4-byte stores are seen by an 8-byte load.
The spec derives this from its rules R52 and R53. -/
def Obligations.MixedWidthAccessesSeeTheirBytes : Prop :=
  ∀ (m : Memory) (a : Nat) (v : BitVec 64) (lo hi : BitVec 32), Memory.wf m = true →
    readLE (writeLE m a 8 v) a 4 = v.extractLsb' 0 32 ∧
    readLE (writeLE m a 8 v) (a + 4) 4 = v.extractLsb' 32 32 ∧
    readLE (writeLE (writeLE m a 4 lo) (a + 4) 4 hi) a 8 = (hi ++ lo : BitVec 64)

/-- Stores to disjoint doublewords commute and a later store to the same one replaces the earlier, as
equality of the memories themselves. The canonical form that makes this an equality of data is the
model's own, no rule of the spec. -/
def Obligations.DisjointStoresCommute : Prop :=
  ∀ (m : Memory) (a b : Nat) (u v : BitVec 64), Memory.wf m = true → a + 8 ≤ b →
    writeLE (writeLE m a 8 u) b 8 v = writeLE (writeLE m b 8 v) a 8 u ∧
    writeLE (writeLE m a 8 u) a 8 v = writeLE m a 8 v

/-- The alignment policy (20_memory.md R57): with `allow` every in-bounds access is made; with `fault`
an in-bounds access at a non-multiple of its size raises `MisalignedData`, an aligned one is made, and
the bounds check comes first (the spec's decision D16). -/
def Obligations.AlignmentPolicy : Prop :=
  ∀ (ea : DWord) (sf : OpSize) (s : State),
    (s.cfg.misalignedData = .allow → ea.toNat + opBytes sf ≤ s.cfg.memSize → dataFault ea (opBytes sf) s = none) ∧
    (s.cfg.misalignedData = .fault → ea.toNat + opBytes sf ≤ s.cfg.memSize →
      (ea.toNat % opBytes sf ≠ 0 → dataFault ea (opBytes sf) s = some (.misalignedData ea (opBytes sf) s.pc)) ∧
      (ea.toNat % opBytes sf = 0 → dataFault ea (opBytes sf) s = none)) ∧
    (s.cfg.memSize < ea.toNat + opBytes sf →
      dataFault ea (opBytes sf) s = some (.outOfBoundsAccess ea (opBytes sf) s.pc))

/-- Effective addresses are computed modulo `2^64` (20_memory.md R68) by the formulas of
43_load_store.md R202 to R206. An indexed address, or a literal target (R215), that wraps below 0 fails
the bounds check (the spec's decision D17), said for `MEM_SIZE` up to `2^63`. A register-offset address that
wraps may be in bounds, which is how a negative index works. -/
def Obligations.EffectiveAddressesWrap : Prop :=
  ∀ (sf : OpSize) (imm12 : BitVec 12) (simm9 : BitVec 9) (simm19 : BitVec 19) (rn rm : RegIdx) (s : State),
    (eaUnsigned sf imm12 rn s).toNat = ((readX rn s).toNat + imm12.toNat * opBytes sf) % 2 ^ 64 ∧
    ((eaIndexed simm9 rn s).toNat : Int) = ((readX rn s).toNat + simm9.toInt) % 2 ^ 64 ∧
    eaBase rn s = readX rn s ∧
    (eaRegister rm rn s).toNat = ((readX rn s).toNat + (readX rm s).toNat) % 2 ^ 64 ∧
    ((pcRelative simm19 s).toNat : Int) = (s.pc.toNat + 4 * simm19.toInt) % 2 ^ 64 ∧
    (((readX rn s).toNat : Int) + simm9.toInt < 0 → s.cfg.memSize ≤ 2 ^ 63 →
      inBounds s.cfg (eaIndexed simm9 rn s) (opBytes sf) = false) ∧
    ((s.pc.toNat : Int) + 4 * simm19.toInt < 0 → s.cfg.memSize ≤ 2 ^ 63 →
      inBounds s.cfg (pcRelative simm19 s) (opBytes sf) = false)

/-! ## The arithmetic and logic unit -/

/-- `AddFlags` and `SubFlags` bit by bit as 40_alu.md R131 and R132 write them. -/
def Obligations.AddAndSubFlags : Prop :=
  ∀ (sf : OpSize) (a b : BitVec (opBits sf)),
    ((addFlags a b).1.toNat = (a.toNat + b.toNat) % 2 ^ opBits sf ∧
      (addFlags a b).2.n = (addFlags a b).1.msb ∧
      ((addFlags a b).2.z = true ↔ (addFlags a b).1 = 0) ∧
      ((addFlags a b).2.c = true ↔ 2 ^ opBits sf ≤ a.toNat + b.toNat) ∧
      ((addFlags a b).2.v = true ↔ a.msb = b.msb ∧ (addFlags a b).1.msb ≠ a.msb)) ∧
    ((subFlags a b).1.toNat = (a.toNat + 2 ^ opBits sf - b.toNat) % 2 ^ opBits sf ∧
      (subFlags a b).2.n = (subFlags a b).1.msb ∧
      ((subFlags a b).2.z = true ↔ (subFlags a b).1 = 0) ∧
      ((subFlags a b).2.c = true ↔ b.toNat ≤ a.toNat) ∧
      ((subFlags a b).2.v = true ↔ a.msb ≠ b.msb ∧ (subFlags a b).1.msb ≠ a.msb))

/-- "a non-flag-setting ADD or SUB computes the same result and discards the flags" (40_alu.md R133), in
both forms: ADDS and ADD, SUBS and SUB end with the same registers, `pc` and memory, and the sum and
difference are those of the signed values too. The spec derives this from R131 and R132. -/
def Obligations.NonSettingFormsComputeTheSameResult : Prop :=
  (∀ (sf : OpSize) (sh : Bool) (imm12 : BitVec 12) (rn rd : RegIdx) (s : State),
    (∃ t u, exec (.addImm sf sh imm12 rn rd) s = .next t ∧ exec (.addsImm sf sh imm12 rn rd) s = .next u ∧
      SameRegisters t u ∧ SameMemory t u ∧ t.pc = u.pc ∧ t.flags = s.flags) ∧
    (∃ t u, exec (.subImm sf sh imm12 rn rd) s = .next t ∧ exec (.subsImm sf sh imm12 rn rd) s = .next u ∧
      SameRegisters t u ∧ SameMemory t u ∧ t.pc = u.pc ∧ t.flags = s.flags)) ∧
  (∀ (sf : OpSize) (shift : ShiftKind) (rm : RegIdx) (imm6 : BitVec 6) (rn rd : RegIdx) (s : State),
    (∃ t u, exec (.addReg sf shift rm imm6 rn rd) s = .next t ∧ exec (.addsReg sf shift rm imm6 rn rd) s = .next u ∧
      SameRegisters t u ∧ SameMemory t u ∧ t.pc = u.pc ∧ t.flags = s.flags) ∧
    (∃ t u, exec (.subReg sf shift rm imm6 rn rd) s = .next t ∧ exec (.subsReg sf shift rm imm6 rn rd) s = .next u ∧
      SameRegisters t u ∧ SameMemory t u ∧ t.pc = u.pc ∧ t.flags = s.flags)) ∧
  (∀ (sf : OpSize) (a b : BitVec (opBits sf)),
    (addFlags a b).1 = a + b ∧ (subFlags a b).1 = a - b ∧
    (addFlags a b).1 = BitVec.ofInt (opBits sf) (a.toInt + b.toInt) ∧
    (subFlags a b).1 = BitVec.ofInt (opBits sf) (a.toInt - b.toInt))

/-- The barrel shifter as arithmetic (40_alu.md R135): LSL multiplies, LSR divides the unsigned value,
ASR divides the signed value rounding down, ROR rotates; an amount of 0 changes nothing. The
bit-level definitions are general knowledge in the spec (GK). -/
def Obligations.ShifterAsArithmetic : Prop :=
  ∀ (w : Nat) (v : BitVec w) (n : Nat), n < w →
    (shiftValue .lsl v n).toNat = v.toNat * 2 ^ n % 2 ^ w ∧
    (shiftValue .lsr v n).toNat = v.toNat / 2 ^ n ∧
    (shiftValue .asr v n).toInt = v.toInt / 2 ^ n ∧
    shiftValue .ror v n = v.rotateRight n ∧
    ∀ kind, shiftValue kind v 0 = v

/-- The multiplier (40_alu.md R138): the low `w` bits of the accumulated product, the same whether the
operands are read as signed or unsigned. -/
def Obligations.MultiplierKeepsLowBits : Prop :=
  ∀ (w : Nat) (a n m : BitVec w),
    mulAdd a n m = BitVec.ofNat w (a.toNat + n.toNat * m.toNat) ∧
    mulAdd a n m = BitVec.ofInt w (a.toInt + n.toInt * m.toInt) ∧
    mulSub a n m = BitVec.ofInt w ((a.toNat : Int) - n.toNat * m.toNat + 2 ^ (2 * w + 1)) ∧
    mulSub a n m = BitVec.ofInt w (a.toInt - n.toInt * m.toInt)

/-- Condition evaluation (40_alu.md R137): the valid codes, the table and the top-three-bits and
negate-bit reading of it agree, C is never read, and a conditional-branch word with an invalid code is
refused at decode, whatever the flags are (code `1111` and the raising at decode are its decision D15). That
the decoder's refusal bears the name `conditionCode` is the model's choice (log 18). -/
def Obligations.ConditionEvaluation : Prop :=
  ∀ (code : BitVec 4) (f : Flags) (c' : Bool),
    ((condOf code).isSome = true ↔ code ∈ [0b0000, 0b0001, 0b1010, 0b1011, 0b1100, 0b1101, 0b1110]) ∧
    (∀ (s : State) (simm19 : BitVec 19) (w : Word), condOf code = none →
      w = 0b01010100#8 ++ simm19 ++ 0#1 ++ code → w ≠ s.cfg.haltWord → Fetches s w →
      decode s.cfg w = .error .conditionCode ∧
      ∃ t, step s = .next t ∧ OnlyFaulted s t (.unknownInstruction w s.pc)) ∧
    ∀ c, condOf code = some c →
      condBits c = code ∧ (condHolds c f = true ↔ CondMeans f c) ∧
      condHolds c { f with c := c' } = condHolds c f ∧
      (code ≠ 0b1110 →
        condHolds c f = Bool.xor (code.getLsbD 0)
          (if code.extractLsb' 1 3 = 0b000 then f.z
           else if code.extractLsb' 1 3 = 0b101 then f.n == f.v else (f.n == f.v) && !f.z))

/-! ## Encoding -/

/-- Decode and encode agree: every instruction that some word stands for is read back from its own word,
with every operand, whatever the parameters (30_encoding.md R118). -/
def Obligations.DecodeOfEncode : Prop :=
  ∀ (cfg : Config) (i : Instr), i.realizable cfg = true → decode cfg (encode cfg i) = .ok i

/-- Strict decoding: a word that decodes is exactly the word the encoder writes, so every fixed bit has
its stated value (30_encoding.md R103). -/
def Obligations.EncodeOfDecode : Prop :=
  ∀ (cfg : Config) (w : Word) (i : Instr), decode cfg w = .ok i → encode cfg i = w ∧ i.realizable cfg = true

/-- The decision tree and the opcode table agree: a word decodes exactly when it is the halt word or a
row accepts it, and then to that row's instruction (30_encoding.md R105). -/
def Obligations.OpcodeTableDecides : Prop :=
  ∀ (cfg : Config) (w : Word),
    ((∃ i, decode cfg w = .ok i) ↔ w = cfg.haltWord ∨ ∃ row ∈ opcodeTable, row.accepts cfg w = true) ∧
    ∀ i row, decode cfg w = .ok i → row ∈ opcodeTable → row.accepts cfg w = true → row.mnemonic = i.mnemonic

/-- No two of the 33 rows other than HALT match one word, even without their constraints. The HALT row,
whose word `0x14000000` row B matches too, is no row of `opcodeTable`: it is taken first
(30_encoding.md R95). -/
def Obligations.OpcodeRowsAreDisjoint : Prop :=
  ∀ (w : Word) (r r' : OpcodeRow), r ∈ opcodeTable → r' ∈ opcodeTable →
    w &&& r.mask = r.value → w &&& r'.mask = r'.value → r = r'

/-- Words written out from the formats decode to the instructions they stand for, one a format, and the
all-zero word and `0xD503201F` to none (30_encoding.md R105, R106). -/
def Obligations.SampleWordsDecode : Prop :=
  decode Config.standard 0x91000420 = .ok (.addImm .w64 false 1 1 0) ∧
  decode Config.standard 0xD2A24680 = .ok (.movz .w64 1 0x1234 0) ∧
  decode Config.standard 0xCB011002 = .ok (.subReg .w64 .lsl 1 4 0 2) ∧
  decode Config.standard 0xCAC12002 = .ok (.eorReg .w64 .ror 1 8 0 2) ∧
  decode Config.standard 0x9B018C02 = .ok (.msub .w64 1 3 0 2) ∧
  decode Config.standard 0xF9001420 = .ok (.strUnsigned .w64 5 1 0) ∧
  decode Config.standard 0xF81F8C20 = .ok (.strPre .w64 0x1F8 1 0) ∧
  decode Config.standard 0xB8226820 = .ok (.strReg .w32 2 1 0) ∧
  decode Config.standard 0x18000043 = .ok (.ldrLit .w32 2 3) ∧
  decode Config.standard 0x17FFFFFF = .ok (.b 0x3FFFFFF) ∧
  decode Config.standard 0xD61F00A0 = .ok (.br 5) ∧
  decode Config.standard 0x5400006A = .ok (.bCond 3 .ge) ∧
  decode Config.standard 0x14000000 = .ok .halt ∧
  (decode Config.standard 0x00000000).toOption = none ∧
  (decode Config.standard 0xD503201F).toOption = none

/-! ## The step -/

/-- A running step whose `pc` is aligned and in bounds and whose four bytes decode to `i` is `exec i`,
with nothing added around it (70_reset_and_hazards.md R282). -/
def Obligations.StepRunsDecodedInstruction : Prop :=
  ∀ (s : State) (i : Instr) (b0 b1 b2 b3 : Byte), s.status = .running → s.pc.toNat % 4 = 0 →
    s.pc.toNat + 4 ≤ s.cfg.memSize →
    readByte s.mem s.pc.toNat = b0 → readByte s.mem (s.pc.toNat + 1) = b1 →
    readByte s.mem (s.pc.toNat + 2) = b2 → readByte s.mem (s.pc.toNat + 3) = b3 →
    decodeBytes s.cfg [b0, b1, b2, b3] = .ok i → step s = exec i s

/-- Every step of a running core ends in a next state: no refusal and no stop outside the run status. -/
def Obligations.RunningStepCompletes : Prop :=
  ∀ s : State, s.status = .running → ∃ t, step s = .next t

/-- The conditions of a step in the order of 60_exceptions.md R253, each with the state it leaves:
misaligned fetch, fetch bounds, halt check, decode, data bounds, data alignment (its decisions D18, D23). -/
def Obligations.ConditionsInPriorityOrder : Prop :=
  ∀ s : State, s.status = .running →
    (s.pc.toNat % 4 ≠ 0 → ∃ t, step s = .next t ∧ OnlyFaulted s t (.misalignedFetch s.pc)) ∧
    (s.pc.toNat % 4 = 0 → s.cfg.memSize < s.pc.toNat + 4 →
      ∃ t, step s = .next t ∧ OnlyFaulted s t (.outOfBoundsAccess s.pc 4 s.pc)) ∧
    (∀ w, Fetches s w →
      (w = s.cfg.haltWord → ∃ t, step s = .next t ∧ t.status = .halted) ∧
      (∀ e, w ≠ s.cfg.haltWord → decode s.cfg w = .error e →
        ∃ t, step s = .next t ∧ OnlyFaulted s t (.unknownInstruction w s.pc)) ∧
      (∀ i ea n, w ≠ s.cfg.haltWord → decode s.cfg w = .ok i → dataAccess i s = some (ea, n) →
        (s.cfg.memSize < ea.toNat + n →
          ∃ t, step s = .next t ∧ OnlyFaulted s t (.outOfBoundsAccess ea n s.pc)) ∧
        (ea.toNat + n ≤ s.cfg.memSize → s.cfg.misalignedData = .fault → ea.toNat % n ≠ 0 →
          ∃ t, step s = .next t ∧ OnlyFaulted s t (.misalignedData ea n s.pc))))

/-- "the step writes nothing: no register, flag, memory byte or `pc` changes, and
`status <- Faulted(code, info)`. No later step exists" (60_exceptions.md R252), for every step and every
condition. That it is precise is the spec's decision D21,
the nonzero exit status its decision D24 (R261). That the `step` input leaves a faulted core as it is is
DEDUCED (log 16). -/
def Obligations.FatalConditionsArePrecise : Prop :=
  ∀ (s t : State) (c : FatalCondition), step s = .next t → t.status = .faulted c →
    OnlyFaulted s t c ∧ (∀ u, step t ≠ .next u) ∧ stepInput t = t ∧ exitsZero t = some false ∧ finalDump t = none

/-- The run status (10_state.md R35): Running after reset; the step enabled only while Running; Halted
exactly when the fetched word is `HALT_WORD`, Faulted exactly when the fetch, the decoder or a data access
raises that condition; Halted and Faulted permanent. That the `step` input leaves such a core as it is is
DEDUCED (log 16), bounded runs are the spec's decision D46, and what a condition records its decision D22
(60_exceptions.md R250). -/
def Obligations.RunStatusRules : Prop :=
  State.reset.status = .running ∧
  (∀ s : State, s.status ≠ .running → (∀ t, step s ≠ .next t) ∧ stepInput s = s ∧ ∀ k, runFor k s = s) ∧
  (∀ s t : State, step s = .next t → s.status = .running ∧ (t.status = .halted ↔ Fetches s s.cfg.haltWord)) ∧
  ∀ (s t : State) (c : FatalCondition), step s = .next t →
    (t.status = .faulted c ↔
      fetchFault s = some c ∨
      (∃ w e, Fetches s w ∧ decode s.cfg w = .error e ∧ c = .unknownInstruction w s.pc) ∨
      ∃ i ea n, Executes s i ∧ dataAccess i s = some (ea, n) ∧ dataFault ea n s = some c)

/-- Halting (60_exceptions.md R260): entered by fetching `HALT_WORD` whatever else that word could mean;
all state survives unchanged, the final-state dump reads it, and nothing wakes the core. The final `pc` is its
decision D44, the exit status zero its decision D24 (60_exceptions.md R261). -/
def Obligations.HaltingKeepsAllState : Prop :=
  ∀ s : State, Fetches s s.cfg.haltWord →
    ∃ t, step s = .next t ∧ exec .halt s = .next t ∧ t.status = .halted ∧ t.x = s.x ∧ t.pc = s.pc ∧
      t.flags = s.flags ∧ t.mem = s.mem ∧ t.cfg = s.cfg ∧ (∀ u, step t ≠ .next u) ∧
      finalDump t = some (dumpOf s) ∧ exitsZero t = some true

/-- The meaning of HALT by itself: from every state it only sets the run status (44_branch.md R234). -/
def Obligations.HaltCompletes : Prop :=
  ∀ s : State, ∃ t, exec .halt s = .next t ∧ t.status = .halted ∧ SameRegisters s t ∧ t.pc = s.pc ∧
    t.flags = s.flags ∧ SameMemory s t ∧ t.cfg = s.cfg

/-- The PC sequencer (44_branch.md R230): the next `pc` from exactly one source. -/
def Obligations.PcSequencer : Prop :=
  ∀ s t : State, step s = .next t →
    ((∀ i, ¬ Executes s i) → t.pc = s.pc) ∧
    ∀ i, Executes s i →
      match i with
      | .b simm26 => PcMovedBy s t simm26.toInt
      | .bCond simm19 cond =>
        (CondMeans s.flags cond → PcMovedBy s t simm19.toInt) ∧ (¬ CondMeans s.flags cond → PcMovedBy s t 1)
      | .br rn => t.pc = readX rn s
      | .halt => t.pc = s.pc
      | _ => (t.status = .running → PcMovedBy s t 1) ∧ (t.status ≠ .running → t.pc = s.pc)

/-- "A fetch with `uint(pc) mod 4 != 0` raises `MisalignedFetch(pc)` and reads nothing", and "Only `BR`
can make `pc` misaligned" (20_memory.md R58, decision D18). -/
def Obligations.OnlyRegisterBranchMisalignsPc : Prop :=
  (∀ (s : State) (m : Memory), s.status = .running → s.pc.toNat % 4 ≠ 0 →
    ∃ t, step { s with mem := m } = .next t ∧ OnlyFaulted { s with mem := m } t (.misalignedFetch s.pc)) ∧
  ∀ s t : State, step s = .next t → s.pc.toNat % 4 = 0 → t.pc.toNat % 4 ≠ 0 → ∃ rn, Executes s (.br rn)

/-- The flags change only in the six flag-setting instructions and never in a faulting step, and those
write all four, whatever they were (10_state.md R31, R32). -/
def Obligations.FlagsChangeOnlyInFlagSetters : Prop :=
  (∀ s t : State, step s = .next t → (∀ i, Executes s i → setsFlags i = false) → t.flags = s.flags) ∧
  (∀ (s t : State) (c : FatalCondition), step s = .next t → t.status = .faulted c → t.flags = s.flags) ∧
  (∀ (i : Instr) (s : State) (f : Flags), setsFlags i = true →
    ∃ t u, exec i s = .next t ∧ exec i { s with flags := f } = .next u ∧ t.flags = u.flags)

/-- No step changes a register outside the "writes" column of 10_state.md R25. -/
def Obligations.OnlyListedRegistersChange : Prop :=
  ∀ (i : Instr) (s t : State) (r : RegIdx), exec i s = .next t → r ∉ destinations i → readX r t = readX r s

/-- What an instruction does depends on the registers of the "reads" column of 10_state.md R25 and on
nothing of the others: two states that agree on those, and on `pc`, flags, memory, status and
parameters, end with the same `pc`, flags, memory and status and, unless a condition was raised, the
same value in every register of the "writes" column. -/
def Obligations.ResultsDependOnListedRegisters : Prop :=
  ∀ (i : Instr) (s u s' u' : State), s.status = .running →
    (∀ r ∈ sources i, readX r s = readX r u) → s.pc = u.pc → s.flags = u.flags → s.mem = u.mem →
    s.status = u.status → s.cfg = u.cfg → exec i s = .next s' → exec i u = .next u' →
    s'.pc = u'.pc ∧ s'.flags = u'.flags ∧ s'.mem = u'.mem ∧ s'.status = u'.status ∧
    (s'.status = .running → ∀ r ∈ destinations i, readX r s' = readX r u')

/-- Every byte of memory keeps its value except those a store writes, which are the bytes the data port
carries (10_state.md R41, 20_memory.md R53); a load's port carries the bytes it reads. -/
def Obligations.MemoryChangesAsTheDataPortSays : Prop :=
  ∀ (i : Instr) (s t : State), s.Inv → exec i s = .next t →
    match dataPort i s with
    | some p =>
      p.addr.toNat + p.size ≤ s.cfg.memSize ∧ (p.size = 4 ∨ p.size = 8) ∧
      (p.we = true → StoredAt s t p.addr p.size p.wdata) ∧
      (p.we = false → SameMemory s t ∧ LoadedFrom s p.addr p.size p.rdata)
    | none => SameMemory s t

/-- After decode only the nine loads and stores raise a condition, and only `OutOfBoundsAccess` or, with
`MISALIGNED_DATA = fault`, `MisalignedData` (60_exceptions.md R251). -/
def Obligations.OnlyLoadsAndStoresRaise : Prop :=
  ∀ (i : Instr) (s t : State) (c : FatalCondition), s.status = .running → exec i s = .next t → t.status = .faulted c →
    ∃ ea n, dataAccess i s = some (ea, n) ∧
      (c = .outOfBoundsAccess ea n s.pc ∨
        (c = .misalignedData ea n s.pc ∧ s.cfg.misalignedData = .fault))

/-- A data access that fails raises its condition for every load and store, and the fault is precise:
"neither `Rt`, nor the base writeback, nor memory, nor `pc` is changed" (43_load_store.md R201). -/
def Obligations.DataFaultsArePrecise : Prop :=
  ∀ (i : Instr) (s : State) (ea : DWord) (n : Nat), dataAccess i s = some (ea, n) →
    (s.cfg.memSize < ea.toNat + n → ∃ t, exec i s = .next t ∧ OnlyFaulted s t (.outOfBoundsAccess ea n s.pc)) ∧
    (ea.toNat + n ≤ s.cfg.memSize → s.cfg.misalignedData = .fault → ea.toNat % n ≠ 0 →
      ∃ t, exec i s = .next t ∧ OnlyFaulted s t (.misalignedData ea n s.pc))

/-! ## Data processing, immediate -/

/-- ADD and SUB (immediate): the result at the operation's width, wrapped; flags and everything else kept
(41_dp_immediate.md R151, R153). -/
def Obligations.AddSubImmediateResult : Prop :=
  ∀ (sf : OpSize) (sh : Bool) (imm12 : BitVec 12) (rn rd : RegIdx) (s : State),
    (∃ t, exec (.addImm sf sh imm12 rn rd) s = .next t ∧
      DpResult s t rd (BitVec.ofNat (opBits sf)
        ((readXw (opBits sf) rn s).toNat + imm12.toNat * 4096 ^ sh.toNat))) ∧
    (∃ t, exec (.subImm sf sh imm12 rn rd) s = .next t ∧
      DpResult s t rd (BitVec.ofInt (opBits sf)
        ((readXw (opBits sf) rn s).toNat - (imm12.toNat * 4096 ^ sh.toNat : Nat))))

/-- ADDS and SUBS (immediate): the same results, and all four flags (41_dp_immediate.md R152, R154). -/
def Obligations.AddsSubsImmediateResult : Prop :=
  ∀ (sf : OpSize) (sh : Bool) (imm12 : BitVec 12) (rn rd : RegIdx) (s : State),
    let a := readXw (opBits sf) rn s
    let b := BitVec.ofNat (opBits sf) (imm12.toNat * 4096 ^ sh.toNat)
    (∃ t v f, exec (.addsImm sf sh imm12 rn rd) s = .next t ∧ v = BitVec.ofNat (opBits sf) (a.toNat + b.toNat) ∧
      DpFlagResult s t rd v f ∧ SumFlags a b v f) ∧
    (∃ t v f, exec (.subsImm sf sh imm12 rn rd) s = .next t ∧ v = BitVec.ofInt (opBits sf) (a.toNat - b.toNat) ∧
      DpFlagResult s t rd v f ∧ DifferenceFlags a b v f)

/-- MOVN, MOVZ, MOVK bit by bit: the immediate stands at bit `16 * hw` of the operation's width, the
other bits are ones, zeros, or the old ones (41_dp_immediate.md R155, R156, R157). -/
def Obligations.MoveWideResult : Prop :=
  ∀ (sf : OpSize) (hw : BitVec 2) (imm16 : BitVec 16) (rd : RegIdx) (s : State),
    let inside := fun j : Nat => decide (16 * hw.toNat ≤ j) && decide (j < 16 * hw.toNat + 16)
    let placed := fun j : Nat => imm16.getLsbD (j - 16 * hw.toNat)
    (∃ t, ∃ v : BitVec (opBits sf), exec (.movn sf hw imm16 rd) s = .next t ∧ DpResult s t rd v ∧
      ∀ j, j < opBits sf → v.getLsbD j = !(inside j && placed j)) ∧
    (∃ t, ∃ v : BitVec (opBits sf), exec (.movz sf hw imm16 rd) s = .next t ∧ DpResult s t rd v ∧
      ∀ j, j < opBits sf → v.getLsbD j = (inside j && placed j)) ∧
    (∃ t, ∃ v : BitVec (opBits sf), exec (.movk sf hw imm16 rd) s = .next t ∧ DpResult s t rd v ∧
      ∀ j, j < opBits sf → v.getLsbD j = if inside j then placed j else (readX rd s).getLsbD j)

/-! ## Data processing, register -/

/-- ADD and SUB (shifted register): both operands read before the write, the second one shifted first
(42_dp_register.md R171, R173). -/
def Obligations.AddSubRegisterResult : Prop :=
  ∀ (sf : OpSize) (shift : ShiftKind) (rm : RegIdx) (imm6 : BitVec 6) (rn rd : RegIdx) (s : State),
    let a := readXw (opBits sf) rn s
    let b := shiftValue shift (readXw (opBits sf) rm s) imm6.toNat
    (∃ t, exec (.addReg sf shift rm imm6 rn rd) s = .next t ∧
      DpResult s t rd (BitVec.ofNat (opBits sf) (a.toNat + b.toNat))) ∧
    (∃ t, exec (.subReg sf shift rm imm6 rn rd) s = .next t ∧
      DpResult s t rd (BitVec.ofInt (opBits sf) (a.toNat - b.toNat)))

/-- ADDS and SUBS (shifted register): the same results, and all four flags at the operation's width
(42_dp_register.md R172, R174). -/
def Obligations.AddsSubsRegisterResult : Prop :=
  ∀ (sf : OpSize) (shift : ShiftKind) (rm : RegIdx) (imm6 : BitVec 6) (rn rd : RegIdx) (s : State),
    let a := readXw (opBits sf) rn s
    let b := shiftValue shift (readXw (opBits sf) rm s) imm6.toNat
    (∃ t v f, exec (.addsReg sf shift rm imm6 rn rd) s = .next t ∧ v = BitVec.ofNat (opBits sf) (a.toNat + b.toNat) ∧
      DpFlagResult s t rd v f ∧ SumFlags a b v f) ∧
    (∃ t v f, exec (.subsReg sf shift rm imm6 rn rd) s = .next t ∧ v = BitVec.ofInt (opBits sf) (a.toNat - b.toNat) ∧
      DpFlagResult s t rd v f ∧ DifferenceFlags a b v f)

/-- The logical family (42_dp_register.md R188): shift, optionally complement, then AND, ORR, EOR or ANDS
bit by bit; AND, ORR, EOR and their complemented forms keep the flags. The six instructions AND, BIC,
ORR, ORN, EOR, EON. -/
def Obligations.LogicalResult : Prop :=
  ∀ (sf : OpSize) (shift : ShiftKind) (rm : RegIdx) (imm6 : BitVec 6) (rn rd : RegIdx) (s : State),
    let a := readXw (opBits sf) rn s
    let b := shiftValue shift (readXw (opBits sf) rm s) imm6.toNat
    let gives := fun (i : Instr) (op : Bool → Bool → Bool) =>
      ∃ t, ∃ v : BitVec (opBits sf), exec i s = .next t ∧ DpResult s t rd v ∧
        ∀ j, j < opBits sf → v.getLsbD j = op (a.getLsbD j) (b.getLsbD j)
    gives (.andReg sf shift rm imm6 rn rd) (fun p q => p && q) ∧
    gives (.bicReg sf shift rm imm6 rn rd) (fun p q => p && !q) ∧
    gives (.orrReg sf shift rm imm6 rn rd) (fun p q => p || q) ∧
    gives (.ornReg sf shift rm imm6 rn rd) (fun p q => p || !q) ∧
    gives (.eorReg sf shift rm imm6 rn rd) (fun p q => Bool.xor p q) ∧
    gives (.eonReg sf shift rm imm6 rn rd) (fun p q => Bool.xor p (!q))

/-- ANDS and BICS: AND with the operand or its complement; "C and V cleared and N/Z set from the result",
whatever they were (42_dp_register.md R181, R182; 40_alu.md R134). -/
def Obligations.LogicalFlagResult : Prop :=
  ∀ (sf : OpSize) (shift : ShiftKind) (rm : RegIdx) (imm6 : BitVec 6) (rn rd : RegIdx) (s : State),
    let a := readXw (opBits sf) rn s
    let b := shiftValue shift (readXw (opBits sf) rm s) imm6.toNat
    let gives := fun (i : Instr) (op : Bool → Bool → Bool) =>
      ∃ t f, ∃ v : BitVec (opBits sf), exec i s = .next t ∧ DpFlagResult s t rd v f ∧
        (∀ j, j < opBits sf → v.getLsbD j = op (a.getLsbD j) (b.getLsbD j)) ∧
        f.n = v.getLsbD (opBits sf - 1) ∧ (f.z = true ↔ v.toNat = 0) ∧ f.c = false ∧ f.v = false
    gives (.andsReg sf shift rm imm6 rn rd) (fun p q => p && q) ∧
    gives (.bicsReg sf shift rm imm6 rn rd) (fun p q => p && !q)

/-- MADD and MSUB: the low bits of the accumulator plus or minus the product
(42_dp_register.md R183, R184). -/
def Obligations.MultiplyResult : Prop :=
  ∀ (sf : OpSize) (rm ra rn rd : RegIdx) (s : State),
    let a := readXw (opBits sf) ra s
    let n := readXw (opBits sf) rn s
    let m := readXw (opBits sf) rm s
    (∃ t, exec (.madd sf rm ra rn rd) s = .next t ∧
      DpResult s t rd (BitVec.ofNat (opBits sf) (a.toNat + n.toNat * m.toNat))) ∧
    (∃ t, exec (.msub sf rm ra rn rd) s = .next t ∧
      DpResult s t rd (BitVec.ofInt (opBits sf) (a.toNat - n.toNat * m.toNat)))

/-! ## Loads and stores -/

/-- LDR with unsigned offset, register offset and literal addressing: an allowed access loads `Rt`, zero
extended, and changes nothing else (43_load_store.md R207, R213, R215). -/
def Obligations.LoadResult : Prop :=
  ∀ (sf : OpSize) (imm12 : BitVec 12) (simm19 : BitVec 19) (rm rn rt : RegIdx) (s : State),
    let gives := fun (i : Instr) (ea : DWord) =>
      AccessAllowed s ea (opBytes sf) →
        ∃ t, ∃ v : BitVec (opBits sf), exec i s = .next t ∧ LoadedFrom s ea (opBytes sf) v ∧ DpResult s t rt v
    gives (.ldrUnsigned sf imm12 rn rt) (eaUnsigned sf imm12 rn s) ∧
    gives (.ldrReg sf rm rn rt) (eaRegister rm rn s) ∧
    gives (.ldrLit sf simm19 rt) (pcRelative simm19 s)

/-- LDR pre- and post-indexed: the access at the new, or the old, base; the base written back; nothing
else changed. Where `Rt = Rn` (reached under `WB_OVERLAP = ordered`) a pre-indexed load leaves the loaded
value and a post-indexed one the written-back address (43_load_store.md R209, R211, R216, decision D19). -/
def Obligations.LoadWritebackResult : Prop :=
  ∀ (sf : OpSize) (simm9 : BitVec 9) (rn rt : RegIdx) (s : State),
    (AccessAllowed s (eaIndexed simm9 rn s) (opBytes sf) →
      ∃ t, ∃ v : BitVec (opBits sf), exec (.ldrPre sf simm9 rn rt) s = .next t ∧
        LoadedFrom s (eaIndexed simm9 rn s) (opBytes sf) v ∧
        (∀ r, readX r t =
          if r = 31 then 0 else if r = rt then v.setWidth 64 else if r = rn then eaIndexed simm9 rn s else readX r s) ∧
        SameControl s t ∧ NextPc s t ∧ SameMemory s t) ∧
    (AccessAllowed s (eaBase rn s) (opBytes sf) →
      ∃ t, ∃ v : BitVec (opBits sf), exec (.ldrPost sf simm9 rn rt) s = .next t ∧
        LoadedFrom s (eaBase rn s) (opBytes sf) v ∧
        (∀ r, readX r t =
          if r = 31 then 0 else if r = rn then eaIndexed simm9 rn s else if r = rt then v.setWidth 64 else readX r s) ∧
        SameControl s t ∧ NextPc s t ∧ SameMemory s t)

/-- STR with unsigned and register offset: an allowed access stores the low bytes of `Rt`, and changes
nothing else (43_load_store.md R208, R214). -/
def Obligations.StoreResult : Prop :=
  ∀ (sf : OpSize) (imm12 : BitVec 12) (rm rn rt : RegIdx) (s : State), s.Inv →
    let gives := fun (i : Instr) (ea : DWord) =>
      AccessAllowed s ea (opBytes sf) →
        ∃ t, exec i s = .next t ∧ StoredAt s t ea (opBytes sf) (readXw (opBits sf) rt s) ∧
          SameRegisters s t ∧ SameControl s t ∧ NextPc s t
    gives (.strUnsigned sf imm12 rn rt) (eaUnsigned sf imm12 rn s) ∧
    gives (.strReg sf rm rn rt) (eaRegister rm rn s)

/-- STR pre- and post-indexed: the old `Rt` is stored at the new, or the old, base, and the base is
written back, `Rt = Rn` included (43_load_store.md R210, R212, R216, decision D19). -/
def Obligations.StoreWritebackResult : Prop :=
  ∀ (sf : OpSize) (simm9 : BitVec 9) (rn rt : RegIdx) (s : State), s.Inv →
    let gives := fun (i : Instr) (ea : DWord) =>
      AccessAllowed s ea (opBytes sf) →
        ∃ t, exec i s = .next t ∧ StoredAt s t ea (opBytes sf) (readXw (opBits sf) rt s) ∧
          OneRegister s t rn (eaIndexed simm9 rn s) ∧ SameControl s t ∧ NextPc s t
    gives (.strPre sf simm9 rn rt) (eaIndexed simm9 rn s) ∧
    gives (.strPost sf simm9 rn rt) (eaBase rn s)

/-- Writeback overlap (43_load_store.md R216): with `WB_OVERLAP = fault` a pre- or post-indexed word with
`Rt = Rn != 31` is refused at decode and its step raises `UnknownInstruction`; with
`ordered` the word decodes (the spec's decision D19). That the decoder's refusal bears the name
`writebackOverlap` is the model's choice (log 18). -/
def Obligations.WritebackOverlapByParameter : Prop :=
  ∀ (cfg : Config) (l : BitVec 1) (mode : BitVec 2) (sf : OpSize) (simm9 : BitVec 9) (rn : RegIdx),
    mode = 0b11 ∨ mode = 0b01 → rn ≠ 31 → encIndexed l mode sf simm9 rn rn ≠ cfg.haltWord →
    (cfg.wbOverlap = .fault →
      decode cfg (encIndexed l mode sf simm9 rn rn) = .error .writebackOverlap ∧
      ∀ s : State, s.cfg = cfg → Fetches s (encIndexed l mode sf simm9 rn rn) →
        ∃ t, step s = .next t ∧ OnlyFaulted s t (.unknownInstruction (encIndexed l mode sf simm9 rn rn) s.pc)) ∧
    (cfg.wbOverlap = .ordered →
      decode cfg (encIndexed l mode sf simm9 rn rn) =
        .ok (if mode = 0b11 then (if l = 1 then .ldrPre sf simm9 rn rn else .strPre sf simm9 rn rn)
             else (if l = 1 then .ldrPost sf simm9 rn rn else .strPost sf simm9 rn rn)))

/-- "a store that overwrites the word at `pc + 4` changes the next instruction executed"
(20_memory.md R66, decision D26). -/
def Obligations.StoreToNextWordIsFetched : Prop :=
  ∀ (imm12 : BitVec 12) (rn rt : RegIdx) (s : State), s.Inv → s.status = .running → s.pc.toNat % 4 = 0 →
    eaUnsigned .w32 imm12 rn s = s.pc + 4 → AccessAllowed s (s.pc + 4) 4 →
    ∃ t, exec (.strUnsigned .w32 imm12 rn rt) s = .next t ∧ Fetches t (readXw 32 rt s)

/-! ## Branches -/

/-- B, BR and B.cond: the target, taken or not, and nothing else changed
(44_branch.md R231, R232, R233). -/
def Obligations.BranchResult : Prop :=
  ∀ (simm26 : BitVec 26) (simm19 : BitVec 19) (cond : Cond) (rn : RegIdx) (s : State),
    (∃ t, exec (.b simm26) s = .next t ∧ PcMovedBy s t simm26.toInt ∧
      SameRegisters s t ∧ SameControl s t ∧ SameMemory s t) ∧
    (∃ t, exec (.br rn) s = .next t ∧ t.pc = readX rn s ∧
      SameRegisters s t ∧ SameControl s t ∧ SameMemory s t) ∧
    (∃ t, exec (.bCond simm19 cond) s = .next t ∧
      (CondMeans s.flags cond → PcMovedBy s t simm19.toInt) ∧ (¬ CondMeans s.flags cond → PcMovedBy s t 1) ∧
      SameRegisters s t ∧ SameControl s t ∧ SameMemory s t)

/-! ## The final-state dump -/

/-- The dump (10_state.md R42): only of a halted core; X0 to X30, `pc`, the flags, and exactly the
non-zero aligned words in ascending order. A partial word at the top of a memory whose size is no
multiple of 4 is not listed, the model's choice (log 8). -/
def Obligations.FinalDumpListsTheState : Prop :=
  ∀ s : State, s.Inv →
    (finalDump s = none ↔ s.status ≠ .halted) ∧
    ∀ d, finalDump s = some d →
      d.registers.length = 31 ∧ (∀ i, i < 31 → d.registers[i]? = some (readX (BitVec.ofNat 5 i) s)) ∧
      d.pc = s.pc ∧ d.flags = s.flags ∧
      d.words.Pairwise (fun p q => p.1 < q.1) ∧
      ∀ a w, (a, w) ∈ d.words ↔ a % 4 = 0 ∧ a + 4 ≤ s.cfg.memSize ∧ readLE s.mem a 4 = w ∧ w ≠ 0

/-! ## The toolchain view -/

/-- Mnemonic dispatch (30_encoding.md R110, decision D43): a line whose first token is none of the 38 accepted
ones is refused with a syntax error that lists the token (90_conflicts.md C11), whatever follows it, and no
line that begins with an accepted one is refused so. What counts as white space, and that the first
token is judged before what follows it, are the model's choices (log 12, log 19). -/
def Obligations.UnknownMnemonicIsListed : Prop :=
  ∀ (m text : List Char), (∀ c ∈ m, isBlankChar c = false) →
    (parseLine (m ++ ' ' :: text) = .error (.syntaxError (some m)) ↔
      m ∉ (["add", "adds", "sub", "subs", "cmp", "cmn", "neg", "negs"] ++
        ["and", "ands", "bic", "bics", "eor", "eon", "orr", "orn", "tst", "mvn", "mov"] ++
        ["movz", "movn", "movk", "madd", "msub", "mul", "mneg", "ldr", "str", ".int"] ++
        ["br", "b", "b.eq", "b.ne", "b.ge", "b.lt", "b.gt", "b.le", "b.al"]).map String.toList)

/-- The pseudo-instructions (30_encoding.md R114): a line of each pseudo mnemonic reads as the line of its
expansion does, for every register and every operand, and both as the instruction form named. `tst`, `mvn`,
`mov` have no immediate form: a logical instruction with an immediate is refused with `OperandTypeError`
(decisions D40, D42; which operand is implicit is GK). How a text splits into operands is the model's
(log 12), so a line is a mnemonic, a space and any text that splits into the operands named. -/
def Obligations.PseudoInstructionsExpand : Prop :=
  let reads := fun (mnemonic : List Char) (operands : List Atom) (r : Except ToolError AsmIr) =>
    ∀ text, lexOperands [] text = .ok operands → parseLine (mnemonic ++ ' ' :: text) = r
  ∀ (d n m : RegToken) (op : FlexOperand) (ops : List Atom), parseFlex ops = .ok op →
    let zn := zeroOf n.size
    let zd := zeroOf d.size
    let expands := fun (pseudo : List Char) (given : List Atom) (expansion : List Char) (written : List Atom)
        (ir : AsmIr) => reads pseudo given (.ok ir) ∧ reads expansion written (.ok ir)
    expands ['c', 'm', 'p'] (.reg n :: .comma :: ops) ['s', 'u', 'b', 's'] (.reg zn :: .comma :: .reg n :: .comma :: ops)
      (.arithmetic true true zn n op) ∧
    expands ['c', 'm', 'n'] (.reg n :: .comma :: ops) ['a', 'd', 'd', 's'] (.reg zn :: .comma :: .reg n :: .comma :: ops)
      (.arithmetic false true zn n op) ∧
    expands ['n', 'e', 'g'] (.reg d :: .comma :: ops) ['s', 'u', 'b'] (.reg d :: .comma :: .reg zd :: .comma :: ops)
      (.arithmetic true false d zd op) ∧
    expands ['n', 'e', 'g', 's'] (.reg d :: .comma :: ops) ['s', 'u', 'b', 's']
      (.reg d :: .comma :: .reg zd :: .comma :: ops) (.arithmetic true true d zd op) ∧
    expands ['t', 's', 't'] (.reg n :: .comma :: ops) ['a', 'n', 'd', 's'] (.reg zn :: .comma :: .reg n :: .comma :: ops)
      (.logical .ands false zn n op) ∧
    expands ['m', 'v', 'n'] (.reg d :: .comma :: ops) ['o', 'r', 'n'] (.reg d :: .comma :: .reg zd :: .comma :: ops)
      (.logical .orr true d zd op) ∧
    expands ['m', 'o', 'v'] [.reg d, .comma, .reg m] ['o', 'r', 'r'] [.reg d, .comma, .reg zd, .comma, .reg m]
      (.logical .orr false d zd (.reg m none)) ∧
    expands ['m', 'u', 'l'] [.reg d, .comma, .reg n, .comma, .reg m] ['m', 'a', 'd', 'd']
      [.reg d, .comma, .reg n, .comma, .reg m, .comma, .reg zd] (.multiply false d n m zd) ∧
    expands ['m', 'n', 'e', 'g'] [.reg d, .comma, .reg n, .comma, .reg m] ['m', 's', 'u', 'b']
      [.reg d, .comma, .reg n, .comma, .reg m, .comma, .reg zd] (.multiply true d n m zd) ∧
    (∀ v, reads ['m', 'o', 'v'] [.reg d, .comma, .imm v] (.error .operandTypeError)) ∧
    zn.idx = 31 ∧ zn.size = n.size ∧
    ∀ (labels : SymbolTable) (self : Nat) (lop : LogicOp) (complement : Bool) (v : Int) (sfx : Option ShiftSuffix),
      assembleIr labels self (.logical lop complement d n (.imm v sfx)) = .error .operandTypeError

/-- Every instruction the assembler writes is one the decoder reads back with the same operands, under
`WB_OVERLAP = ordered` (which refuses nothing the assembler accepts), unless its word is the halt word
(30_encoding.md R116, R118). -/
def Obligations.AssembledInstructionsDecodeBack : Prop :=
  ∀ (labels : SymbolTable) (self : Nat) (ir : AsmIr) (i : Instr) (cfg : Config),
    assembleIr labels self ir = .ok (.instr i) → cfg.wbOverlap = .ordered →
    i.wellFormed .ordered = true ∧
    (itemWord (.instr i) = cfg.haltWord ∨ decode cfg (itemWord (.instr i)) = .ok i)

/-- A branch to a label reaches it: a running core that fetches at `self` the word the assembler writes
there for `b label` steps to the address the label denotes, unless that word is the halt word
(30_encoding.md R115, decision D34). -/
def Obligations.AssembledBranchReachesItsLabel : Prop :=
  ∀ (labels : SymbolTable) (name : List Char) (self target : Nat) (simm26 : BitVec 26) (s : State),
    resolve labels name = .ok target → assembleIr labels self (.branch (.label name)) = .ok (.instr (.b simm26)) →
    target < 2 ^ 64 → s.pc.toNat = self → Fetches s (itemWord (.instr (.b simm26))) →
    itemWord (.instr (.b simm26)) ≠ s.cfg.haltWord →
    ∃ t, step s = .next t ∧ t.pc.toNat = target ∧ SameRegisters s t ∧ SameControl s t ∧ SameMemory s t

/-- The two passes agree: pass 2 writes one word for every slot pass 1 counted, so the consistency check
never fails; a defined label resolves to its address, and a second definition is refused
(30_encoding.md R109). -/
def Obligations.AssemblerPassesAgree : Prop :=
  (∀ (lines : List SourceLine) (labels : SymbolTable) (final : Nat) (words : List Word),
    passOne 0 [] lines = .ok (labels, final) → passTwo labels 0 lines = .ok words →
    final = 4 * words.length ∧ assembleLines lines = .ok words) ∧
  (∀ (labels labels' : SymbolTable) (name other : List Char) (a : Nat), define labels name a = .ok labels' →
    resolve labels' name = .ok a ∧ (∀ b, define labels' name b = .error .duplicateLabel) ∧
    (other ≠ name → resolve labels' other = resolve labels other))
end

