-- ==== Sys2Proof/Laws/Assembler.lean ====
section
/-!
SUPPORT. What the assembler's shared operations can do, said once: a line is read by its first token, a
ranged field holds its integer.
-/

namespace Sys2Proof.Machine

/-- A mnemonic is the first token of the line that begins with it and a space (30_encoding.md R110). -/
theorem firstToken_append {m : List Char} (hm : ∀ c ∈ m, isBlankChar c = false) (text : List Char) :
    firstToken (m ++ ' ' :: text) = (m, text) := by
  induction m with
  | nil => simp [firstToken, isBlankChar]
  | cons c cs ih =>
    have hcs := ih fun d hd => hm d (List.mem_cons_of_mem c hd)
    simp [firstToken, hm c List.mem_cons_self, hcs]

/-- A line whose mnemonic is known and whose operands can be split reads as that mnemonic's form
(30_encoding.md R110, R113). -/
theorem parseLine_of_lookup {m text : List Char} {form : MnemonicForm} {ops : List Atom}
    (hm : ∀ c ∈ m, isBlankChar c = false) (hf : mnemonicForms.lookup m = some form)
    (ht : lexOperands [] text = .ok ops) : parseLine (m ++ ' ' :: text) = parseOperands form ops := by
  simp [parseLine, firstToken_append hm text, hf, ht]

/-- An unknown mnemonic is refused with the offending token (30_encoding.md R110). -/
theorem parseLine_of_unknown {m text : List Char} (hm : ∀ c ∈ m, isBlankChar c = false)
    (hf : mnemonicForms.lookup m = none) : parseLine (m ++ ' ' :: text) = .error (.syntaxError (some m)) := by
  simp [parseLine, firstToken_append hm text, hf]

/-- A ranged field that is given lies in its range and holds the integer (30_encoding.md R116). -/
theorem rangedField_eq_ok {k : Nat} {lo hi v : Int} {b : BitVec k} (h : rangedField k lo hi v = .ok b) :
    lo ≤ v ∧ v ≤ hi ∧ b = BitVec.ofInt k v := by
  unfold rangedField at h
  split at h
  · rename_i hr
    cases h
    exact ⟨hr.1, hr.2, rfl⟩
  · cases h

/-- A register operand of the right width gives its index, another one is refused (30_encoding.md R111). -/
theorem requireSize_eq_ok_iff {size : OpSize} {r : RegToken} {i : RegIdx} :
    requireSize size r = .ok i ↔ r.size = size ∧ r.idx = i := by
  unfold requireSize
  split <;> simp_all

end Sys2Proof.Machine
end

