-- ==== Sys2Proof/Laws/Decode.lean ====
section
/-!
SUPPORT. The encoder's formats, field by field (30_encoding.md section 2), and the codes of the small
fields. A proof about decoding an encoded instruction cites these.
-/

namespace Sys2Proof

/-! ## Small fields -/

@[simp] theorem opSizeOf_sfBit (sf : OpSize) : opSizeOf (sfBit sf) = sf := by cases sf <;> rfl

@[simp] theorem shiftKindOf_shiftBits (k : ShiftKind) : shiftKindOf (shiftBits k) = k := by cases k <;> rfl

@[simp] theorem condOf_condBits (c : Cond) : condOf (condBits c) = some c := by cases c <;> rfl

/-- The halt word decodes to the sentinel, whatever row it matches (30_encoding.md R95). -/
theorem decode_haltWord (cfg : Config) : decode cfg cfg.haltWord = .ok .halt := by simp [decode]

/-- Every other word goes to the decoder (30_encoding.md R98). -/
theorem decode_of_ne (cfg : Config) {w : Word} (h : w ≠ cfg.haltWord) :
    decode cfg w = decodeClass cfg.wbOverlap w := by simp [decode, h]

/-! ## Concatenation -/

/-- Bit `i` of a concatenation (00_scope.md R8). -/
theorem bit_append {n m : Nat} (x : BitVec n) (y : BitVec m) (i : Nat) :
    (x ++ y).getLsbD i = if i < m then y.getLsbD i else x.getLsbD (i - m) := by
  rw [BitVec.getLsbD_append]

/-! ## The formats -/

/-- The fields of `encArithImm`. -/
theorem encArithImm_fields (opc : BitVec 2) (sf : OpSize) (sh : Bool) (imm12 : BitVec 12) (rn rd : RegIdx) :
    let w := encArithImm opc sf sh imm12 rn rd
    field w 31 1 = sfBit sf ∧
    field w 29 2 = opc ∧
    field w 25 4 = 0b1000#4 ∧
    field w 23 3 = 0b010#3 ∧
    field w 22 1 = BitVec.ofBool sh ∧
    field w 10 12 = imm12 ∧
    field w 5 5 = rn ∧
    field w 0 5 = rd := by
  refine ⟨?_, ?_, ?_, ?_, ?_, ?_, ?_, ?_⟩ <;>
    (apply BitVec.eq_of_getLsbD_eq; intro i hi; unfold field encArithImm; rw [BitVec.getLsbD_extractLsb', bit_append]
     interval_cases i <;> (try simp only [bit_append]) <;> simp)

/-- The fixed bits of `encArithImm`: its rows' mask and value. -/
theorem encArithImm_fixed (opc : BitVec 2) (sf : OpSize) (sh : Bool) (imm12 : BitVec 12) (rn rd : RegIdx) :
    encArithImm opc sf sh imm12 rn rd &&& 0x7F800000 = 0#1 ++ opc ++ 0b100010#6 ++ 0#23 := by
  apply BitVec.eq_of_getLsbD_eq
  intro i hi
  unfold encArithImm
  rw [BitVec.getLsbD_and, bit_append]
  conv_rhs => rw [bit_append]
  interval_cases i <;> (try simp only [bit_append]) <;> simp

/-- The fields of `encMoveWide`. -/
theorem encMoveWide_fields (opc : BitVec 2) (sf : OpSize) (hw : BitVec 2) (imm16 : BitVec 16) (rd : RegIdx) :
    let w := encMoveWide opc sf hw imm16 rd
    field w 31 1 = sfBit sf ∧
    field w 29 2 = opc ∧
    field w 25 4 = 0b1001#4 ∧
    field w 23 3 = 0b101#3 ∧
    field w 22 1 = hw.extractLsb' 1 1 ∧
    field w 21 2 = hw ∧
    field w 5 16 = imm16 ∧
    field w 0 5 = rd := by
  refine ⟨?_, ?_, ?_, ?_, ?_, ?_, ?_, ?_⟩ <;>
    (apply BitVec.eq_of_getLsbD_eq; intro i hi; unfold field encMoveWide; rw [BitVec.getLsbD_extractLsb', bit_append]
     interval_cases i <;> (try simp only [bit_append]) <;> simp)

/-- The fixed bits of `encMoveWide`: its rows' mask and value. -/
theorem encMoveWide_fixed (opc : BitVec 2) (sf : OpSize) (hw : BitVec 2) (imm16 : BitVec 16) (rd : RegIdx) :
    encMoveWide opc sf hw imm16 rd &&& 0x7F800000 = 0#1 ++ opc ++ 0b100101#6 ++ 0#23 := by
  apply BitVec.eq_of_getLsbD_eq
  intro i hi
  unfold encMoveWide
  rw [BitVec.getLsbD_and, bit_append]
  conv_rhs => rw [bit_append]
  interval_cases i <;> (try simp only [bit_append]) <;> simp

/-- The fields of `encArithReg`. -/
theorem encArithReg_fields (opc : BitVec 2) (sf : OpSize) (shift : ShiftKind) (rm : RegIdx) (imm6 : BitVec 6) (rn rd : RegIdx) :
    let w := encArithReg opc sf shift rm imm6 rn rd
    field w 31 1 = sfBit sf ∧
    field w 29 2 = opc ∧
    field w 28 1 = 0#1 ∧
    field w 25 4 = 0b0101#4 ∧
    field w 21 4 = 1#1 ++ shiftBits shift ++ 0#1 ∧
    field w 22 2 = shiftBits shift ∧
    field w 16 5 = rm ∧
    field w 15 1 = imm6.extractLsb' 5 1 ∧
    field w 10 6 = imm6 ∧
    field w 5 5 = rn ∧
    field w 0 5 = rd := by
  refine ⟨?_, ?_, ?_, ?_, ?_, ?_, ?_, ?_, ?_, ?_, ?_⟩ <;>
    (apply BitVec.eq_of_getLsbD_eq; intro i hi; unfold field encArithReg; rw [BitVec.getLsbD_extractLsb', bit_append]
     interval_cases i <;> (try simp only [bit_append]) <;> simp)

/-- The fixed bits of `encArithReg`: its rows' mask and value. -/
theorem encArithReg_fixed (opc : BitVec 2) (sf : OpSize) (shift : ShiftKind) (rm : RegIdx) (imm6 : BitVec 6) (rn rd : RegIdx) :
    encArithReg opc sf shift rm imm6 rn rd &&& 0x7F200000 = 0#1 ++ opc ++ 0b01011#5 ++ 0#24 := by
  apply BitVec.eq_of_getLsbD_eq
  intro i hi
  unfold encArithReg
  rw [BitVec.getLsbD_and, bit_append]
  conv_rhs => rw [bit_append]
  interval_cases i <;> (try simp only [bit_append]) <;> simp

/-- The fields of `encLogical`. -/
theorem encLogical_fields (opc : BitVec 2) (n : BitVec 1) (sf : OpSize) (shift : ShiftKind) (rm : RegIdx) (imm6 : BitVec 6) (rn rd : RegIdx) :
    let w := encLogical opc n sf shift rm imm6 rn rd
    field w 31 1 = sfBit sf ∧
    field w 29 2 = opc ∧
    field w 28 1 = 0#1 ∧
    field w 25 4 = 0b0101#4 ∧
    field w 21 4 = 0#1 ++ shiftBits shift ++ n ∧
    field w 22 2 = shiftBits shift ∧
    field w 21 1 = n ∧
    field w 16 5 = rm ∧
    field w 15 1 = imm6.extractLsb' 5 1 ∧
    field w 10 6 = imm6 ∧
    field w 5 5 = rn ∧
    field w 0 5 = rd := by
  refine ⟨?_, ?_, ?_, ?_, ?_, ?_, ?_, ?_, ?_, ?_, ?_, ?_⟩ <;>
    (apply BitVec.eq_of_getLsbD_eq; intro i hi; unfold field encLogical; rw [BitVec.getLsbD_extractLsb', bit_append]
     interval_cases i <;> (try simp only [bit_append]) <;> simp)

/-- The fixed bits of `encLogical`: its rows' mask and value. -/
theorem encLogical_fixed (opc : BitVec 2) (n : BitVec 1) (sf : OpSize) (shift : ShiftKind) (rm : RegIdx) (imm6 : BitVec 6) (rn rd : RegIdx) :
    encLogical opc n sf shift rm imm6 rn rd &&& 0x7F200000 = 0#1 ++ opc ++ 0b01010#5 ++ 0#2 ++ n ++ 0#21 := by
  apply BitVec.eq_of_getLsbD_eq
  intro i hi
  unfold encLogical
  rw [BitVec.getLsbD_and, bit_append]
  conv_rhs => rw [bit_append]
  interval_cases i <;> (try simp only [bit_append]) <;> simp

/-- The fields of `encMultiply`. -/
theorem encMultiply_fields (x : BitVec 1) (sf : OpSize) (rm ra rn rd : RegIdx) :
    let w := encMultiply x sf rm ra rn rd
    field w 31 1 = sfBit sf ∧
    field w 29 2 = 0b00#2 ∧
    field w 28 1 = 1#1 ∧
    field w 25 4 = 0b1101#4 ∧
    field w 21 4 = 0b1000#4 ∧
    field w 16 5 = rm ∧
    field w 15 1 = x ∧
    field w 10 5 = ra ∧
    field w 5 5 = rn ∧
    field w 0 5 = rd := by
  refine ⟨?_, ?_, ?_, ?_, ?_, ?_, ?_, ?_, ?_, ?_⟩ <;>
    (apply BitVec.eq_of_getLsbD_eq; intro i hi; unfold field encMultiply; rw [BitVec.getLsbD_extractLsb', bit_append]
     interval_cases i <;> (try simp only [bit_append]) <;> simp)

/-- The fixed bits of `encMultiply`: its rows' mask and value. -/
theorem encMultiply_fixed (x : BitVec 1) (sf : OpSize) (rm ra rn rd : RegIdx) :
    encMultiply x sf rm ra rn rd &&& 0x7FE08000 = 0#1 ++ 0b0011011000#10 ++ 0#5 ++ x ++ 0#15 := by
  apply BitVec.eq_of_getLsbD_eq
  intro i hi
  unfold encMultiply
  rw [BitVec.getLsbD_and, bit_append]
  conv_rhs => rw [bit_append]
  interval_cases i <;> (try simp only [bit_append]) <;> simp

/-- The fields of `encUnsigned`. -/
theorem encUnsigned_fields (l : BitVec 1) (sf : OpSize) (imm12 : BitVec 12) (rn rt : RegIdx) :
    let w := encUnsigned l sf imm12 rn rt
    field w 31 1 = 1#1 ∧
    field w 30 1 = sfBit sf ∧
    field w 25 4 = 0b1100#4 ∧
    field w 25 5 = 0b11100#5 ∧
    field w 24 1 = 1#1 ∧
    field w 23 1 = 0#1 ∧
    field w 22 1 = l ∧
    field w 10 12 = imm12 ∧
    field w 5 5 = rn ∧
    field w 0 5 = rt := by
  refine ⟨?_, ?_, ?_, ?_, ?_, ?_, ?_, ?_, ?_, ?_⟩ <;>
    (apply BitVec.eq_of_getLsbD_eq; intro i hi; unfold field encUnsigned; rw [BitVec.getLsbD_extractLsb', bit_append]
     interval_cases i <;> (try simp only [bit_append]) <;> simp)

/-- The fixed bits of `encUnsigned`: its rows' mask and value. -/
theorem encUnsigned_fixed (l : BitVec 1) (sf : OpSize) (imm12 : BitVec 12) (rn rt : RegIdx) :
    encUnsigned l sf imm12 rn rt &&& 0xBFC00000 = 1#1 ++ 0#1 ++ 0b1110010#7 ++ l ++ 0#22 := by
  apply BitVec.eq_of_getLsbD_eq
  intro i hi
  unfold encUnsigned
  rw [BitVec.getLsbD_and, bit_append]
  conv_rhs => rw [bit_append]
  interval_cases i <;> (try simp only [bit_append]) <;> simp

/-- The fields of `encIndexed`. -/
theorem encIndexed_fields (l : BitVec 1) (mode : BitVec 2) (sf : OpSize) (simm9 : BitVec 9) (rn rt : RegIdx) :
    let w := encIndexed l mode sf simm9 rn rt
    field w 31 1 = 1#1 ∧
    field w 30 1 = sfBit sf ∧
    field w 25 4 = 0b1100#4 ∧
    field w 25 5 = 0b11100#5 ∧
    field w 24 1 = 0#1 ∧
    field w 23 1 = 0#1 ∧
    field w 22 1 = l ∧
    field w 21 1 = 0#1 ∧
    field w 12 9 = simm9 ∧
    field w 10 2 = mode ∧
    field w 5 5 = rn ∧
    field w 0 5 = rt := by
  refine ⟨?_, ?_, ?_, ?_, ?_, ?_, ?_, ?_, ?_, ?_, ?_, ?_⟩ <;>
    (apply BitVec.eq_of_getLsbD_eq; intro i hi; unfold field encIndexed; rw [BitVec.getLsbD_extractLsb', bit_append]
     interval_cases i <;> (try simp only [bit_append]) <;> simp)

/-- The fixed bits of `encIndexed`: its rows' mask and value. -/
theorem encIndexed_fixed (l : BitVec 1) (mode : BitVec 2) (sf : OpSize) (simm9 : BitVec 9) (rn rt : RegIdx) :
    encIndexed l mode sf simm9 rn rt &&& 0xBFE00C00 = 1#1 ++ 0#1 ++ 0b1110000#7 ++ l ++ 0#1 ++ 0#9 ++ mode ++ 0#10 := by
  apply BitVec.eq_of_getLsbD_eq
  intro i hi
  unfold encIndexed
  rw [BitVec.getLsbD_and, bit_append]
  conv_rhs => rw [bit_append]
  interval_cases i <;> (try simp only [bit_append]) <;> simp

/-- The fields of `encRegOffset`. -/
theorem encRegOffset_fields (l : BitVec 1) (sf : OpSize) (rm rn rt : RegIdx) :
    let w := encRegOffset l sf rm rn rt
    field w 31 1 = 1#1 ∧
    field w 30 1 = sfBit sf ∧
    field w 25 4 = 0b1100#4 ∧
    field w 25 5 = 0b11100#5 ∧
    field w 24 1 = 0#1 ∧
    field w 23 1 = 0#1 ∧
    field w 22 1 = l ∧
    field w 21 1 = 1#1 ∧
    field w 16 5 = rm ∧
    field w 10 6 = 0b011010#6 ∧
    field w 5 5 = rn ∧
    field w 0 5 = rt := by
  refine ⟨?_, ?_, ?_, ?_, ?_, ?_, ?_, ?_, ?_, ?_, ?_, ?_⟩ <;>
    (apply BitVec.eq_of_getLsbD_eq; intro i hi; unfold field encRegOffset; rw [BitVec.getLsbD_extractLsb', bit_append]
     interval_cases i <;> (try simp only [bit_append]) <;> simp)

/-- The fixed bits of `encRegOffset`: its rows' mask and value. -/
theorem encRegOffset_fixed (l : BitVec 1) (sf : OpSize) (rm rn rt : RegIdx) :
    encRegOffset l sf rm rn rt &&& 0xBFE0FC00 = 1#1 ++ 0#1 ++ 0b1110000#7 ++ l ++ 1#1 ++ 0#5 ++ 0b011010#6 ++ 0#10 := by
  apply BitVec.eq_of_getLsbD_eq
  intro i hi
  unfold encRegOffset
  rw [BitVec.getLsbD_and, bit_append]
  conv_rhs => rw [bit_append]
  interval_cases i <;> (try simp only [bit_append]) <;> simp

/-- The fields of `encLiteral`. -/
theorem encLiteral_fields (sf : OpSize) (simm19 : BitVec 19) (rt : RegIdx) :
    let w := encLiteral sf simm19 rt
    field w 31 1 = 0#1 ∧
    field w 30 1 = sfBit sf ∧
    field w 25 4 = 0b1100#4 ∧
    field w 24 6 = 0b011000#6 ∧
    field w 5 19 = simm19 ∧
    field w 0 5 = rt := by
  refine ⟨?_, ?_, ?_, ?_, ?_, ?_⟩ <;>
    (apply BitVec.eq_of_getLsbD_eq; intro i hi; unfold field encLiteral; rw [BitVec.getLsbD_extractLsb', bit_append]
     interval_cases i <;> (try simp only [bit_append]) <;> simp)

/-- The fixed bits of `encLiteral`: its rows' mask and value. -/
theorem encLiteral_fixed (sf : OpSize) (simm19 : BitVec 19) (rt : RegIdx) :
    encLiteral sf simm19 rt &&& 0xBF000000 = 0#1 ++ 0#1 ++ 0b011000#6 ++ 0#24 := by
  apply BitVec.eq_of_getLsbD_eq
  intro i hi
  unfold encLiteral
  rw [BitVec.getLsbD_and, bit_append]
  conv_rhs => rw [bit_append]
  interval_cases i <;> (try simp only [bit_append]) <;> simp

/-- The fields of `encBranch`. -/
theorem encBranch_fields (simm26 : BitVec 26) :
    let w := encBranch simm26
    field w 29 3 = 0b000#3 ∧
    field w 25 4 = 0b101#3 ++ simm26.extractLsb' 25 1 ∧
    field w 0 26 = simm26 := by
  refine ⟨?_, ?_, ?_⟩ <;>
    (apply BitVec.eq_of_getLsbD_eq; intro i hi; unfold field encBranch; rw [BitVec.getLsbD_extractLsb', bit_append]
     interval_cases i <;> (try simp only [bit_append]) <;> simp)

/-- The fixed bits of `encBranch`: its rows' mask and value. -/
theorem encBranch_fixed (simm26 : BitVec 26) :
    encBranch simm26 &&& 0xFC000000 = 0b000101#6 ++ 0#26 := by
  apply BitVec.eq_of_getLsbD_eq
  intro i hi
  unfold encBranch
  rw [BitVec.getLsbD_and, bit_append]
  conv_rhs => rw [bit_append]
  interval_cases i <;> (try simp only [bit_append]) <;> simp

/-- The fields of `encBranchReg`. -/
theorem encBranchReg_fields (rn : RegIdx) :
    let w := encBranchReg rn
    field w 29 3 = 0b110#3 ∧
    field w 25 4 = 0b1011#4 ∧
    field w 10 22 = 0b1101011000011111000000#22 ∧
    field w 5 5 = rn ∧
    field w 0 5 = 0b00000#5 := by
  refine ⟨?_, ?_, ?_, ?_, ?_⟩ <;>
    (apply BitVec.eq_of_getLsbD_eq; intro i hi; unfold field encBranchReg; rw [BitVec.getLsbD_extractLsb', bit_append]
     interval_cases i <;> (try simp only [bit_append]) <;> simp)

/-- The fixed bits of `encBranchReg`: its rows' mask and value. -/
theorem encBranchReg_fixed (rn : RegIdx) :
    encBranchReg rn &&& 0xFFFFFC1F = 0b1101011000011111000000#22 ++ 0#5 ++ 0b00000#5 := by
  apply BitVec.eq_of_getLsbD_eq
  intro i hi
  unfold encBranchReg
  rw [BitVec.getLsbD_and, bit_append]
  conv_rhs => rw [bit_append]
  interval_cases i <;> (try simp only [bit_append]) <;> simp

/-- The fields of `encBranchCond`. -/
theorem encBranchCond_fields (simm19 : BitVec 19) (cond : Cond) :
    let w := encBranchCond simm19 cond
    field w 29 3 = 0b010#3 ∧
    field w 25 4 = 0b1010#4 ∧
    field w 24 2 = 0b00#2 ∧
    field w 5 19 = simm19 ∧
    field w 4 1 = 0#1 ∧
    field w 0 4 = condBits cond := by
  refine ⟨?_, ?_, ?_, ?_, ?_, ?_⟩ <;>
    (apply BitVec.eq_of_getLsbD_eq; intro i hi; unfold field encBranchCond; rw [BitVec.getLsbD_extractLsb', bit_append]
     interval_cases i <;> (try simp only [bit_append]) <;> simp)

/-- The fixed bits of `encBranchCond`: its rows' mask and value. -/
theorem encBranchCond_fixed (simm19 : BitVec 19) (cond : Cond) :
    encBranchCond simm19 cond &&& 0xFF000010 = 0b01010100#8 ++ 0#19 ++ 0#1 ++ 0#4 := by
  apply BitVec.eq_of_getLsbD_eq
  intro i hi
  unfold encBranchCond
  rw [BitVec.getLsbD_and, bit_append]
  conv_rhs => rw [bit_append]
  interval_cases i <;> (try simp only [bit_append]) <;> simp

end Sys2Proof
end

