-- ==== Sys2Proof/Laws/Encode.lean ====
section
/-!
SUPPORT. The formats the other way round: a word with the fixed bits of a format is the encoder's word
of its own fields (30_encoding.md section 2, R103). A proof about encoding a decoded word cites these.
-/

namespace Sys2Proof

/-! ## Small fields -/

theorem sfBit_opSizeOf (b : BitVec 1) : sfBit (opSizeOf b) = b := by revert b; decide

theorem shiftBits_shiftKindOf (b : BitVec 2) : shiftBits (shiftKindOf b) = b := by revert b; decide

theorem ofBool_decide (b : BitVec 1) : BitVec.ofBool (decide (b = 1)) = b := by revert b; decide

theorem condBits_of_condOf {b : BitVec 4} {c : Cond} (h : condOf b = some c) : condBits c = b := by
  revert b c; decide

/-- A field that is a known number gives the word's bits. -/
theorem bit_of_field {w : Word} {lo len : Nat} {c : BitVec len} (h : field w lo len = c) (i : Nat) (hi : i < len) :
    w.getLsbD (lo + i) = c.getLsbD i := by
  rw [← h]; unfold field; simp [hi]

/-! ## The formats -/

/-- A word with the fixed bits of `encArithImm` is the format's word of its fields. -/
theorem encArithImm_of_fields {w : Word}
    (class1 : field w 25 4 = 0b1000 ∨ field w 25 4 = 0b1001) (opi : field w 23 3 = 0b010) :
    encArithImm (field w 29 2) (opSizeOf (field w 31 1)) (decide (field w 22 1 = 1)) (field w 10 12) (field w 5 5)
      (field w 0 5) = w := by
  have class1_1 : w[26] = false := by
    rcases class1 with h | h <;> simpa using bit_of_field h 1 (by decide)
  have class1_2 : w[27] = false := by
    rcases class1 with h | h <;> simpa using bit_of_field h 2 (by decide)
  have class1_3 : w[28] = true := by
    rcases class1 with h | h <;> simpa using bit_of_field h 3 (by decide)
  have opi_0 : w[23] = false := by simpa using bit_of_field opi 0 (by decide)
  have opi_1 : w[24] = true := by simpa using bit_of_field opi 1 (by decide)
  have opi_2 : w[25] = false := by simpa using bit_of_field opi 2 (by decide)
  apply BitVec.eq_of_getLsbD_eq
  intro i hi
  unfold encArithImm
  rw [bit_append]
  simp only [sfBit_opSizeOf, ofBool_decide]
  simp only [field]
  interval_cases i <;> (try simp only [bit_append]) <;>
    simp [
      class1_1, class1_2, class1_3, opi_0, opi_1, opi_2]

/-- A word with the fixed bits of `encMoveWide` is the format's word of its fields. -/
theorem encMoveWide_of_fields {w : Word}
    (class1 : field w 25 4 = 0b1000 ∨ field w 25 4 = 0b1001) (opi : field w 23 3 = 0b101) :
    encMoveWide (field w 29 2) (opSizeOf (field w 31 1)) (field w 21 2) (field w 5 16) (field w 0 5) = w := by
  have class1_1 : w[26] = false := by
    rcases class1 with h | h <;> simpa using bit_of_field h 1 (by decide)
  have class1_2 : w[27] = false := by
    rcases class1 with h | h <;> simpa using bit_of_field h 2 (by decide)
  have class1_3 : w[28] = true := by
    rcases class1 with h | h <;> simpa using bit_of_field h 3 (by decide)
  have opi_0 : w[23] = true := by simpa using bit_of_field opi 0 (by decide)
  have opi_1 : w[24] = false := by simpa using bit_of_field opi 1 (by decide)
  have opi_2 : w[25] = true := by simpa using bit_of_field opi 2 (by decide)
  apply BitVec.eq_of_getLsbD_eq
  intro i hi
  unfold encMoveWide
  rw [bit_append]
  simp only [sfBit_opSizeOf]
  simp only [field]
  interval_cases i <;> (try simp only [bit_append]) <;>
    simp [
      class1_1, class1_2, class1_3, opi_0, opi_1, opi_2]

/-- A word with the fixed bits of `encArithReg` is the format's word of its fields. -/
theorem encArithReg_of_fields {w : Word}
    (class1 : field w 25 4 = 0b0101 ∨ field w 25 4 = 0b1101) (b28 : field w 28 1 = 0)
    (b24 : field w 24 1 = 1) (b21 : field w 21 1 = 0) :
    encArithReg (field w 29 2) (opSizeOf (field w 31 1)) (shiftKindOf (field w 22 2)) (field w 16 5) (field w 10 6)
      (field w 5 5) (field w 0 5) = w := by
  have class1_0 : w[25] = true := by
    rcases class1 with h | h <;> simpa using bit_of_field h 0 (by decide)
  have class1_1 : w[26] = false := by
    rcases class1 with h | h <;> simpa using bit_of_field h 1 (by decide)
  have class1_2 : w[27] = true := by
    rcases class1 with h | h <;> simpa using bit_of_field h 2 (by decide)
  have b28_0 : w[28] = false := by simpa using bit_of_field b28 0 (by decide)
  have b24_0 : w[24] = true := by simpa using bit_of_field b24 0 (by decide)
  have b21_0 : w[21] = false := by simpa using bit_of_field b21 0 (by decide)
  apply BitVec.eq_of_getLsbD_eq
  intro i hi
  unfold encArithReg
  rw [bit_append]
  simp only [sfBit_opSizeOf, shiftBits_shiftKindOf]
  simp only [field]
  interval_cases i <;> (try simp only [bit_append]) <;>
    simp [
      class1_0, class1_1, class1_2, b28_0, b24_0, b21_0]

/-- A word with the fixed bits of `encLogical` is the format's word of its fields. -/
theorem encLogical_of_fields {w : Word}
    (class1 : field w 25 4 = 0b0101 ∨ field w 25 4 = 0b1101) (b28 : field w 28 1 = 0)
    (b24 : field w 24 1 = 0) :
    encLogical (field w 29 2) (field w 21 1) (opSizeOf (field w 31 1)) (shiftKindOf (field w 22 2)) (field w 16 5)
      (field w 10 6) (field w 5 5) (field w 0 5) = w := by
  have class1_0 : w[25] = true := by
    rcases class1 with h | h <;> simpa using bit_of_field h 0 (by decide)
  have class1_1 : w[26] = false := by
    rcases class1 with h | h <;> simpa using bit_of_field h 1 (by decide)
  have class1_2 : w[27] = true := by
    rcases class1 with h | h <;> simpa using bit_of_field h 2 (by decide)
  have b28_0 : w[28] = false := by simpa using bit_of_field b28 0 (by decide)
  have b24_0 : w[24] = false := by simpa using bit_of_field b24 0 (by decide)
  apply BitVec.eq_of_getLsbD_eq
  intro i hi
  unfold encLogical
  rw [bit_append]
  simp only [sfBit_opSizeOf, shiftBits_shiftKindOf]
  simp only [field]
  interval_cases i <;> (try simp only [bit_append]) <;>
    simp [
      class1_0, class1_1, class1_2, b28_0, b24_0]

/-- A word with the fixed bits of `encMultiply` is the format's word of its fields. -/
theorem encMultiply_of_fields {w : Word}
    (class1 : field w 25 4 = 0b0101 ∨ field w 25 4 = 0b1101) (b28 : field w 28 1 = 1)
    (opr : field w 21 4 = 0b1000) (opc : field w 29 2 = 0b00) :
    encMultiply (field w 15 1) (opSizeOf (field w 31 1)) (field w 16 5) (field w 10 5) (field w 5 5) (field w 0 5) = w := by
  have class1_0 : w[25] = true := by
    rcases class1 with h | h <;> simpa using bit_of_field h 0 (by decide)
  have class1_1 : w[26] = false := by
    rcases class1 with h | h <;> simpa using bit_of_field h 1 (by decide)
  have class1_2 : w[27] = true := by
    rcases class1 with h | h <;> simpa using bit_of_field h 2 (by decide)
  have b28_0 : w[28] = true := by simpa using bit_of_field b28 0 (by decide)
  have opr_0 : w[21] = false := by simpa using bit_of_field opr 0 (by decide)
  have opr_1 : w[22] = false := by simpa using bit_of_field opr 1 (by decide)
  have opr_2 : w[23] = false := by simpa using bit_of_field opr 2 (by decide)
  have opr_3 : w[24] = true := by simpa using bit_of_field opr 3 (by decide)
  have opc_0 : w[29] = false := by simpa using bit_of_field opc 0 (by decide)
  have opc_1 : w[30] = false := by simpa using bit_of_field opc 1 (by decide)
  apply BitVec.eq_of_getLsbD_eq
  intro i hi
  unfold encMultiply
  rw [bit_append]
  simp only [sfBit_opSizeOf]
  simp only [field]
  interval_cases i <;> (try simp only [bit_append]) <;>
    simp [
      class1_0, class1_1, class1_2, b28_0, opr_0, opr_1, opr_2, opr_3, opc_0, opc_1]

/-- A word with the fixed bits of `encUnsigned` is the format's word of its fields. -/
theorem encUnsigned_of_fields {w : Word}
    (b31 : field w 31 1 = 1) (fixed : field w 25 5 = 0b11100) (b23 : field w 23 1 = 0)
    (b24 : field w 24 1 = 1) :
    encUnsigned (field w 22 1) (opSizeOf (field w 30 1)) (field w 10 12) (field w 5 5) (field w 0 5) = w := by
  have b31_0 : w[31] = true := by simpa using bit_of_field b31 0 (by decide)
  have fixed_0 : w[25] = false := by simpa using bit_of_field fixed 0 (by decide)
  have fixed_1 : w[26] = false := by simpa using bit_of_field fixed 1 (by decide)
  have fixed_2 : w[27] = true := by simpa using bit_of_field fixed 2 (by decide)
  have fixed_3 : w[28] = true := by simpa using bit_of_field fixed 3 (by decide)
  have fixed_4 : w[29] = true := by simpa using bit_of_field fixed 4 (by decide)
  have b23_0 : w[23] = false := by simpa using bit_of_field b23 0 (by decide)
  have b24_0 : w[24] = true := by simpa using bit_of_field b24 0 (by decide)
  apply BitVec.eq_of_getLsbD_eq
  intro i hi
  unfold encUnsigned
  rw [bit_append]
  simp only [sfBit_opSizeOf]
  simp only [field]
  interval_cases i <;> (try simp only [bit_append]) <;>
    simp [
      b31_0, fixed_0, fixed_1, fixed_2, fixed_3, fixed_4, b23_0, b24_0]

/-- A word with the fixed bits of `encIndexed` is the format's word of its fields. -/
theorem encIndexed_of_fields {w : Word}
    (b31 : field w 31 1 = 1) (fixed : field w 25 5 = 0b11100) (b23 : field w 23 1 = 0)
    (b24 : field w 24 1 = 0) (b21 : field w 21 1 = 0) :
    encIndexed (field w 22 1) (field w 10 2) (opSizeOf (field w 30 1)) (field w 12 9) (field w 5 5) (field w 0 5) = w := by
  have b31_0 : w[31] = true := by simpa using bit_of_field b31 0 (by decide)
  have fixed_0 : w[25] = false := by simpa using bit_of_field fixed 0 (by decide)
  have fixed_1 : w[26] = false := by simpa using bit_of_field fixed 1 (by decide)
  have fixed_2 : w[27] = true := by simpa using bit_of_field fixed 2 (by decide)
  have fixed_3 : w[28] = true := by simpa using bit_of_field fixed 3 (by decide)
  have fixed_4 : w[29] = true := by simpa using bit_of_field fixed 4 (by decide)
  have b23_0 : w[23] = false := by simpa using bit_of_field b23 0 (by decide)
  have b24_0 : w[24] = false := by simpa using bit_of_field b24 0 (by decide)
  have b21_0 : w[21] = false := by simpa using bit_of_field b21 0 (by decide)
  apply BitVec.eq_of_getLsbD_eq
  intro i hi
  unfold encIndexed
  rw [bit_append]
  simp only [sfBit_opSizeOf]
  simp only [field]
  interval_cases i <;> (try simp only [bit_append]) <;>
    simp [
      b31_0, fixed_0, fixed_1, fixed_2, fixed_3, fixed_4, b23_0, b24_0, b21_0]

/-- A word with the fixed bits of `encRegOffset` is the format's word of its fields. -/
theorem encRegOffset_of_fields {w : Word}
    (b31 : field w 31 1 = 1) (fixed : field w 25 5 = 0b11100) (b23 : field w 23 1 = 0)
    (b24 : field w 24 1 = 0) (b21 : field w 21 1 = 1) (sub : field w 10 6 = 0b011010) :
    encRegOffset (field w 22 1) (opSizeOf (field w 30 1)) (field w 16 5) (field w 5 5) (field w 0 5) = w := by
  have b31_0 : w[31] = true := by simpa using bit_of_field b31 0 (by decide)
  have fixed_0 : w[25] = false := by simpa using bit_of_field fixed 0 (by decide)
  have fixed_1 : w[26] = false := by simpa using bit_of_field fixed 1 (by decide)
  have fixed_2 : w[27] = true := by simpa using bit_of_field fixed 2 (by decide)
  have fixed_3 : w[28] = true := by simpa using bit_of_field fixed 3 (by decide)
  have fixed_4 : w[29] = true := by simpa using bit_of_field fixed 4 (by decide)
  have b23_0 : w[23] = false := by simpa using bit_of_field b23 0 (by decide)
  have b24_0 : w[24] = false := by simpa using bit_of_field b24 0 (by decide)
  have b21_0 : w[21] = true := by simpa using bit_of_field b21 0 (by decide)
  have sub_0 : w[10] = false := by simpa using bit_of_field sub 0 (by decide)
  have sub_1 : w[11] = true := by simpa using bit_of_field sub 1 (by decide)
  have sub_2 : w[12] = false := by simpa using bit_of_field sub 2 (by decide)
  have sub_3 : w[13] = true := by simpa using bit_of_field sub 3 (by decide)
  have sub_4 : w[14] = true := by simpa using bit_of_field sub 4 (by decide)
  have sub_5 : w[15] = false := by simpa using bit_of_field sub 5 (by decide)
  apply BitVec.eq_of_getLsbD_eq
  intro i hi
  unfold encRegOffset
  rw [bit_append]
  simp only [sfBit_opSizeOf]
  simp only [field]
  interval_cases i <;> (try simp only [bit_append]) <;>
    simp [
      b31_0, fixed_0, fixed_1, fixed_2, fixed_3, fixed_4, b23_0, b24_0, b21_0, sub_0, sub_1, sub_2,
      sub_3, sub_4, sub_5]

/-- A word with the fixed bits of `encLiteral` is the format's word of its fields. -/
theorem encLiteral_of_fields {w : Word}
    (b31 : field w 31 1 = 0) (fixed : field w 24 6 = 0b011000) :
    encLiteral (opSizeOf (field w 30 1)) (field w 5 19) (field w 0 5) = w := by
  have b31_0 : w[31] = false := by simpa using bit_of_field b31 0 (by decide)
  have fixed_0 : w[24] = false := by simpa using bit_of_field fixed 0 (by decide)
  have fixed_1 : w[25] = false := by simpa using bit_of_field fixed 1 (by decide)
  have fixed_2 : w[26] = false := by simpa using bit_of_field fixed 2 (by decide)
  have fixed_3 : w[27] = true := by simpa using bit_of_field fixed 3 (by decide)
  have fixed_4 : w[28] = true := by simpa using bit_of_field fixed 4 (by decide)
  have fixed_5 : w[29] = false := by simpa using bit_of_field fixed 5 (by decide)
  apply BitVec.eq_of_getLsbD_eq
  intro i hi
  unfold encLiteral
  rw [bit_append]
  simp only [sfBit_opSizeOf]
  simp only [field]
  interval_cases i <;> (try simp only [bit_append]) <;>
    simp [
      b31_0, fixed_0, fixed_1, fixed_2, fixed_3, fixed_4, fixed_5]

/-- A word with the fixed bits of `encBranch` is the format's word of its fields. -/
theorem encBranch_of_fields {w : Word}
    (class1 : field w 25 4 = 0b1010 ∨ field w 25 4 = 0b1011) (sub : field w 29 3 = 0b000) :
    encBranch (field w 0 26) = w := by
  have class1_1 : w[26] = true := by
    rcases class1 with h | h <;> simpa using bit_of_field h 1 (by decide)
  have class1_2 : w[27] = false := by
    rcases class1 with h | h <;> simpa using bit_of_field h 2 (by decide)
  have class1_3 : w[28] = true := by
    rcases class1 with h | h <;> simpa using bit_of_field h 3 (by decide)
  have sub_0 : w[29] = false := by simpa using bit_of_field sub 0 (by decide)
  have sub_1 : w[30] = false := by simpa using bit_of_field sub 1 (by decide)
  have sub_2 : w[31] = false := by simpa using bit_of_field sub 2 (by decide)
  apply BitVec.eq_of_getLsbD_eq
  intro i hi
  unfold encBranch
  rw [bit_append]
  simp only [field]
  interval_cases i <;>
    simp [
      class1_1, class1_2, class1_3, sub_0, sub_1, sub_2]

/-- A word with the fixed bits of `encBranchReg` is the format's word of its fields. -/
theorem encBranchReg_of_fields {w : Word}
    (fixed : field w 10 22 = 0b1101011000011111000000) (low : field w 0 5 = 0b00000) :
    encBranchReg (field w 5 5) = w := by
  have fixed_0 : w[10] = false := by simpa using bit_of_field fixed 0 (by decide)
  have fixed_1 : w[11] = false := by simpa using bit_of_field fixed 1 (by decide)
  have fixed_2 : w[12] = false := by simpa using bit_of_field fixed 2 (by decide)
  have fixed_3 : w[13] = false := by simpa using bit_of_field fixed 3 (by decide)
  have fixed_4 : w[14] = false := by simpa using bit_of_field fixed 4 (by decide)
  have fixed_5 : w[15] = false := by simpa using bit_of_field fixed 5 (by decide)
  have fixed_6 : w[16] = true := by simpa using bit_of_field fixed 6 (by decide)
  have fixed_7 : w[17] = true := by simpa using bit_of_field fixed 7 (by decide)
  have fixed_8 : w[18] = true := by simpa using bit_of_field fixed 8 (by decide)
  have fixed_9 : w[19] = true := by simpa using bit_of_field fixed 9 (by decide)
  have fixed_10 : w[20] = true := by simpa using bit_of_field fixed 10 (by decide)
  have fixed_11 : w[21] = false := by simpa using bit_of_field fixed 11 (by decide)
  have fixed_12 : w[22] = false := by simpa using bit_of_field fixed 12 (by decide)
  have fixed_13 : w[23] = false := by simpa using bit_of_field fixed 13 (by decide)
  have fixed_14 : w[24] = false := by simpa using bit_of_field fixed 14 (by decide)
  have fixed_15 : w[25] = true := by simpa using bit_of_field fixed 15 (by decide)
  have fixed_16 : w[26] = true := by simpa using bit_of_field fixed 16 (by decide)
  have fixed_17 : w[27] = false := by simpa using bit_of_field fixed 17 (by decide)
  have fixed_18 : w[28] = true := by simpa using bit_of_field fixed 18 (by decide)
  have fixed_19 : w[29] = false := by simpa using bit_of_field fixed 19 (by decide)
  have fixed_20 : w[30] = true := by simpa using bit_of_field fixed 20 (by decide)
  have fixed_21 : w[31] = true := by simpa using bit_of_field fixed 21 (by decide)
  have low_0 : w[0] = false := by simpa using bit_of_field low 0 (by decide)
  have low_1 : w[1] = false := by simpa using bit_of_field low 1 (by decide)
  have low_2 : w[2] = false := by simpa using bit_of_field low 2 (by decide)
  have low_3 : w[3] = false := by simpa using bit_of_field low 3 (by decide)
  have low_4 : w[4] = false := by simpa using bit_of_field low 4 (by decide)
  apply BitVec.eq_of_getLsbD_eq
  intro i hi
  unfold encBranchReg
  rw [bit_append]
  simp only [field]
  interval_cases i <;> (try simp only [bit_append]) <;>
    simp [
      fixed_0, fixed_1, fixed_2, fixed_3, fixed_4, fixed_5, fixed_6, fixed_7, fixed_8, fixed_9,
      fixed_10, fixed_11, fixed_12, fixed_13, fixed_14, fixed_15, fixed_16, fixed_17, fixed_18,
      fixed_19, fixed_20, fixed_21, low_0, low_1, low_2, low_3, low_4]

/-- A word with the fixed bits of `encBranchCond` is the format's word of its fields. -/
theorem encBranchCond_of_fields {w : Word}
    {c : Cond} (hc : condOf (field w 0 4) = some c) (class1 : field w 25 4 = 0b1010 ∨ field w 25 4 = 0b1011)
    (sub : field w 29 3 = 0b010) (b24 : field w 24 2 = 0b00) (b4 : field w 4 1 = 0) :
    encBranchCond (field w 5 19) c = w := by
  have class1_1 : w[26] = true := by
    rcases class1 with h | h <;> simpa using bit_of_field h 1 (by decide)
  have class1_2 : w[27] = false := by
    rcases class1 with h | h <;> simpa using bit_of_field h 2 (by decide)
  have class1_3 : w[28] = true := by
    rcases class1 with h | h <;> simpa using bit_of_field h 3 (by decide)
  have sub_0 : w[29] = false := by simpa using bit_of_field sub 0 (by decide)
  have sub_1 : w[30] = true := by simpa using bit_of_field sub 1 (by decide)
  have sub_2 : w[31] = false := by simpa using bit_of_field sub 2 (by decide)
  have b24_0 : w[24] = false := by simpa using bit_of_field b24 0 (by decide)
  have b24_1 : w[25] = false := by simpa using bit_of_field b24 1 (by decide)
  have b4_0 : w[4] = false := by simpa using bit_of_field b4 0 (by decide)
  apply BitVec.eq_of_getLsbD_eq
  intro i hi
  unfold encBranchCond
  rw [bit_append]
  simp only [condBits_of_condOf hc]
  simp only [field]
  interval_cases i <;> (try simp only [bit_append]) <;>
    simp [
      class1_1, class1_2, class1_3, sub_0, sub_1, sub_2, b24_0, b24_1, b4_0]

end Sys2Proof
end

