-- ==== Sys2Proof/Laws/Memory.lean ====
section
/-!
SUPPORT. The laws of memory: reading after writing, the canonical form, little-endian access
(20_memory.md R50 to R53).
-/

namespace Sys2Proof.Machine

/-! ## One byte -/

theorem readByte_cellFor_append (a : Nat) (b : Byte) (m : Memory) (k : Nat) (hm : a = k → readByte m k = emptyByte) :
    readByte (cellFor a b ++ m) k = if a = k then b else readByte m k := by
  unfold cellFor
  split
  · rename_i hb
    split
    · rename_i hak
      simpa [hb] using hm hak
    · rfl
  · rfl

/-- Every address below the first listed one reads as unlisted. -/
theorem readByte_of_lt {lo : Nat} {m : Memory} (h : cellsFrom lo m = true) {k : Nat} (hk : k < lo) :
    readByte m k = emptyByte := by
  induction m generalizing lo with
  | nil => rfl
  | cons cell rest ih =>
    obtain ⟨a, b⟩ := cell
    simp only [cellsFrom, Bool.and_eq_true, decide_eq_true_eq] at h
    have hne : a ≠ k := by omega
    simp only [readByte, hne, if_false]
    exact ih h.2 (by omega)

theorem cellsFrom_mono {lo lo' : Nat} {m : Memory} (h : cellsFrom lo m = true) (hle : lo' ≤ lo) :
    cellsFrom lo' m = true := by
  cases m with
  | nil => rfl
  | cons cell rest =>
    simp only [cellsFrom, Bool.and_eq_true, decide_eq_true_eq] at h ⊢
    exact ⟨⟨by omega, h.1.2⟩, h.2⟩

/-- Reading any byte after one byte was written. -/
theorem readByte_writeByte {lo : Nat} {m : Memory} (h : cellsFrom lo m = true) (a : Nat) (b : Byte) (k : Nat) :
    readByte (writeByte m a b) k = if a = k then b else readByte m k := by
  induction m generalizing lo with
  | nil =>
    have := readByte_cellFor_append a b [] k (fun _ => rfl)
    simpa [writeByte] using this
  | cons cell rest ih =>
    obtain ⟨c, d⟩ := cell
    simp only [cellsFrom, Bool.and_eq_true, decide_eq_true_eq] at h
    obtain ⟨⟨hlo, hd⟩, hrest⟩ := h
    simp only [writeByte]
    split
    · rename_i hac
      apply readByte_cellFor_append
      rintro rfl
      have hne : c ≠ a := by omega
      simp only [readByte, hne, if_false]
      exact readByte_of_lt hrest (by omega)
    · split
      · rename_i hac
        subst hac
        rw [readByte_cellFor_append]
        · simp only [readByte]
          split <;> rfl
        · rintro rfl
          exact readByte_of_lt hrest (by omega)
      · rename_i hlt hne
        simp only [readByte, ih hrest]
        split
        · rename_i hck
          subst hck
          simp [hne]
        · rfl

/-- A write keeps the canonical form. -/
theorem cellsFrom_writeByte {lo : Nat} {m : Memory} (h : cellsFrom lo m = true) {a : Nat} (ha : lo ≤ a) (b : Byte) :
    cellsFrom lo (writeByte m a b) = true := by
  induction m generalizing lo with
  | nil =>
    simp only [writeByte, cellFor]
    split
    · rfl
    · rename_i hb
      simp [cellsFrom, ha, hb]
  | cons cell rest ih =>
    obtain ⟨c, d⟩ := cell
    simp only [cellsFrom, Bool.and_eq_true, decide_eq_true_eq] at h
    obtain ⟨⟨hlo, hd⟩, hrest⟩ := h
    simp only [writeByte]
    split
    · rename_i hac
      unfold cellFor
      split
      · simp [cellsFrom, hlo, hd, hrest]
      · rename_i hb
        simp only [List.cons_append, List.nil_append, cellsFrom, Bool.and_eq_true, decide_eq_true_eq]
        exact ⟨⟨ha, hb⟩, ⟨⟨by omega, hd⟩, hrest⟩⟩
    · split
      · rename_i hac
        subst hac
        unfold cellFor
        split
        · exact cellsFrom_mono hrest (by omega)
        · rename_i hb
          simp only [List.cons_append, List.nil_append, cellsFrom, Bool.and_eq_true, decide_eq_true_eq]
          exact ⟨⟨ha, hb⟩, hrest⟩
      · rename_i hlt hne
        simp only [cellsFrom, Bool.and_eq_true, decide_eq_true_eq]
        exact ⟨⟨hlo, hd⟩, ih hrest (by omega)⟩

/-- One byte written keeps the canonical form. -/
theorem writeByte_wf {m : Memory} (h : Memory.wf m = true) (a : Nat) (b : Byte) :
    Memory.wf (writeByte m a b) = true :=
  cellsFrom_writeByte h (Nat.zero_le a) b

/-- One existing byte written lists only existing bytes. -/
theorem writeByte_within {size : Nat} {m : Memory} (h : Memory.within size m = true) {a : Nat} (ha : a < size)
    (b : Byte) : Memory.within size (writeByte m a b) = true := by
  have hcell : ∀ cell ∈ cellFor a b, cell.1 < size := by
    unfold cellFor
    split <;> simp [ha]
  induction m with
  | nil =>
    simp only [Memory.within, List.all_eq_true, decide_eq_true_eq, writeByte]
    exact hcell
  | cons cell rest ih =>
    obtain ⟨c, d⟩ := cell
    simp only [Memory.within, List.all_cons, Bool.and_eq_true, decide_eq_true_eq] at h
    have hrest := h.2
    simp only [Memory.within, List.all_eq_true, decide_eq_true_eq] at ih hrest ⊢
    simp only [writeByte]
    split
    · simp only [List.mem_append, List.mem_cons]
      rintro x (hx | rfl | hx)
      · exact hcell x hx
      · exact h.1
      · exact hrest x hx
    · split
      · simp only [List.mem_append]
        rintro x (hx | hx)
        · exact hcell x hx
        · exact hrest x hx
      · simp only [List.mem_cons]
        rintro x (rfl | hx)
        · exact h.1
        · exact ih hrest x hx

/-- Two canonical memories that read the same everywhere are the same data. -/
theorem memory_ext {lo : Nat} {m m' : Memory} (h : cellsFrom lo m = true) (h' : cellsFrom lo m' = true)
    (hread : ∀ k, readByte m k = readByte m' k) : m = m' := by
  induction m generalizing lo m' with
  | nil =>
    cases m' with
    | nil => rfl
    | cons cell rest =>
      obtain ⟨a, b⟩ := cell
      simp only [cellsFrom, Bool.and_eq_true, decide_eq_true_eq] at h'
      have := hread a
      simp only [readByte, if_true] at this
      exact absurd this.symm h'.1.2
  | cons cell rest ih =>
    obtain ⟨a, b⟩ := cell
    simp only [cellsFrom, Bool.and_eq_true, decide_eq_true_eq] at h
    cases m' with
    | nil =>
      have := hread a
      simp only [readByte, if_true] at this
      exact absurd this h.1.2
    | cons cell' rest' =>
      obtain ⟨a', b'⟩ := cell'
      simp only [cellsFrom, Bool.and_eq_true, decide_eq_true_eq] at h'
      have haa : a = a' := by
        rcases Nat.lt_trichotomy a a' with hlt | heq | hgt
        · have hr := hread a
          have hne : a' ≠ a := by omega
          simp only [readByte, if_true, hne, if_false] at hr
          rw [readByte_of_lt h'.2 (by omega)] at hr
          exact absurd hr h.1.2
        · exact heq
        · have hr := hread a'
          have hne : a ≠ a' := by omega
          simp only [readByte, if_true, hne, if_false] at hr
          rw [readByte_of_lt h.2 (by omega)] at hr
          exact absurd hr.symm h'.1.2
      subst haa
      have hbb : b = b' := by
        have hr := hread a
        simpa [readByte] using hr
      subst hbb
      have hrest : rest = rest' := by
        apply ih h.2 h'.2
        intro k
        by_cases hk : a = k
        · subst hk
          rw [readByte_of_lt h.2 (by omega), readByte_of_lt h'.2 (by omega)]
        · have hr := hread k
          simpa [readByte, hk] using hr
      rw [hrest]

/-! ## Little-endian access -/

/-- Every write keeps the canonical form. -/
theorem writeLE_wf {w : Nat} {m : Memory} (h : Memory.wf m = true) (a n : Nat) (v : BitVec w) :
    Memory.wf (writeLE m a n v) = true := by
  induction n generalizing m a v with
  | zero => exact h
  | succ n ih => exact ih (writeByte_wf h a _) (a + 1) (v >>> 8)

/-- A write in bounds lists only existing bytes. -/
theorem writeLE_within {w : Nat} {size : Nat} {m : Memory} (h : Memory.within size m = true) {a n : Nat}
    (hb : a + n ≤ size) (v : BitVec w) : Memory.within size (writeLE m a n v) = true := by
  induction n generalizing m a v with
  | zero => exact h
  | succ n ih => exact ih (writeByte_within h (by omega) _) (by omega) (v >>> 8)

/-- What a byte reads as after a value was written (20_memory.md R53). -/
theorem readByte_writeLE {w : Nat} {m : Memory} (h : Memory.wf m = true) (a n : Nat) (v : BitVec w) (k : Nat) :
    readByte (writeLE m a n v) k =
      if a ≤ k ∧ k < a + n then v.extractLsb' (8 * (k - a)) 8 else readByte m k := by
  induction n generalizing m a v with
  | zero =>
    have : ¬(a ≤ k ∧ k < a + 0) := by omega
    simp only [this, if_false]
    rfl
  | succ n ih =>
    simp only [writeLE]
    rw [ih (writeByte_wf h a _), readByte_writeByte h]
    by_cases h1 : a + 1 ≤ k ∧ k < a + 1 + n
    · have h2 : a ≤ k ∧ k < a + (n + 1) := by omega
      simp only [h1, h2, and_self, if_true]
      ext i hi
      simp only [BitVec.getElem_extractLsb', BitVec.getLsbD_ushiftRight]
      congr 1
      omega
    · by_cases hak : a = k
      · subst hak
        have h2 : a ≤ a ∧ a < a + (n + 1) := by omega
        simp only [h1, h2, if_false, and_self, if_true]
        ext i hi
        simp
      · have h2 : ¬(a ≤ k ∧ k < a + (n + 1)) := by omega
        simp only [h1, h2, hak, if_false]

/-- Bit `i` of a little-endian value is bit `i % 8` of byte `i / 8` (20_memory.md R52). -/
theorem getLsbD_readLE (m : Memory) (a n i : Nat) (hi : i < 8 * n) :
    (readLE m a n).getLsbD i = (readByte m (a + i / 8)).getLsbD (i % 8) := by
  induction n generalizing a i with
  | zero => omega
  | succ n ih =>
    have key : (readLE m a (n + 1)).getLsbD i =
        (readLE m (a + 1) n ++ readByte m a : BitVec (8 * n + 8)).getLsbD i := rfl
    rw [key, BitVec.getLsbD_append]
    by_cases h : i < 8
    · have hd : i / 8 = 0 := by omega
      have hm : i % 8 = i := by omega
      simp [h, hd, hm]
    · have h1 := ih (a + 1) (i - 8) (by omega)
      have hd : a + 1 + (i - 8) / 8 = a + i / 8 := by omega
      have hm : (i - 8) % 8 = i % 8 := by omega
      rw [hd, hm] at h1
      simp [h, h1]

/-- Byte `k` of a little-endian value is the byte at `a + k` (20_memory.md R52). -/
theorem extract_readLE (m : Memory) (a n k : Nat) (hk : k < n) :
    (readLE m a n).extractLsb' (8 * k) 8 = readByte m (a + k) := by
  ext i hi
  rw [BitVec.getElem_extractLsb', getLsbD_readLE m a n (8 * k + i) (by omega)]
  have hd : (8 * k + i) / 8 = k := by omega
  have hm : (8 * k + i) % 8 = i := by omega
  rw [hd, hm, BitVec.getLsbD_eq_getElem hi]

/-- Two reads agree when the bytes agree. -/
theorem readLE_congr {m m' : Memory} {a n : Nat} (h : ∀ k, k < n → readByte m (a + k) = readByte m' (a + k)) :
    readLE m a n = readLE m' a n := by
  apply BitVec.eq_of_getLsbD_eq
  intro i hi
  rw [getLsbD_readLE m a n i hi, getLsbD_readLE m' a n i hi, h (i / 8) (by omega)]

/-- A value written is the value read (20_memory.md R52, R53). -/
theorem readLE_writeLE {w : Nat} {m : Memory} (h : Memory.wf m = true) (a n : Nat) (v : BitVec w) :
    readLE (writeLE m a n v) a n = v.setWidth (8 * n) := by
  apply BitVec.eq_of_getLsbD_eq
  intro i hi
  rw [getLsbD_readLE _ a n i hi, readByte_writeLE h]
  have hin : a ≤ a + i / 8 ∧ a + i / 8 < a + n := by omega
  have e : 8 * (a + i / 8 - a) + i % 8 = i := by omega
  simp only [hin, and_self, if_true, BitVec.getLsbD_extractLsb', BitVec.getLsbD_setWidth, e]
  have : i % 8 < 8 := by omega
  simp [hi, this]

/-! ## The image -/

theorem imageCells_from (a : Nat) (image : List Byte) : cellsFrom a (imageCells a image) = true := by
  induction image generalizing a with
  | nil => rfl
  | cons b rest ih =>
    simp only [imageCells, cellFor]
    split
    · exact cellsFrom_mono (ih (a + 1)) (by omega)
    · rename_i hb
      simp only [List.cons_append, List.nil_append, cellsFrom, Bool.and_eq_true, decide_eq_true_eq]
      exact ⟨⟨le_refl a, hb⟩, ih (a + 1)⟩

theorem imageCells_wf (a : Nat) (image : List Byte) : Memory.wf (imageCells a image) = true :=
  cellsFrom_mono (imageCells_from a image) (Nat.zero_le a)

theorem imageCells_within (a : Nat) (image : List Byte) :
    Memory.within (a + image.length) (imageCells a image) = true := by
  induction image generalizing a with
  | nil => rfl
  | cons b rest ih =>
    have h := ih (a + 1)
    simp only [Memory.within, List.all_eq_true, decide_eq_true_eq, List.length_cons] at h ⊢
    simp only [imageCells, List.mem_append]
    rintro x (hx | hx)
    · unfold cellFor at hx
      split at hx
      · simp at hx
      · simp only [List.mem_singleton] at hx
        subst hx
        show a < _
        omega
    · have := h x hx
      omega

/-- The loaded memory holds the image's bytes (20_memory.md R61). -/
theorem readByte_imageCells (a : Nat) (image : List Byte) (k : Nat) :
    readByte (imageCells a image) (a + k) = image.getD k 0 := by
  induction image generalizing a k with
  | nil => rfl
  | cons b rest ih =>
    have hfrom := imageCells_from (a + 1) rest
    simp only [imageCells]
    rw [readByte_cellFor_append]
    · cases k with
      | zero => simp
      | succ k =>
        have : a ≠ a + (k + 1) := by omega
        simp only [this, if_false]
        have e : a + (k + 1) = a + 1 + k := by omega
        rw [e, ih]
        simp
    · intro h
      exact readByte_of_lt hfrom (by omega)

/-- Memory right after reset is canonical. -/
theorem reset_mem_wf : Memory.wf State.reset.mem = true := rfl

end Sys2Proof.Machine
end

