-- ==== Sys2Proof/Laws/State.lean ====
section
/-!
SUPPORT. One lemma per field for every update of the state (Machine/Ops.lean), so that no proof unfolds
a record update.
-/

namespace Sys2Proof.Machine

/-! ## setFlags -/

@[simp] theorem setFlags_x (f : Flags) (s : State) : (setFlags f s).x = s.x := rfl
@[simp] theorem setFlags_pc (f : Flags) (s : State) : (setFlags f s).pc = s.pc := rfl
@[simp] theorem setFlags_flags (f : Flags) (s : State) : (setFlags f s).flags = f := rfl
@[simp] theorem setFlags_mem (f : Flags) (s : State) : (setFlags f s).mem = s.mem := rfl
@[simp] theorem setFlags_status (f : Flags) (s : State) : (setFlags f s).status = s.status := rfl
@[simp] theorem setFlags_cfg (f : Flags) (s : State) : (setFlags f s).cfg = s.cfg := rfl

/-! ## setPc -/

@[simp] theorem setPc_x (a : DWord) (s : State) : (setPc a s).x = s.x := rfl
@[simp] theorem setPc_pc (a : DWord) (s : State) : (setPc a s).pc = a := rfl
@[simp] theorem setPc_flags (a : DWord) (s : State) : (setPc a s).flags = s.flags := rfl
@[simp] theorem setPc_mem (a : DWord) (s : State) : (setPc a s).mem = s.mem := rfl
@[simp] theorem setPc_status (a : DWord) (s : State) : (setPc a s).status = s.status := rfl
@[simp] theorem setPc_cfg (a : DWord) (s : State) : (setPc a s).cfg = s.cfg := rfl

/-! ## advance -/

@[simp] theorem advance_x (s : State) : (advance s).x = s.x := rfl
@[simp] theorem advance_pc (s : State) : (advance s).pc = s.pc + 4 := rfl
@[simp] theorem advance_flags (s : State) : (advance s).flags = s.flags := rfl
@[simp] theorem advance_mem (s : State) : (advance s).mem = s.mem := rfl
@[simp] theorem advance_status (s : State) : (advance s).status = s.status := rfl
@[simp] theorem advance_cfg (s : State) : (advance s).cfg = s.cfg := rfl

/-! ## raise -/

@[simp] theorem raise_x (c : FatalCondition) (s : State) : (raise c s).x = s.x := rfl
@[simp] theorem raise_pc (c : FatalCondition) (s : State) : (raise c s).pc = s.pc := rfl
@[simp] theorem raise_flags (c : FatalCondition) (s : State) : (raise c s).flags = s.flags := rfl
@[simp] theorem raise_mem (c : FatalCondition) (s : State) : (raise c s).mem = s.mem := rfl
@[simp] theorem raise_status (c : FatalCondition) (s : State) : (raise c s).status = .faulted c := rfl
@[simp] theorem raise_cfg (c : FatalCondition) (s : State) : (raise c s).cfg = s.cfg := rfl

/-! ## haltCore -/

@[simp] theorem haltCore_x (s : State) : (haltCore s).x = s.x := rfl
@[simp] theorem haltCore_pc (s : State) : (haltCore s).pc = s.pc := rfl
@[simp] theorem haltCore_flags (s : State) : (haltCore s).flags = s.flags := rfl
@[simp] theorem haltCore_mem (s : State) : (haltCore s).mem = s.mem := rfl
@[simp] theorem haltCore_status (s : State) : (haltCore s).status = .halted := rfl
@[simp] theorem haltCore_cfg (s : State) : (haltCore s).cfg = s.cfg := rfl

/-! ## putBytes -/

@[simp] theorem putBytes_x {w : Nat} (ea : DWord) (n : Nat) (v : BitVec w) (s : State) : (putBytes ea n v s).x = s.x := rfl
@[simp] theorem putBytes_pc {w : Nat} (ea : DWord) (n : Nat) (v : BitVec w) (s : State) : (putBytes ea n v s).pc = s.pc := rfl
@[simp] theorem putBytes_flags {w : Nat} (ea : DWord) (n : Nat) (v : BitVec w) (s : State) : (putBytes ea n v s).flags = s.flags := rfl
@[simp] theorem putBytes_mem {w : Nat} (ea : DWord) (n : Nat) (v : BitVec w) (s : State) : (putBytes ea n v s).mem = writeLE s.mem ea.toNat n v := rfl
@[simp] theorem putBytes_status {w : Nat} (ea : DWord) (n : Nat) (v : BitVec w) (s : State) : (putBytes ea n v s).status = s.status := rfl
@[simp] theorem putBytes_cfg {w : Nat} (ea : DWord) (n : Nat) (v : BitVec w) (s : State) : (putBytes ea n v s).cfg = s.cfg := rfl

/-! ## writeXw: only the register file -/

@[simp] theorem writeXw_pc (w : Nat) (i : RegIdx) (v : BitVec w) (s : State) : (writeXw w i v s).pc = s.pc := by
  unfold writeXw; split <;> rfl
@[simp] theorem writeXw_flags (w : Nat) (i : RegIdx) (v : BitVec w) (s : State) : (writeXw w i v s).flags = s.flags := by
  unfold writeXw; split <;> rfl
@[simp] theorem writeXw_mem (w : Nat) (i : RegIdx) (v : BitVec w) (s : State) : (writeXw w i v s).mem = s.mem := by
  unfold writeXw; split <;> rfl
@[simp] theorem writeXw_status (w : Nat) (i : RegIdx) (v : BitVec w) (s : State) : (writeXw w i v s).status = s.status := by
  unfold writeXw; split <;> rfl
@[simp] theorem writeXw_cfg (w : Nat) (i : RegIdx) (v : BitVec w) (s : State) : (writeXw w i v s).cfg = s.cfg := by
  unfold writeXw; split <;> rfl
@[simp] theorem writeX_pc (i : RegIdx) (v : DWord) (s : State) : (writeX i v s).pc = s.pc := writeXw_pc 64 i v s
@[simp] theorem writeX_flags (i : RegIdx) (v : DWord) (s : State) : (writeX i v s).flags = s.flags := writeXw_flags 64 i v s
@[simp] theorem writeX_mem (i : RegIdx) (v : DWord) (s : State) : (writeX i v s).mem = s.mem := writeXw_mem 64 i v s
@[simp] theorem writeX_status (i : RegIdx) (v : DWord) (s : State) : (writeX i v s).status = s.status := writeXw_status 64 i v s
@[simp] theorem writeX_cfg (i : RegIdx) (v : DWord) (s : State) : (writeX i v s).cfg = s.cfg := writeXw_cfg 64 i v s

/-! ## Reset -/

@[simp] theorem resetWith_pc (cfg : Config) (m : Memory) : (State.resetWith cfg m).pc = resetPc := rfl
@[simp] theorem resetWith_flags (cfg : Config) (m : Memory) :
    (State.resetWith cfg m).flags = flagsOfVector cfg.resetNzcv := rfl
@[simp] theorem resetWith_mem (cfg : Config) (m : Memory) : (State.resetWith cfg m).mem = m := rfl
@[simp] theorem resetWith_status (cfg : Config) (m : Memory) : (State.resetWith cfg m).status = .running := rfl
@[simp] theorem resetWith_cfg (cfg : Config) (m : Memory) : (State.resetWith cfg m).cfg = cfg := rfl

/-! ## Reading a register after an update -/

/-- A read sees the register file only (10_state.md R23). -/
theorem readX_congr {s t : State} (h : t.x = s.x) (i : RegIdx) : readX i t = readX i s := by
  unfold readX; rw [h]

@[simp] theorem readX_setFlags (i : RegIdx) (f : Flags) (s : State) : readX i (setFlags f s) = readX i s := rfl
@[simp] theorem readX_setPc (i : RegIdx) (a : DWord) (s : State) : readX i (setPc a s) = readX i s := rfl
@[simp] theorem readX_advance (i : RegIdx) (s : State) : readX i (advance s) = readX i s := rfl
@[simp] theorem readX_raise (i : RegIdx) (c : FatalCondition) (s : State) : readX i (raise c s) = readX i s := rfl
@[simp] theorem readX_haltCore (i : RegIdx) (s : State) : readX i (haltCore s) = readX i s := rfl
@[simp] theorem readX_putBytes (i : RegIdx) {w : Nat} (ea : DWord) (n : Nat) (v : BitVec w) (s : State) : readX i (putBytes ea n v s) = readX i s := rfl

/-- The zero register reads 0 (10_state.md R22). -/
@[simp] theorem readX_zero (s : State) : readX 31#5 s = 0#64 := rfl

/-- Writing the zero register writes nothing (10_state.md R24). -/
@[simp] theorem writeXw_zero (w : Nat) (v : BitVec w) (s : State) : writeXw w 31#5 v s = s := rfl

@[simp] theorem writeX_zero (v : DWord) (s : State) : writeX 31#5 v s = s := rfl

/-- A 5-bit index below 31 is any index but the zero register's. -/
theorem index_lt_iff (i : RegIdx) : i.toNat < 31 ↔ i ≠ 31 := by
  constructor
  · rintro h rfl
    exact absurd h (by decide)
  · intro h
    have : i.toNat ≠ 31 := fun e => h (BitVec.eq_of_toNat_eq e)
    have := i.isLt
    omega

/-- What reading register `j` gives after register `i` was written at width `w` (10_state.md R23, R24). -/
theorem readX_writeXw (w : Nat) (i j : RegIdx) (v : BitVec w) (s : State) :
    readX j (writeXw w i v s) = if j = i ∧ j ≠ 31 then v.setWidth 64 else readX j s := by
  by_cases hi : i.toNat < 31
  · by_cases hj : j.toNat < 31
    · by_cases hij : j = i
      · subst hij
        have hne : j ≠ 31#5 := (index_lt_iff j).1 hj
        rw [if_pos ⟨rfl, hne⟩]
        simp [readX, writeXw, hj]
      · have hn : i.toNat ≠ j.toNat := fun e => hij (BitVec.eq_of_toNat_eq e.symm)
        simp [readX, writeXw, hi, hj, hij, hn]
    · have hj31 : j = 31 := by
        by_contra h
        exact hj ((index_lt_iff j).2 h)
      subst hj31
      simp
  · have hi31 : i = 31 := by
      by_contra h
      exact hi ((index_lt_iff i).2 h)
    subst hi31
    by_cases hj : j = 31
    · subst hj; simp
    · simp

theorem readX_writeX (i j : RegIdx) (v : DWord) (s : State) :
    readX j (writeX i v s) = if j = i ∧ j ≠ 31 then v else readX j s := by
  have h := readX_writeXw 64 i j v s
  simpa [writeX] using h

/-- Another register is not touched. -/
theorem readX_writeXw_of_ne {w : Nat} {i j : RegIdx} (h : j ≠ i) (v : BitVec w) (s : State) :
    readX j (writeXw w i v s) = readX j s := by
  rw [readX_writeXw]; simp [h]

end Sys2Proof.Machine
end

