-- ==== Sys2Proof/Laws/Ops.lean ====
section
/-!
SUPPORT. For each shared operation, once, everything it can do: a proof cites these instead of unfolding
the operation.
-/

namespace Sys2Proof.Machine

/-! ## Data accesses (20_memory.md R51, R57) -/

/-- An access raises nothing exactly when it is allowed. -/
theorem dataFault_eq_none_iff (ea : DWord) (n : Nat) (s : State) :
    dataFault ea n s = none ↔ AccessAllowed s ea n := by
  unfold dataFault AccessAllowed inBounds misaligned
  by_cases hb : ea.toNat + n ≤ s.cfg.memSize
  · cases hm : s.cfg.misalignedData <;> by_cases ha : ea.toNat % n = 0 <;> simp [hb, ha]
  · simp [hb]

/-- The condition an access raises: bounds first, then alignment. -/
theorem dataFault_eq_some {ea : DWord} {n : Nat} {s : State} {c : FatalCondition} (h : dataFault ea n s = some c) :
    (s.cfg.memSize < ea.toNat + n ∧ c = .outOfBoundsAccess ea n s.pc) ∨
    (ea.toNat + n ≤ s.cfg.memSize ∧ s.cfg.misalignedData = .fault ∧ ea.toNat % n ≠ 0 ∧
      c = .misalignedData ea n s.pc) := by
  unfold dataFault inBounds misaligned at h
  split at h
  · rename_i hb
    simp only [decide_eq_false_iff_not, Nat.not_le] at hb
    exact .inl ⟨hb, (Option.some.inj h).symm⟩
  · rename_i hb
    simp only [decide_eq_false_iff_not, not_not] at hb
    split at h
    · rename_i hm
      simp only [Bool.and_eq_true, decide_eq_true_eq] at hm
      exact .inr ⟨hb, hm.1, hm.2, (Option.some.inj h).symm⟩
    · cases h

theorem loadData_of_allowed {ea : DWord} {n : Nat} {s : State} (h : AccessAllowed s ea n) :
    loadData ea n s = .ok (readLE s.mem ea.toNat n) := by
  unfold loadData; rw [(dataFault_eq_none_iff ea n s).2 h]

theorem storeData_of_allowed {w : Nat} {ea : DWord} {n : Nat} {s : State} (h : AccessAllowed s ea n) (v : BitVec w) :
    storeData ea n v s = .ok (putBytes ea n v s) := by
  unfold storeData; rw [(dataFault_eq_none_iff ea n s).2 h]

/-- Everything a load can do: end the step with a condition, or finish and advance. -/
theorem loadThen_cases {ea : DWord} {n : Nat} {finish : BitVec (8 * n) → State → State} {s t : State}
    (h : loadThen ea n finish s = .next t) :
    (∃ c, dataFault ea n s = some c ∧ t = raise c s) ∨
    (dataFault ea n s = none ∧ t = advance (finish (readLE s.mem ea.toNat n) s)) := by
  unfold loadThen loadData at h
  cases hf : dataFault ea n s with
  | some c =>
    rw [hf] at h
    exact .inl ⟨c, rfl, (Host.Outcome.next.inj h).symm⟩
  | none =>
    rw [hf] at h
    exact .inr ⟨rfl, (Host.Outcome.next.inj h).symm⟩

/-- Everything a store can do: end the step with a condition, or write its bytes, finish and advance. -/
theorem storeThen_cases {ea : DWord} {n : Nat} {rt : RegIdx} {finish : State → State} {s t : State}
    (h : storeThen ea n rt finish s = .next t) :
    (∃ c, dataFault ea n s = some c ∧ t = raise c s) ∨
    (dataFault ea n s = none ∧ t = advance (finish (putBytes ea n (readXw (8 * n) rt s) s))) := by
  unfold storeThen storeData at h
  cases hf : dataFault ea n s with
  | some c =>
    rw [hf] at h
    exact .inl ⟨c, rfl, (Host.Outcome.next.inj h).symm⟩
  | none =>
    rw [hf] at h
    exact .inr ⟨rfl, (Host.Outcome.next.inj h).symm⟩

theorem loadThen_of_allowed {ea : DWord} {n : Nat} {s : State} (h : AccessAllowed s ea n)
    (finish : BitVec (8 * n) → State → State) :
    loadThen ea n finish s = .next (advance (finish (readLE s.mem ea.toNat n) s)) := by
  unfold loadThen; rw [loadData_of_allowed h]

theorem storeThen_of_allowed {ea : DWord} {n : Nat} {s : State} (h : AccessAllowed s ea n) (rt : RegIdx)
    (finish : State → State) :
    storeThen ea n rt finish s = .next (advance (finish (putBytes ea n (readXw (8 * n) rt s) s))) := by
  unfold storeThen; rw [storeData_of_allowed h]

theorem loadThen_of_fault {ea : DWord} {n : Nat} {s : State} {c : FatalCondition} (h : dataFault ea n s = some c)
    (finish : BitVec (8 * n) → State → State) : loadThen ea n finish s = .next (raise c s) := by
  unfold loadThen loadData; rw [h]

theorem storeThen_of_fault {ea : DWord} {n : Nat} {s : State} {c : FatalCondition} (h : dataFault ea n s = some c)
    (rt : RegIdx) (finish : State → State) : storeThen ea n rt finish s = .next (raise c s) := by
  unfold storeThen storeData; rw [h]

/-! ## Fetch (20_memory.md R55, R58) -/

/-- A fetch raises nothing exactly when `pc` is aligned and its word in bounds. -/
theorem fetchFault_eq_none_iff (s : State) :
    fetchFault s = none ↔ s.pc.toNat % 4 = 0 ∧ s.pc.toNat + 4 ≤ s.cfg.memSize := by
  unfold fetchFault inBounds
  by_cases ha : s.pc.toNat % 4 = 0 <;> by_cases hb : s.pc.toNat + 4 ≤ s.cfg.memSize <;> simp [ha, hb]

/-- The condition a fetch raises: alignment first, then bounds. -/
theorem fetchFault_eq_some {s : State} {c : FatalCondition} (h : fetchFault s = some c) :
    (s.pc.toNat % 4 ≠ 0 ∧ c = .misalignedFetch s.pc) ∨
    (s.pc.toNat % 4 = 0 ∧ s.cfg.memSize < s.pc.toNat + 4 ∧ c = .outOfBoundsAccess s.pc 4 s.pc) := by
  unfold fetchFault inBounds at h
  split at h
  · exact .inl ⟨by assumption, (Option.some.inj h).symm⟩
  · split at h
    · rename_i ha hb
      simp only [decide_eq_false_iff_not, Nat.not_le] at hb
      exact .inr ⟨by omega, hb, (Option.some.inj h).symm⟩
    · cases h

theorem fetchWord_eq_ok_iff (s : State) (w : Word) :
    fetchWord s = .ok w ↔ fetchFault s = none ∧ readLE s.mem s.pc.toNat 4 = w := by
  unfold fetchWord
  cases fetchFault s <;> simp

theorem fetchWord_eq_error_iff (s : State) (c : FatalCondition) :
    fetchWord s = .error c ↔ fetchFault s = some c := by
  unfold fetchWord
  cases fetchFault s <;> simp

/-! ## The arithmetic and logic unit (40_alu.md) -/

/-- The sum is the wrapped sum (40_alu.md R133). -/
@[simp] theorem addFlags_result {w : Nat} (a b : BitVec w) : (addFlags a b).1 = a + b := by
  simp [addFlags, BitVec.ofNat_add]

/-- The flags of a sum, one by one (40_alu.md R131). -/
theorem addFlags_flags {w : Nat} (a b : BitVec w) :
    (addFlags a b).2 =
      { n := (a + b).msb, z := decide (a + b = 0), c := decide (2 ^ w ≤ a.toNat + b.toNat),
        v := decide (a.msb = b.msb) && decide ((a + b).msb ≠ a.msb) } := by
  simp [addFlags, BitVec.ofNat_add]

/-- The difference is the wrapped difference (40_alu.md R133). -/
@[simp] theorem subFlags_result {w : Nat} (a b : BitVec w) : (subFlags a b).1 = a - b := rfl

/-- A shift by 0 returns the value unchanged (40_alu.md R135). -/
theorem shiftValue_zero {w : Nat} (kind : ShiftKind) (v : BitVec w) : shiftValue kind v 0 = v := by
  cases kind
  · simp [shiftValue]
  · simp [shiftValue]
  · apply BitVec.eq_of_getLsbD_eq
    intro i hi
    simp [shiftValue, BitVec.getLsbD_signExtend, hi]
    omega
  · simp [shiftValue]

/-- Bit `i` of a shifted value, for an amount below the width (40_alu.md R135). -/
theorem getLsbD_shiftValue {w : Nat} (kind : ShiftKind) (v : BitVec w) (n i : Nat) (hn : n < w) (hi : i < w) :
    (shiftValue kind v n).getLsbD i =
      match kind with
      | .lsl => decide (n ≤ i) && v.getLsbD (i - n)
      | .lsr => v.getLsbD (i + n)
      | .asr => if i + n < w then v.getLsbD (i + n) else v.msb
      | .ror => if i + n < w then v.getLsbD (i + n) else v.getLsbD (i + n - w) := by
  cases kind
  · by_cases h : i < n
    · have hle : ¬ n ≤ i := by omega
      simp [shiftValue, h, hle]
    · have hle : n ≤ i := by omega
      simp [shiftValue, h, hle, hi, BitVec.getLsbD_eq_getElem (show i - n < w by omega)]
  · simp [shiftValue, Nat.add_comm]
  · simp only [shiftValue, BitVec.getLsbD_setWidth, BitVec.getLsbD_ushiftRight, BitVec.getLsbD_signExtend]
    have h2 : n + i < 2 * w := by omega
    simp [hi, h2, Nat.add_comm]
  · simp only [shiftValue, BitVec.getLsbD_or, BitVec.getLsbD_ushiftRight, BitVec.getLsbD_shiftLeft]
    by_cases h : i + n < w
    · have h1 : i < w - n := by omega
      have h2 : n + i < w := by omega
      simp [h1, Nat.add_comm i n, h2]
    · have h1 : ¬ i < w - n := by omega
      have h2 : i - (w - n) = i + n - w := by omega
      have h3 : v.getLsbD (n + i) = false := BitVec.getLsbD_of_ge v (n + i) (by omega)
      simp [h, h1, h2, h3, hi]

end Sys2Proof.Machine
end

