-- ==== Sys2Proof/Laws/PerInstr.lean ====
section
/-!
SUPPORT. Statements made for every instruction, one lemma per constructor of `Instr`.

`FixedBits`: the word of an instruction carries the fixed bits of its row of spec/opcode_table.json.
-/

namespace Sys2Proof.Laws

/-- The row of an instruction in `opcodeTable`, found by its mnemonic; HALT has none there. -/
def rowOf (i : Instr) : Option OpcodeRow := opcodeTable.find? fun row => row.mnemonic == i.mnemonic

/-- The masked word of an instruction is its row's value. -/
def FixedBits.Statement (i : Instr) : Prop :=
  ∀ cfg : Config, i = .halt ∨ ∃ row, rowOf i = some row ∧ encode cfg i &&& row.mask = row.value

theorem FixedBits.addImm (sf : OpSize) (sh : Bool) (imm12 : BitVec 12) (rn rd : RegIdx) :
    FixedBits.Statement (.addImm sf sh imm12 rn rd) :=
  fun _ => .inr ⟨⟨"ADD__immediate", 0x11000000, 0x7F800000, .unconstrained⟩, rfl,
    (encArithImm_fixed 0b00 sf sh imm12 rn rd).trans (by decide)⟩

theorem FixedBits.addsImm (sf : OpSize) (sh : Bool) (imm12 : BitVec 12) (rn rd : RegIdx) :
    FixedBits.Statement (.addsImm sf sh imm12 rn rd) :=
  fun _ => .inr ⟨⟨"ADDS__immediate", 0x31000000, 0x7F800000, .unconstrained⟩, rfl,
    (encArithImm_fixed 0b01 sf sh imm12 rn rd).trans (by decide)⟩

theorem FixedBits.subImm (sf : OpSize) (sh : Bool) (imm12 : BitVec 12) (rn rd : RegIdx) :
    FixedBits.Statement (.subImm sf sh imm12 rn rd) :=
  fun _ => .inr ⟨⟨"SUB__immediate", 0x51000000, 0x7F800000, .unconstrained⟩, rfl,
    (encArithImm_fixed 0b10 sf sh imm12 rn rd).trans (by decide)⟩

theorem FixedBits.subsImm (sf : OpSize) (sh : Bool) (imm12 : BitVec 12) (rn rd : RegIdx) :
    FixedBits.Statement (.subsImm sf sh imm12 rn rd) :=
  fun _ => .inr ⟨⟨"SUBS__immediate", 0x71000000, 0x7F800000, .unconstrained⟩, rfl,
    (encArithImm_fixed 0b11 sf sh imm12 rn rd).trans (by decide)⟩

theorem FixedBits.movn (sf : OpSize) (hw : BitVec 2) (imm16 : BitVec 16) (rd : RegIdx) :
    FixedBits.Statement (.movn sf hw imm16 rd) :=
  fun _ => .inr ⟨⟨"MOVN", 0x12800000, 0x7F800000, .position⟩, rfl,
    (encMoveWide_fixed 0b00 sf hw imm16 rd).trans (by decide)⟩

theorem FixedBits.movz (sf : OpSize) (hw : BitVec 2) (imm16 : BitVec 16) (rd : RegIdx) :
    FixedBits.Statement (.movz sf hw imm16 rd) :=
  fun _ => .inr ⟨⟨"MOVZ", 0x52800000, 0x7F800000, .position⟩, rfl,
    (encMoveWide_fixed 0b10 sf hw imm16 rd).trans (by decide)⟩

theorem FixedBits.movk (sf : OpSize) (hw : BitVec 2) (imm16 : BitVec 16) (rd : RegIdx) :
    FixedBits.Statement (.movk sf hw imm16 rd) :=
  fun _ => .inr ⟨⟨"MOVK", 0x72800000, 0x7F800000, .position⟩, rfl,
    (encMoveWide_fixed 0b11 sf hw imm16 rd).trans (by decide)⟩

theorem FixedBits.addReg (sf : OpSize) (shift : ShiftKind) (rm : RegIdx) (imm6 : BitVec 6) (rn rd : RegIdx) :
    FixedBits.Statement (.addReg sf shift rm imm6 rn rd) :=
  fun _ => .inr ⟨⟨"ADD__shifted_register", 0x0B000000, 0x7F200000, .arithmeticShift⟩, rfl,
    (encArithReg_fixed 0b00 sf shift rm imm6 rn rd).trans (by decide)⟩

theorem FixedBits.addsReg (sf : OpSize) (shift : ShiftKind) (rm : RegIdx) (imm6 : BitVec 6) (rn rd : RegIdx) :
    FixedBits.Statement (.addsReg sf shift rm imm6 rn rd) :=
  fun _ => .inr ⟨⟨"ADDS__shifted_register", 0x2B000000, 0x7F200000, .arithmeticShift⟩, rfl,
    (encArithReg_fixed 0b01 sf shift rm imm6 rn rd).trans (by decide)⟩

theorem FixedBits.subReg (sf : OpSize) (shift : ShiftKind) (rm : RegIdx) (imm6 : BitVec 6) (rn rd : RegIdx) :
    FixedBits.Statement (.subReg sf shift rm imm6 rn rd) :=
  fun _ => .inr ⟨⟨"SUB__shifted_register", 0x4B000000, 0x7F200000, .arithmeticShift⟩, rfl,
    (encArithReg_fixed 0b10 sf shift rm imm6 rn rd).trans (by decide)⟩

theorem FixedBits.subsReg (sf : OpSize) (shift : ShiftKind) (rm : RegIdx) (imm6 : BitVec 6) (rn rd : RegIdx) :
    FixedBits.Statement (.subsReg sf shift rm imm6 rn rd) :=
  fun _ => .inr ⟨⟨"SUBS__shifted_register", 0x6B000000, 0x7F200000, .arithmeticShift⟩, rfl,
    (encArithReg_fixed 0b11 sf shift rm imm6 rn rd).trans (by decide)⟩

theorem FixedBits.andReg (sf : OpSize) (shift : ShiftKind) (rm : RegIdx) (imm6 : BitVec 6) (rn rd : RegIdx) :
    FixedBits.Statement (.andReg sf shift rm imm6 rn rd) :=
  fun _ => .inr ⟨⟨"AND__shifted_register", 0x0A000000, 0x7F200000, .logicalShift⟩, rfl,
    (encLogical_fixed 0b00 0 sf shift rm imm6 rn rd).trans (by decide)⟩

theorem FixedBits.bicReg (sf : OpSize) (shift : ShiftKind) (rm : RegIdx) (imm6 : BitVec 6) (rn rd : RegIdx) :
    FixedBits.Statement (.bicReg sf shift rm imm6 rn rd) :=
  fun _ => .inr ⟨⟨"BIC__shifted_register", 0x0A200000, 0x7F200000, .logicalShift⟩, rfl,
    (encLogical_fixed 0b00 1 sf shift rm imm6 rn rd).trans (by decide)⟩

theorem FixedBits.orrReg (sf : OpSize) (shift : ShiftKind) (rm : RegIdx) (imm6 : BitVec 6) (rn rd : RegIdx) :
    FixedBits.Statement (.orrReg sf shift rm imm6 rn rd) :=
  fun _ => .inr ⟨⟨"ORR__shifted_register", 0x2A000000, 0x7F200000, .logicalShift⟩, rfl,
    (encLogical_fixed 0b01 0 sf shift rm imm6 rn rd).trans (by decide)⟩

theorem FixedBits.ornReg (sf : OpSize) (shift : ShiftKind) (rm : RegIdx) (imm6 : BitVec 6) (rn rd : RegIdx) :
    FixedBits.Statement (.ornReg sf shift rm imm6 rn rd) :=
  fun _ => .inr ⟨⟨"ORN__shifted_register", 0x2A200000, 0x7F200000, .logicalShift⟩, rfl,
    (encLogical_fixed 0b01 1 sf shift rm imm6 rn rd).trans (by decide)⟩

theorem FixedBits.eorReg (sf : OpSize) (shift : ShiftKind) (rm : RegIdx) (imm6 : BitVec 6) (rn rd : RegIdx) :
    FixedBits.Statement (.eorReg sf shift rm imm6 rn rd) :=
  fun _ => .inr ⟨⟨"EOR__shifted_register", 0x4A000000, 0x7F200000, .logicalShift⟩, rfl,
    (encLogical_fixed 0b10 0 sf shift rm imm6 rn rd).trans (by decide)⟩

theorem FixedBits.eonReg (sf : OpSize) (shift : ShiftKind) (rm : RegIdx) (imm6 : BitVec 6) (rn rd : RegIdx) :
    FixedBits.Statement (.eonReg sf shift rm imm6 rn rd) :=
  fun _ => .inr ⟨⟨"EON__shifted_register", 0x4A200000, 0x7F200000, .logicalShift⟩, rfl,
    (encLogical_fixed 0b10 1 sf shift rm imm6 rn rd).trans (by decide)⟩

theorem FixedBits.andsReg (sf : OpSize) (shift : ShiftKind) (rm : RegIdx) (imm6 : BitVec 6) (rn rd : RegIdx) :
    FixedBits.Statement (.andsReg sf shift rm imm6 rn rd) :=
  fun _ => .inr ⟨⟨"ANDS__shifted_register", 0x6A000000, 0x7F200000, .logicalShift⟩, rfl,
    (encLogical_fixed 0b11 0 sf shift rm imm6 rn rd).trans (by decide)⟩

theorem FixedBits.bicsReg (sf : OpSize) (shift : ShiftKind) (rm : RegIdx) (imm6 : BitVec 6) (rn rd : RegIdx) :
    FixedBits.Statement (.bicsReg sf shift rm imm6 rn rd) :=
  fun _ => .inr ⟨⟨"BICS__shifted_register", 0x6A200000, 0x7F200000, .logicalShift⟩, rfl,
    (encLogical_fixed 0b11 1 sf shift rm imm6 rn rd).trans (by decide)⟩

theorem FixedBits.madd (sf : OpSize) (rm ra rn rd : RegIdx) :
    FixedBits.Statement (.madd sf rm ra rn rd) :=
  fun _ => .inr ⟨⟨"MADD", 0x1B000000, 0x7FE08000, .unconstrained⟩, rfl,
    (encMultiply_fixed 0 sf rm ra rn rd).trans (by decide)⟩

theorem FixedBits.msub (sf : OpSize) (rm ra rn rd : RegIdx) :
    FixedBits.Statement (.msub sf rm ra rn rd) :=
  fun _ => .inr ⟨⟨"MSUB", 0x1B008000, 0x7FE08000, .unconstrained⟩, rfl,
    (encMultiply_fixed 1 sf rm ra rn rd).trans (by decide)⟩

theorem FixedBits.ldrUnsigned (sf : OpSize) (imm12 : BitVec 12) (rn rt : RegIdx) :
    FixedBits.Statement (.ldrUnsigned sf imm12 rn rt) :=
  fun _ => .inr ⟨⟨"LDR__unsigned_offset", 0xB9400000, 0xBFC00000, .unconstrained⟩, rfl,
    (encUnsigned_fixed 1 sf imm12 rn rt).trans (by decide)⟩

theorem FixedBits.strUnsigned (sf : OpSize) (imm12 : BitVec 12) (rn rt : RegIdx) :
    FixedBits.Statement (.strUnsigned sf imm12 rn rt) :=
  fun _ => .inr ⟨⟨"STR__unsigned_offset", 0xB9000000, 0xBFC00000, .unconstrained⟩, rfl,
    (encUnsigned_fixed 0 sf imm12 rn rt).trans (by decide)⟩

theorem FixedBits.ldrPre (sf : OpSize) (simm9 : BitVec 9) (rn rt : RegIdx) :
    FixedBits.Statement (.ldrPre sf simm9 rn rt) :=
  fun _ => .inr ⟨⟨"LDR__pre-indexed", 0xB8400C00, 0xBFE00C00, .noOverlap⟩, rfl,
    (encIndexed_fixed 1 0b11 sf simm9 rn rt).trans (by decide)⟩

theorem FixedBits.strPre (sf : OpSize) (simm9 : BitVec 9) (rn rt : RegIdx) :
    FixedBits.Statement (.strPre sf simm9 rn rt) :=
  fun _ => .inr ⟨⟨"STR__pre-indexed", 0xB8000C00, 0xBFE00C00, .noOverlap⟩, rfl,
    (encIndexed_fixed 0 0b11 sf simm9 rn rt).trans (by decide)⟩

theorem FixedBits.ldrPost (sf : OpSize) (simm9 : BitVec 9) (rn rt : RegIdx) :
    FixedBits.Statement (.ldrPost sf simm9 rn rt) :=
  fun _ => .inr ⟨⟨"LDR__post-indexed", 0xB8400400, 0xBFE00C00, .noOverlap⟩, rfl,
    (encIndexed_fixed 1 0b01 sf simm9 rn rt).trans (by decide)⟩

theorem FixedBits.strPost (sf : OpSize) (simm9 : BitVec 9) (rn rt : RegIdx) :
    FixedBits.Statement (.strPost sf simm9 rn rt) :=
  fun _ => .inr ⟨⟨"STR__post-indexed", 0xB8000400, 0xBFE00C00, .noOverlap⟩, rfl,
    (encIndexed_fixed 0 0b01 sf simm9 rn rt).trans (by decide)⟩

theorem FixedBits.ldrReg (sf : OpSize) (rm rn rt : RegIdx) :
    FixedBits.Statement (.ldrReg sf rm rn rt) :=
  fun _ => .inr ⟨⟨"LDR__register_offset", 0xB8606800, 0xBFE0FC00, .unconstrained⟩, rfl,
    (encRegOffset_fixed 1 sf rm rn rt).trans (by decide)⟩

theorem FixedBits.strReg (sf : OpSize) (rm rn rt : RegIdx) :
    FixedBits.Statement (.strReg sf rm rn rt) :=
  fun _ => .inr ⟨⟨"STR__register_offset", 0xB8206800, 0xBFE0FC00, .unconstrained⟩, rfl,
    (encRegOffset_fixed 0 sf rm rn rt).trans (by decide)⟩

theorem FixedBits.ldrLit (sf : OpSize) (simm19 : BitVec 19) (rt : RegIdx) :
    FixedBits.Statement (.ldrLit sf simm19 rt) :=
  fun _ => .inr ⟨⟨"LDR__literal", 0x18000000, 0xBF000000, .unconstrained⟩, rfl,
    (encLiteral_fixed sf simm19 rt).trans (by decide)⟩

theorem FixedBits.b (simm26 : BitVec 26) :
    FixedBits.Statement (.b simm26) :=
  fun _ => .inr ⟨⟨"B", 0x14000000, 0xFC000000, .unconstrained⟩, rfl,
    (encBranch_fixed simm26).trans (by decide)⟩

theorem FixedBits.br (rn : RegIdx) :
    FixedBits.Statement (.br rn) :=
  fun _ => .inr ⟨⟨"BR", 0xD61F0000, 0xFFFFFC1F, .unconstrained⟩, rfl,
    (encBranchReg_fixed rn).trans (by decide)⟩

theorem FixedBits.bCond (simm19 : BitVec 19) (cond : Cond) :
    FixedBits.Statement (.bCond simm19 cond) :=
  fun _ => .inr ⟨⟨"B.cond", 0x54000000, 0xFF000010, .knownCondition⟩, rfl,
    (encBranchCond_fixed simm19 cond).trans (by decide)⟩

theorem FixedBits.halt : FixedBits.Statement .halt := fun _ => .inl rfl

end Sys2Proof.Laws
end

