-- ==== Sys2Proof/Laws/Step.lean ====
section
/-!
SUPPORT. What one step can do, said once.
-/

namespace Sys2Proof.Machine

/-- The effect of an executed instruction is always a next state: every instruction of the opcode table
has its meaning, and none ends in a fault or a refusal. -/
theorem exec_next (i : Instr) (s : State) : ∃ t, exec i s = .next t := by
  have hload : ∀ (ea : DWord) (n : Nat) (finish : BitVec (8 * n) → State → State), ∃ t, loadThen ea n finish s = .next t := by
    intro ea n finish
    cases h : dataFault ea n s with
    | some c => exact ⟨_, loadThen_of_fault h finish⟩
    | none => exact ⟨_, loadThen_of_allowed ((dataFault_eq_none_iff ea n s).1 h) finish⟩
  have hstore : ∀ (ea : DWord) (n : Nat) (rt : RegIdx) (finish : State → State), ∃ t, storeThen ea n rt finish s = .next t := by
    intro ea n rt finish
    cases h : dataFault ea n s with
    | some c => exact ⟨_, storeThen_of_fault h rt finish⟩
    | none => exact ⟨_, storeThen_of_allowed ((dataFault_eq_none_iff ea n s).1 h) rt finish⟩
  cases i with
  | ldrUnsigned => exact hload _ _ _
  | strUnsigned => exact hstore _ _ _ _
  | ldrPre => simp only [exec, execLdrPre]; exact hload _ _ _
  | strPre => exact hstore _ _ _ _
  | ldrPost => simp only [exec, execLdrPost]; exact hload _ _ _
  | strPost => exact hstore _ _ _ _
  | ldrReg => exact hload _ _ _
  | strReg => exact hstore _ _ _ _
  | ldrLit => exact hload _ _ _
  | bCond simm19 cond =>
    by_cases h : condHolds cond s.flags = true
    · exact ⟨_, by simp only [exec, execBCond, h, if_true]; rfl⟩
    · exact ⟨_, by simp only [exec, execBCond, h]; rfl⟩
  | _ => exact ⟨_, rfl⟩

/-- Everything one step can do: it is enabled only while running, and then a condition of the fetch or of
the decoder is raised, or the decoded instruction executes (70_reset_and_hazards.md R282). -/
theorem step_cases {s t : State} (h : step s = .next t) :
    s.status = .running ∧
    ((∃ c, fetchFault s = some c ∧ t = raise c s) ∨
     (∃ w e, fetchWord s = .ok w ∧ decode s.cfg w = .error e ∧ t = raise (.unknownInstruction w s.pc) s) ∨
     (∃ w i, fetchWord s = .ok w ∧ decode s.cfg w = .ok i ∧ exec i s = .next t)) := by
  unfold step at h
  cases hs : s.status with
  | running =>
    refine ⟨rfl, ?_⟩
    rw [hs] at h
    simp only [runStep] at h
    cases hf : fetchWord s with
    | error c =>
      rw [hf] at h
      exact .inl ⟨c, (fetchWord_eq_error_iff s c).1 hf, (Host.Outcome.next.inj h).symm⟩
    | ok w =>
      rw [hf] at h
      simp only at h
      cases hd : decode s.cfg w with
      | error e =>
        rw [hd] at h
        exact .inr (.inl ⟨w, e, rfl, hd, (Host.Outcome.next.inj h).symm⟩)
      | ok i =>
        rw [hd] at h
        exact .inr (.inr ⟨w, i, rfl, hd, h⟩)
  | halted => rw [hs] at h; cases h
  | faulted c => rw [hs] at h; cases h

/-- A core that is not running drives no fetch and no data access (log 9). -/
theorem blockOutputs_of_not_running {s : State} (h : s.status ≠ .running) :
    (blockOutputs s).ifetchData = none ∧ (blockOutputs s).dmem = none := by
  have hf : fetchedWord s = none := by
    unfold fetchedWord
    split
    · exact absurd (by assumption) h
    · rfl
    · rfl
  exact ⟨hf, by simp [blockOutputs, fetchedInstr, hf]⟩

/-- The word a fetching state fetches. -/
theorem fetchWord_of_fetches {s : State} {w : Word} (h : Fetches s w) : fetchWord s = .ok w :=
  (fetchWord_eq_ok_iff s w).2 ⟨(fetchFault_eq_none_iff s).2 ⟨h.2.1, h.2.2.1⟩, h.2.2.2⟩

end Sys2Proof.Machine
end

