-- ==== Sys2Proof/Tests/Slice0.lean ====
section
/-!
SUPPORT. The model's own tests. Expected results are the worked examples of the instruction rules
("Example:" lines) and the vectors of spec/95_test_vectors.md; the words of the format tests are written
out from the tables of 30_encoding.md section 2. The last part shows, for every obligation with
hypotheses, operands and states that meet them.
-/

open Sys2Proof Sys2Proof.Machine

namespace Sys2Proof.Tests

/-! ## Helpers -/

def setAll (regs : List (RegIdx × DWord)) (s : State) : State := regs.foldl (fun t r => writeX r.1 r.2 t) s

/-- The reset state with parameters `cfg` and the word `w` at address 0. -/
def placed (cfg : Config) (w : Word) (regs : List (RegIdx × DWord)) : State :=
  (setAll regs (State.resetWith cfg [])).withFetchWord 32 w.toNat

/-- A vector's start state: default parameters, the word at 0 and the halt word at 4. -/
def start (w : Word) (regs : List (RegIdx × DWord)) : State :=
  { placed Config.standard w regs with mem := writeLE (placed Config.standard w regs).mem 4 4 (0x14000000 : Word) }

def withBytes (a n : Nat) (v : BitVec 64) (s : State) : State := { s with mem := writeLE s.mem a n v }

def withNzcv (v : BitVec 4) (s : State) : State := setFlags (flagsOfVector v) s

def oneStep (s : State) : Option State :=
  match step s with
  | .next t => some t
  | .fault _ => none
  | .refused _ => none

def nzcv (s : State) : BitVec 4 :=
  BitVec.ofBool s.flags.n ++ BitVec.ofBool s.flags.z ++ BitVec.ofBool s.flags.c ++ BitVec.ofBool s.flags.v

/-- Register `r`, the flags and `pc` after one step. -/
def shows (r : RegIdx) (s : State) : Option (DWord × BitVec 4 × DWord) :=
  (oneStep s).map fun t => (readX r t, nzcv t, t.pc)

/-- The eight bytes from `a`, register `r` and `pc` after one step. -/
def stores (a : Nat) (r : RegIdx) (s : State) : Option (BitVec 64 × DWord × DWord) :=
  (oneStep s).map fun t => (readLE t.mem a 8, readX r t, t.pc)

/-- The run status after one step, if nothing else of the state changed. -/
def endsWith (s : State) : Option RunStatus :=
  (oneStep s).bind fun t => if { t with status := s.status } = s then some t.status else none

theorem next_of_any {s : State} {p : State → Bool} (h : (oneStep s).any p = true) : ∃ t, step s = .next t ∧ p t = true := by
  unfold oneStep at h
  split at h
  · rename_i t ht; exact ⟨t, ht, by simpa using h⟩
  · simp at h
  · simp at h

/-! ## Well-formedness: each check refuses an ill-formed term -/

theorem test_wf_wide_position : (Instr.movz .w32 2 1 0).wellFormed .fault = false := by decide
theorem test_wf_wide_position_64 : (Instr.movz .w64 3 1 0).wellFormed .fault = true := by decide
theorem test_wf_shift_amount : (Instr.andReg .w32 .lsl 1 32 0 2).wellFormed .fault = false := by decide
theorem test_wf_shift_amount_arithmetic : (Instr.addReg .w32 .lsl 1 32 0 2).wellFormed .fault = false := by decide
theorem test_wf_shift_amount_top : (Instr.addReg .w32 .asr 1 31 0 2).wellFormed .fault = true := by decide
theorem test_wf_arithmetic_ror : (Instr.subsReg .w64 .ror 1 0 0 2).wellFormed .fault = false := by decide
theorem test_wf_logical_ror : (Instr.andReg .w64 .ror 1 63 0 2).wellFormed .fault = true := by decide
theorem test_wf_overlap : (Instr.ldrPre .w64 8 1 1).wellFormed .fault = false := by decide
theorem test_wf_overlap_ordered : (Instr.ldrPre .w64 8 1 1).wellFormed .ordered = true := by decide
theorem test_wf_overlap_zero_register : (Instr.strPost .w64 8 31 31).wellFormed .fault = true := by decide
theorem test_wf_halt_word : (Instr.b 0).realizable Config.standard = false := by decide

/-! ## Decoding: the formats bit by bit (30_encoding.md R82 to R93), then every constructor -/

theorem test_bits_arith_imm :
    decode Config.standard (0b0#1 ++ 0b10#2 ++ 0b100#3 ++ 0b010#3 ++ 0b1#1 ++ 0b000000000001#12 ++ 0b00011#5 ++ 0b00010#5) =
      .ok (.subImm .w32 true 1 3 2) := by decide
theorem test_bits_move_wide :
    decode Config.standard (0b1#1 ++ 0b10#2 ++ 0b100#3 ++ 0b101#3 ++ 0b01#2 ++ 0b0001001000110100#16 ++ 0b00000#5) =
      .ok (.movz .w64 1 0x1234 0) := by decide
theorem test_bits_arith_reg :
    decode Config.standard (0b1#1 ++ 0b10#2 ++ 0b0#1 ++ 0b101#3 ++ 0b1#1 ++ 0b00#2 ++ 0b0#1 ++ 0b00001#5 ++ 0b000100#6 ++
      0b00000#5 ++ 0b00010#5) = .ok (.subReg .w64 .lsl 1 4 0 2) := by decide
theorem test_bits_logical :
    decode Config.standard (0b1#1 ++ 0b10#2 ++ 0b0#1 ++ 0b101#3 ++ 0b0#1 ++ 0b11#2 ++ 0b0#1 ++ 0b00001#5 ++ 0b001000#6 ++
      0b00000#5 ++ 0b00010#5) = .ok (.eorReg .w64 .ror 1 8 0 2) := by decide
theorem test_bits_multiply :
    decode Config.standard (0b1#1 ++ 0b0011011000#10 ++ 0b00001#5 ++ 0b1#1 ++ 0b00011#5 ++ 0b00000#5 ++ 0b00010#5) =
      .ok (.msub .w64 1 3 0 2) := by decide
theorem test_bits_unsigned_offset :
    decode Config.standard (0b1#1 ++ 0b0#1 ++ 0b1#1 ++ 0b1#1 ++ 0b1#1 ++ 0b0#1 ++ 0b0#1 ++ 0b1#1 ++ 0b0#1 ++ 0b1#1 ++
      0b000000000010#12 ++ 0b00001#5 ++ 0b00010#5) = .ok (.ldrUnsigned .w32 2 1 2) := by decide
theorem test_bits_pre_indexed :
    decode Config.standard (0b11111000#8 ++ 0b0#1 ++ 0b0#1 ++ 0b0#1 ++ 0b111111000#9 ++ 0b11#2 ++ 0b00001#5 ++ 0b00000#5) =
      .ok (.strPre .w64 0x1F8 1 0) := by decide
theorem test_bits_post_indexed :
    decode Config.standard (0b11111000#8 ++ 0b0#1 ++ 0b1#1 ++ 0b0#1 ++ 0b000010000#9 ++ 0b01#2 ++ 0b00001#5 ++ 0b00000#5) =
      .ok (.ldrPost .w64 16 1 0) := by decide
theorem test_bits_register_offset :
    decode Config.standard (0b10111000#8 ++ 0b0#1 ++ 0b0#1 ++ 0b1#1 ++ 0b00010#5 ++ 0b011010#6 ++ 0b00001#5 ++ 0b00000#5) =
      .ok (.strReg .w32 2 1 0) := by decide
theorem test_bits_literal :
    decode Config.standard (0b0#1 ++ 0b0#1 ++ 0b011000#6 ++ 0b0000000000000000010#19 ++ 0b00011#5) =
      .ok (.ldrLit .w32 2 3) := by decide
theorem test_bits_branch :
    decode Config.standard (0b000101#6 ++ 0b11111111111111111111111111#26) = .ok (.b 0x3FFFFFF) := by decide
theorem test_bits_branch_register :
    decode Config.standard (0b1101011000011111#16 ++ 0b000000#6 ++ 0b00101#5 ++ 0b00000#5) = .ok (.br 5) := by decide
theorem test_bits_branch_conditional :
    decode Config.standard (0b01010100#8 ++ 0b0000000000000000011#19 ++ 0b0#1 ++ 0b1101#4) = .ok (.bCond 3 .le) := by decide

theorem test_decode_addImm : decode Config.standard 0x91000420 = .ok (.addImm .w64 false 1 1 0) := by decide
theorem test_decode_addsImm : decode Config.standard 0xB1000420 = .ok (.addsImm .w64 false 1 1 0) := by decide
theorem test_decode_subImm : decode Config.standard 0x51400462 = .ok (.subImm .w32 true 1 3 2) := by decide
theorem test_decode_subsImm : decode Config.standard 0xF100143F = .ok (.subsImm .w64 false 5 1 31) := by decide
theorem test_decode_movn : decode Config.standard 0x92E24680 = .ok (.movn .w64 3 0x1234 0) := by decide
theorem test_decode_movz : decode Config.standard 0xD2A24680 = .ok (.movz .w64 1 0x1234 0) := by decide
theorem test_decode_movk : decode Config.standard 0xF297DDE0 = .ok (.movk .w64 0 0xBEEF 0) := by decide
theorem test_decode_addReg : decode Config.standard 0x8B00FC00 = .ok (.addReg .w64 .lsl 0 63 0 0) := by decide
theorem test_decode_addsReg : decode Config.standard 0x2B010002 = .ok (.addsReg .w32 .lsl 1 0 0 2) := by decide
theorem test_decode_subReg : decode Config.standard 0xCB810402 = .ok (.subReg .w64 .asr 1 1 0 2) := by decide
theorem test_decode_subsReg : decode Config.standard 0xEB0103E2 = .ok (.subsReg .w64 .lsl 1 0 31 2) := by decide
theorem test_decode_andReg : decode Config.standard 0x8A010002 = .ok (.andReg .w64 .lsl 1 0 0 2) := by decide
theorem test_decode_bicReg : decode Config.standard 0x8A3F0002 = .ok (.bicReg .w64 .lsl 31 0 0 2) := by decide
theorem test_decode_orrReg : decode Config.standard 0xAA012002 = .ok (.orrReg .w64 .lsl 1 8 0 2) := by decide
theorem test_decode_ornReg : decode Config.standard 0x2A2103E2 = .ok (.ornReg .w32 .lsl 1 0 31 2) := by decide
theorem test_decode_eorReg : decode Config.standard 0x4AC11002 = .ok (.eorReg .w32 .ror 1 4 0 2) := by decide
theorem test_decode_eonReg : decode Config.standard 0xCA210002 = .ok (.eonReg .w64 .lsl 1 0 0 2) := by decide
theorem test_decode_andsReg : decode Config.standard 0x6A811002 = .ok (.andsReg .w32 .asr 1 4 0 2) := by decide
theorem test_decode_bicsReg : decode Config.standard 0xEA200002 = .ok (.bicsReg .w64 .lsl 0 0 0 2) := by decide
theorem test_decode_madd : decode Config.standard 0x9B010C02 = .ok (.madd .w64 1 3 0 2) := by decide
theorem test_decode_msub : decode Config.standard 0x1B018C02 = .ok (.msub .w32 1 3 0 2) := by decide
theorem test_decode_ldrUnsigned : decode Config.standard 0xF9400421 = .ok (.ldrUnsigned .w64 1 1 1) := by decide
theorem test_decode_strUnsigned : decode Config.standard 0xF9001420 = .ok (.strUnsigned .w64 5 1 0) := by decide
theorem test_decode_ldrPre : decode Config.standard 0xF8500C20 = .ok (.ldrPre .w64 0x100 1 0) := by decide
theorem test_decode_strPre : decode Config.standard 0xF81F8C20 = .ok (.strPre .w64 0x1F8 1 0) := by decide
theorem test_decode_ldrPost : decode Config.standard 0xF8410420 = .ok (.ldrPost .w64 16 1 0) := by decide
theorem test_decode_strPost : decode Config.standard 0xB8004420 = .ok (.strPost .w32 4 1 0) := by decide
theorem test_decode_ldrReg : decode Config.standard 0xF8626820 = .ok (.ldrReg .w64 2 1 0) := by decide
theorem test_decode_strReg : decode Config.standard 0xB8226820 = .ok (.strReg .w32 2 1 0) := by decide
theorem test_decode_ldrLit : decode Config.standard 0x58000023 = .ok (.ldrLit .w64 1 3) := by decide
theorem test_decode_b : decode Config.standard 0x14000002 = .ok (.b 2) := by decide
theorem test_decode_br : decode Config.standard 0xD61F00A0 = .ok (.br 5) := by decide
theorem test_decode_bCond : decode Config.standard 0x5400006A = .ok (.bCond 3 .ge) := by decide
theorem test_decode_halt : decode Config.standard 0x14000000 = .ok .halt := by decide
theorem test_decode_other_halt_word :
    decode { haltWord := 0x8A000000 } 0x8A000000 = .ok .halt ∧ decode { haltWord := 0x8A000000 } 0x14000000 = .ok (.b 0) := by
  decide

/-- One illegal word of each space of 30_encoding.md R105, by its name. -/
theorem test_decode_illegal :
    decode Config.standard 0x00000000 = .error .unallocatedOp0 ∧
    decode Config.standard 0x90000000 = .error .unallocatedOpi ∧
    decode Config.standard 0xB2800000 = .error .moveWideOpc ∧
    decode Config.standard 0x52C00020 = .error .moveWidePosition ∧
    decode Config.standard 0xBB010C02 = .error .unallocatedDpr ∧
    decode Config.standard 0x8BC10402 = .error .arithmeticRor ∧
    decode Config.standard 0x0A018002 = .error .shiftAmount ∧
    decode Config.standard 0xF8C00020 = .error .transferFixedBits ∧
    decode Config.standard 0xF8400020 = .error .indexMode ∧
    decode Config.standard 0xF8626020 = .error .registerOffsetSubfield ∧
    decode Config.standard 0xF8408C21 = .error .writebackOverlap ∧
    decode Config.standard 0x1C000043 = .error .literalFixedBits ∧
    decode Config.standard 0x94000000 = .error .branchSubfield ∧
    decode Config.standard 0xD503201F = .error .registerBranchFixedBits ∧
    decode Config.standard 0x54000070 = .error .conditionalBranchFixedBits ∧
    decode Config.standard 0x54000062 = .error .conditionCode ∧
    decode Config.standard 0x5400006F = .error .conditionCode := by
  decide

theorem test_table_word : decodeTableWord 32 0x9B018C02 = some (.msub .w64 1 3 0 2) := by decide
theorem test_bytes : decodeBytes Config.standard [0x20, 0x04, 0x00, 0x91] = .ok (.addImm .w64 false 1 1 0) := by decide
theorem test_bytes_short : decodeBytes Config.standard [0x20, 0x04, 0x00] = .error .notOneWord := by decide

/-! ## One step of each instruction (spec/95_test_vectors.md, L1 and L2) -/

theorem test_addImm_shifted : shows 0 (start 0x917FFC20 [(1, 1)]) = some (0xFFF001, 0b0000, 4) := by decide
theorem test_addImm_zero_register : shows 31 (start 0x9100043F [(1, 5)]) = some (0, 0b0000, 4) := by decide
theorem test_addsImm_overflow_32 : shows 0 (start 0x31000420 [(1, 0x7FFFFFFF)]) = some (0x80000000, 0b1001, 4) := by decide
theorem test_addsImm_carry : shows 0 (start 0xB1000420 [(1, 0xFFFFFFFFFFFFFFFF)]) = some (0, 0b0110, 4) := by decide
theorem test_subImm_clears_upper : shows 2 (start 0x51400462 [(3, 0x1000), (2, 0xFFFFFFFFFFFFFFFF)]) = some (0, 0b0000, 4) := by decide
theorem test_subImm_negates : shows 0 (start 0xD10007E0 []) = some (0xFFFFFFFFFFFFFFFF, 0b0000, 4) := by decide
theorem test_subsImm_overflow : shows 0 (start 0xF1000420 [(1, 0x8000000000000000)]) = some (0x7FFFFFFFFFFFFFFF, 0b0011, 4) := by decide
theorem test_subsImm_borrow : shows 31 (start 0xF100143F [(1, 4)]) = some (0, 0b1000, 4) := by decide
theorem test_movn_32 : shows 0 (start 0x12800000 [(0, 0x123456789)]) = some (0xFFFFFFFF, 0b0000, 4) := by decide
theorem test_movn_top : shows 0 (start 0x92E24680 []) = some (0xEDCBFFFFFFFFFFFF, 0b0000, 4) := by decide
theorem test_movz : shows 0 (start 0xD2A24680 [(0, 0xFFFFFFFFFFFFFFFF)]) = some (0x12340000, 0b0000, 4) := by decide
theorem test_movk_top : shows 0 (start 0xF2F7DDE0 [(0, 0x1111222233334444)]) = some (0xBEEF222233334444, 0b0000, 4) := by decide
theorem test_movk_32 : shows 0 (start 0x72B7DDE0 [(0, 0x1111222233334444)]) = some (0xBEEF4444, 0b0000, 4) := by decide
theorem test_addReg_same_register : shows 0 (start 0x8B00FC00 [(0, 3)]) = some (0x8000000000000003, 0b0000, 4) := by decide
theorem test_addsReg_carry_and_overflow :
    shows 2 (start 0xAB010002 [(0, 0x8000000000000000), (1, 0x8000000000000000)]) = some (0, 0b0111, 4) := by decide
theorem test_addsReg_32 : shows 2 (start 0x2B010002 [(0, 0x7FFFFFFF), (1, 1)]) = some (0x80000000, 0b1001, 4) := by decide
theorem test_subReg_asr : shows 2 (start 0xCB810402 [(1, 0xFFFFFFFFFFFFFFFC)]) = some (2, 0b0000, 4) := by decide
theorem test_subReg_lsr_32 : shows 2 (start 0x4B417C02 [(0, 5), (1, 0x80000000)]) = some (4, 0b0000, 4) := by decide
theorem test_subsReg : shows 2 (start 0xEB010002 [(0, 1), (1, 2)]) = some (0xFFFFFFFFFFFFFFFF, 0b1000, 4) := by decide
theorem test_subsReg_negs_min : shows 2 (start 0xEB0103E2 [(1, 0x8000000000000000)]) = some (0x8000000000000000, 0b1001, 4) := by decide
theorem test_andReg : shows 2 (start 0x8A010002 [(0, 0xFF00), (1, 0xFF0)]) = some (0xF00, 0b0000, 4) := by decide
theorem test_bicReg : shows 2 (start 0x8A210002 [(0, 0xFF00), (1, 0xFF0)]) = some (0xF000, 0b0000, 4) := by decide
theorem test_bicReg_zero_register : shows 2 (start 0x8A3F0002 [(0, 0xFF00)]) = some (0xFF00, 0b0000, 4) := by decide
theorem test_orrReg_lsl : shows 2 (start 0xAA012002 [(0, 1), (1, 0xFF)]) = some (0xFF01, 0b0000, 4) := by decide
theorem test_orrReg_mov_32 :
    shows 2 (start 0x2A0103E2 [(1, 0xFFFFFFFF00000ABC), (2, 0xFFFFFFFFFFFFFFFF)]) = some (0xABC, 0b0000, 4) := by decide
theorem test_ornReg_32 : shows 2 (start 0x2A2103E2 []) = some (0xFFFFFFFF, 0b0000, 4) := by decide
theorem test_eorReg_ror : shows 2 (start 0xCAC12002 [(1, 0xFF)]) = some (0xFF00000000000000, 0b0000, 4) := by decide
theorem test_eorReg_ror_32 : shows 2 (start 0x4AC11002 [(1, 0xF)]) = some (0xF0000000, 0b0000, 4) := by decide
theorem test_eonReg : shows 2 (start 0xCA210002 [(0, 0xF0), (1, 0xFF)]) = some (0xFFFFFFFFFFFFFFF0, 0b0000, 4) := by decide
theorem test_andsReg_clears_c_v :
    shows 2 (withNzcv 0b0011 (start 0xEA010002 [(0, 0xF0), (1, 0xF)])) = some (0, 0b0100, 4) := by decide
theorem test_andsReg_asr_32 :
    shows 2 (start 0x6A811002 [(0, 0xFFFFFFFF), (1, 0x80000000)]) = some (0xF8000000, 0b1000, 4) := by decide
theorem test_bicsReg : shows 2 (withNzcv 0b0011 (start 0xEA200002 [(0, 0x55)])) = some (0, 0b0100, 4) := by decide
theorem test_madd : shows 2 (start 0x9B010C02 [(0, 3), (1, 4), (3, 5)]) = some (17, 0b0000, 4) := by decide
theorem test_madd_wraps :
    shows 2 (start 0x9B017C02 [(0, 0xFFFFFFFFFFFFFFFF), (1, 0xFFFFFFFFFFFFFFFF)]) = some (1, 0b0000, 4) := by decide
theorem test_msub : shows 2 (start 0x9B018C02 [(0, 2), (1, 3), (3, 5)]) = some (0xFFFFFFFFFFFFFFFF, 0b0000, 4) := by decide
theorem test_msub_32 : shows 2 (start 0x1B018C02 [(0, 2), (1, 3), (3, 5)]) = some (0xFFFFFFFF, 0b0000, 4) := by decide
theorem test_ldrUnsigned_mixed_width :
    shows 2 (withBytes 0x1000 8 0x123456789ABCDEF (start 0xB9400022 [(1, 0x1004)])) = some (0x1234567, 0b0000, 4) := by decide
theorem test_ldrUnsigned_out_of_bounds :
    endsWith (start 0xF9400020 [(1, 0x1FFFFC)]) = some (.faulted (.outOfBoundsAccess 0x1FFFFC 8 0)) := by decide
theorem test_strUnsigned :
    stores 0x1028 1 (start 0xF9001420 [(0, 0x1122334455667788), (1, 0x1000)]) =
      some (0x1122334455667788, 0x1000, 4) := by decide
theorem test_ldrPre_base :
    shows 1 (withBytes 0x1010 8 0x42 (start 0xF8410C20 [(1, 0x1000)])) = some (0x1010, 0b0000, 4) := by decide
theorem test_ldrPre_fault_keeps_base :
    endsWith (start 0xF8410C20 [(1, 0x1FFFF8)]) = some (.faulted (.outOfBoundsAccess 0x200008 8 0)) := by decide
theorem test_strPre : stores 0x1008 1 (start 0xF81F8C20 [(0, 0x99), (1, 0x1010)]) = some (0x99, 0x1008, 4) := by decide
theorem test_strPre_wraps_below_zero :
    endsWith (start 0xF81F8C20 [(0, 1)]) = some (.faulted (.outOfBoundsAccess 0xFFFFFFFFFFFFFFF8 8 0)) := by decide
theorem test_ldrPost :
    shows 0 (withBytes 0x1000 8 0x77 (start 0xF8410420 [(1, 0x1000)])) = some (0x77, 0b0000, 4) := by decide
theorem test_ldrPost_overlap_ordered :
    shows 1 (withBytes 0x1000 8 0x55 (placed { wbOverlap := .ordered } 0xF8408421 [(1, 0x1000)])) =
      some (0x1008, 0b0000, 4) := by decide
theorem test_strPost :
    stores 0x1000 1 (start 0xB8004420 [(0, 0xFFFFFFFF12345678), (1, 0x1000)]) = some (0x12345678, 0x1004, 4) := by decide
theorem test_ldrReg_negative_index :
    shows 0 (withBytes 0xFF8 8 0x33 (start 0xF8626820 [(1, 0x1000), (2, 0xFFFFFFFFFFFFFFF8)])) = some (0x33, 0b0000, 4) := by
  decide
theorem test_strReg :
    stores 0x1004 1 (start 0xB8226820 [(0, 0xAABBCCDD), (1, 0x1000), (2, 4)]) = some (0xAABBCCDD, 0x1000, 4) := by decide
theorem test_ldrLit : shows 3 (withBytes 8 4 0xAABBCCDD (start 0x58000023 [])) = some (0xAABBCCDD14000000, 0b0000, 4) := by
  decide
theorem test_b : shows 31 (start 0x14000002 []) = some (0, 0b0000, 8) := by decide
theorem test_b_wraps : shows 31 (start 0x17FFFFFF []) = some (0, 0b0000, 0xFFFFFFFFFFFFFFFC) := by decide
theorem test_br_misaligned : shows 5 (start 0xD61F00A0 [(5, 0x42)]) = some (0x42, 0b0000, 0x42) := by decide
theorem test_bCond_taken : shows 31 (withNzcv 0b1001 (start 0x5400006A [])) = some (0, 0b1001, 12) := by decide
theorem test_bCond_not_taken : shows 31 (withNzcv 0b0100 (start 0x5400006C [])) = some (0, 0b0100, 4) := by decide
theorem test_halt : endsWith (start 0x14000000 [(3, 9)]) = some .halted := by decide
theorem test_misaligned_data_fault :
    endsWith (placed { misalignedData := .fault } 0xF8401C20 [(1, 0x1000)]) =
      some (.faulted (.misalignedData 0x1001 8 0)) := by decide
theorem test_unknown_instruction :
    endsWith (start 0xD503201F []) = some (.faulted (.unknownInstruction 0xD503201F 0)) := by decide
theorem test_misaligned_fetch :
    endsWith (setPc 0x42 (start 0x14000000 [])) = some (.faulted (.misalignedFetch 0x42)) := by decide
theorem test_fetch_out_of_bounds :
    endsWith (setPc 0x200000 (start 0x14000000 [])) = some (.faulted (.outOfBoundsAccess 0x200000 4 0x200000)) := by decide

/-! ## Reset, launch, dump, assembler -/

theorem test_reset : State.reset.pc = 0 ∧ nzcv State.reset = 0b0000 ∧ readX 30 State.reset = 0 ∧ State.reset.status = .running := by
  decide
theorem test_launch_refuses : (launch { memSize := 3 } [1, 2, 3, 4]).isNone = true := by decide
theorem test_launch_loads : (launch { memSize := 4 } [0x20, 4, 0, 0x91]).map (fun s => readLE s.mem 0 4) = some 0x91000420 := by
  decide
theorem test_dump_lines :
    dumpLines { registers := [5], pc := 12, flags := ⟨true, false, true, false⟩, words := [(12, 0x14000000)] } =
      ["Registers:", "X0 = 0000000000000005", "PC = 000000000000000C", "PSTATE : N-C-", "Non-Zero Memory:",
        "0x0000000C: 14000000"] := by decide

/-- Program P2 of spec/95_test_vectors.md, from its source lines. -/
theorem test_assemble_loop :
    assemble ("movz x0, #0\nmovz x1, #5\nloop:\nadd x0, x0, x1\nsubs x1, x1, #1\nb.ne loop\nend:\nb end").toList =
      .ok [0xD2800000, 0xD28000A1, 0x8B010000, 0xF1000421, 0x54FFFFC1, 0x14000000] := by decide

/-- 30_encoding.md R116: "a register-form operand reaching the immediate-only encoder"; and the orders and
errors of log 13 and log 19. -/
theorem test_assemble_operand_types :
    assemble "movz x0, x1".toList = .error .operandTypeError ∧ assemble "ldr x0, x1".toList = .error .operandTypeError ∧
    assemble "br w5".toList = .error .operandTypeError ∧ assemble "add x0, w1, #5000".toList = .error .operandTypeError ∧
    assemble "add x0, x1, x2, ror #64".toList = .error .rangeError ∧
    assemble "add x0, x1, x2, ror #1".toList = .error .operandTypeError := by decide

/-- Lines of program P3, and pseudo-instructions of the rules' examples. -/
theorem test_assemble_forms :
    assemble ("ldr x3, [x1, #8]!\nstr w4, [x1], #4\nldr x5, [x1, x6]\ncmp x1, #5\nmvn w2, w1\n.int 0xCAFEBABE").toList =
      .ok [0xF8408C23, 0xB8004424, 0xF8666825, 0xF100143F, 0x2A2103E2, 0xCAFEBABE] := by decide
theorem test_assemble_refuses :
    assemble "nop x0".toList = .error (.syntaxError (some ['n', 'o', 'p'])) ∧ assemble "and x0, x1, #1".toList = .error .operandTypeError ∧
    assemble "add x0, x1, #4096".toList = .error .rangeError ∧ assemble "b there".toList = .error .undefinedLabel ∧
    assemble "a:\na:".toList = .error .duplicateLabel ∧ assemble "b #2".toList = .error .alignmentError ∧
    assemble "add x0, w1, #1".toList = .error .operandTypeError ∧ assemble "ldr x0, [sp]".toList = .error (.syntaxError none) := by
  decide

theorem test_halted_core_fetches_nothing :
    (blockOutputs (haltCore (placed { memSize := 16 } 0x14000000 []))).ifetchData = none ∧
    (blockOutputs (placed { memSize := 16 } 0x14000000 [])).ifetchData = some 0x14000000 := by decide
theorem test_data_port :
    dataPort (.strPre .w32 4 1 0) (placed { memSize := 16 } 0xB8004C20 [(0, 0xFFFFFFFF12345678), (1, 8)]) =
      some { addr := 12, size := 4, we := true, wdata := 0x12345678, rdata := 0 } := by decide

/-! ## The hypotheses of the obligations can be met, each clause at its boundary -/

/-- 32 bytes of memory, misaligned data accesses fault. -/
def tiny : Config := { memSize := 32, misalignedData := .fault }

/-- 32 bytes of memory, misaligned data accesses allowed, writeback overlap ordered. -/
def tinyOrdered : Config := { memSize := 32, wbOverlap := .ordered }

theorem placed_inv_example : (placed tiny 0xF9000420 [(0, 1), (1, 16)]).Inv := ⟨by decide, by decide⟩

theorem test_witness_LaunchGivesResetState : [1, 2, 3, 4].length ≤ ({ memSize := 4 } : Config).memSize := by decide
theorem test_witness_ImageIsLoadedOrRefused :
    4 * [(5 : Word)].length + [(7 : Byte)].length ≤ ({ memSize := 5 } : Config).memSize ∧
    ({ memSize := 4 } : Config).memSize < 4 * [(5 : Word)].length + [(7 : Byte)].length ∧
    [(5 : Word)][0]? = some 5 ∧ [(7 : Byte)][0]? = some 7 := by decide
theorem test_witness_LaunchMeetsInvariant : (launch { memSize := 2 } [1, 2]).isSome = true := by decide
/-- `str x0, [x1, #8]` into the last doubleword. -/
theorem test_witness_StepKeepsInvariant :
    (placed tiny 0xF9000420 [(0, 1), (1, 16)]).Inv ∧
    ∃ t, step (placed tiny 0xF9000420 [(0, 1), (1, 16)]) = .next t ∧ decide (readLE t.mem 24 8 = 1) = true :=
  ⟨placed_inv_example, next_of_any (by decide)⟩
theorem test_witness_StepKeepsParameters :
    ∃ t, step (placed tiny 0xD28000A0 []) = .next t ∧ decide (t.cfg = tiny) = true := next_of_any (by decide)
theorem test_witness_RegisterReadAndWrite :
    (30#5).toNat < 31 ∧ (0#5).toNat < 31 ∧ (30#5 ≠ 31) ∧ (31#5 ≠ 30) := by decide
theorem test_witness_MemReadAndWrite :
    (placed tiny 0 []).Inv ∧ tiny.memSize < (25#64).toNat + 8 ∧ tiny.memSize < (29#64).toNat + 4 ∧
    AccessAllowed (placed tiny 0 []) 24 8 ∧ AccessAllowed (placed tiny 0 []) 28 4 ∧
    AccessAllowed (placed tinyOrdered 0 []) 27 4 :=
  ⟨⟨by decide, by decide⟩, by decide, by decide, ⟨by decide, by decide⟩, ⟨by decide, by decide⟩, ⟨by decide, by decide⟩⟩
theorem test_witness_stores_on_canonical_memory : Memory.wf [(3, 1), (9, 255)] = true ∧ 0 + 8 ≤ 8 := by decide
theorem test_witness_AlignmentPolicy :
    (tinyOrdered.misalignedData = .allow ∧ (27#64).toNat + 4 ≤ tinyOrdered.memSize) ∧
    (tiny.misalignedData = .fault ∧ (24#64).toNat + 8 ≤ tiny.memSize ∧ (24#64).toNat % 8 = 0) ∧
    ((20#64).toNat + 8 ≤ tiny.memSize ∧ (20#64).toNat % 8 ≠ 0) ∧ tiny.memSize < (25#64).toNat + 8 := by decide
theorem test_witness_EffectiveAddressesWrap :
    ((readX 31 State.reset).toNat : Int) + (0x1FF#9).toInt < 0 ∧ State.reset.cfg.memSize ≤ 2 ^ 63 ∧
    ((State.reset.pc).toNat : Int) + 4 * (0x7FFFF#19).toInt < 0 := by decide
theorem test_witness_ShifterAsArithmetic : 0 < 32 ∧ 31 < 32 ∧ 63 < 64 := by decide
theorem test_witness_ConditionEvaluation :
    condOf 0b1101 = some .le ∧ 0b1101#4 ≠ 0b1110 ∧ condOf 0b1111 = none ∧ condOf 0b0010 = none ∧
    (0b01010100#8 ++ 0#19 ++ 0#1 ++ 0b1111#4 : Word) ≠ tiny.haltWord := by decide
theorem test_witness_DecodeOfEncode :
    (Instr.b 0x3FFFFFF).realizable Config.standard = true ∧ (Instr.b 0).realizable { haltWord := 0x8A000000 } = true ∧
    (Instr.subReg .w32 .asr 31 31 31 31).realizable Config.standard = true ∧
    (Instr.movk .w32 1 0xFFFF 31).realizable Config.standard = true ∧
    (Instr.strPost .w64 0x100 31 31).realizable Config.standard = true ∧ Instr.halt.realizable Config.standard = true := by
  decide
theorem test_witness_EncodeOfDecode : decode Config.standard 0x5400006A = .ok (.bCond 3 .ge) := by decide
theorem test_witness_OpcodeTable :
    decode Config.standard 0xD61F00A0 = .ok (.br 5) ∧
    ∃ row ∈ opcodeTable, row.accepts Config.standard 0xD61F00A0 = true ∧ (0xD61F00A0 : Word) &&& row.mask = row.value :=
  ⟨by decide, ⟨"BR", 0xD61F0000, 0xFFFFFC1F, .unconstrained⟩, by decide, by decide, by decide⟩
/-- The last word of memory, at `pc = MEM_SIZE - 4`. -/
theorem test_witness_StepRunsDecodedInstruction :
    let s := (setPc 28 (State.resetWith tiny [])).withFetchWord 32 0xD61F00A0
    s.status = .running ∧ s.pc.toNat % 4 = 0 ∧ s.pc.toNat + 4 ≤ s.cfg.memSize ∧
    readByte s.mem s.pc.toNat = 0xA0 ∧ readByte s.mem (s.pc.toNat + 1) = 0x00 ∧
    readByte s.mem (s.pc.toNat + 2) = 0x1F ∧ readByte s.mem (s.pc.toNat + 3) = 0xD6 ∧
    decodeBytes s.cfg [0xA0, 0x00, 0x1F, 0xD6] = .ok (.br 5) := by decide
theorem test_witness_RunningStepCompletes : (placed tiny 0 []).status = .running := by decide

theorem fetches_of {s : State} {w : Word}
    (h : (decide (s.status = .running) && decide (s.pc.toNat % 4 = 0) && decide (s.pc.toNat + 4 ≤ s.cfg.memSize) &&
      decide (readLE s.mem s.pc.toNat 4 = w)) = true) : Fetches s w := by
  simp only [Bool.and_eq_true, decide_eq_true_eq] at h
  exact ⟨h.1.1.1, h.1.1.2, h.1.2, h.2⟩

/-- Misaligned `pc`; the first aligned `pc` out of bounds; a halt word, an illegal word, a load out of
bounds by one byte, a misaligned load, each fetched. -/
theorem test_witness_invalid_condition : Fetches (placed tiny 0x5400000F []) (0b01010100#8 ++ 0#19 ++ 0#1 ++ 0b1111#4) :=
  fetches_of (by decide)
theorem test_witness_ConditionsInPriorityOrder :
    (setPc 1 (placed tiny 0 [])).pc.toNat % 4 ≠ 0 ∧
    ((setPc 32 (placed tiny 0 [])).pc.toNat % 4 = 0 ∧ tiny.memSize < (setPc 32 (placed tiny 0 [])).pc.toNat + 4) ∧
    Fetches (placed tiny 0x14000000 []) tiny.haltWord ∧
    (Fetches (placed tiny 0 []) 0 ∧ (0 : Word) ≠ tiny.haltWord ∧ decode tiny 0 = .error .unallocatedOp0) ∧
    (Fetches (placed tiny 0xF9400020 [(1, 25)]) 0xF9400020 ∧ decode tiny 0xF9400020 = .ok (.ldrUnsigned .w64 0 1 0) ∧
      dataAccess (.ldrUnsigned .w64 0 1 0) (placed tiny 0xF9400020 [(1, 25)]) = some (25, 8) ∧
      tiny.memSize < (25#64).toNat + 8) ∧
    (Fetches (placed tiny 0xF9400020 [(1, 20)]) 0xF9400020 ∧
      dataAccess (.ldrUnsigned .w64 0 1 0) (placed tiny 0xF9400020 [(1, 20)]) = some (20, 8) ∧
      (20#64).toNat + 8 ≤ tiny.memSize ∧ (20#64).toNat % 8 ≠ 0) :=
  ⟨by decide, by decide, fetches_of (by decide), ⟨fetches_of (by decide), by decide, by decide⟩,
    ⟨fetches_of (by decide), by decide, by decide, by decide⟩, ⟨fetches_of (by decide), by decide, by decide⟩⟩
theorem test_witness_FatalConditionsArePrecise :
    ∃ t, step (placed tiny 0 []) = .next t ∧ decide (t.status = .faulted (.unknownInstruction 0 0)) = true :=
  next_of_any (by decide)
theorem test_witness_RunStatusRules :
    (haltCore State.reset).status ≠ .running ∧ (raise (.misalignedFetch 2) State.reset).status ≠ .running ∧
    ∃ t, step (placed tiny 0x14000000 []) = .next t ∧ decide (t.status = .halted) = true :=
  ⟨by decide, by decide, next_of_any (by decide)⟩
theorem test_witness_HaltingKeepsAllState : Fetches (placed tiny 0x14000000 [(2, 7)]) (placed tiny 0x14000000 [(2, 7)]).cfg.haltWord :=
  fetches_of (by decide)

theorem executes_of {s : State} {i : Instr}
    (h : (decide (s.status = .running) && decide (s.pc.toNat % 4 = 0) && decide (s.pc.toNat + 4 ≤ s.cfg.memSize) &&
      decide (decode s.cfg (readLE s.mem s.pc.toNat 4) = .ok i)) = true) : Executes s i := by
  simp only [Bool.and_eq_true, decide_eq_true_eq] at h
  exact ⟨_, ⟨h.1.1.1, h.1.1.2, h.1.2, rfl⟩, h.2⟩

/-- A step without a decoded instruction, and one of each kind the sequencer distinguishes. -/
theorem test_witness_PcSequencer :
    ((∃ t, step (placed tiny 0 []) = .next t ∧ decide (t.pc = 0) = true) ∧ ∀ i, ¬ Executes (placed tiny 0 []) i) ∧
    (Executes (placed tiny 0x17FFFFFF []) (.b 0x3FFFFFF) ∧ ∃ t, step (placed tiny 0x17FFFFFF []) = .next t ∧ decide (t.pc = -4) = true) ∧
    (Executes (placed tiny 0x54000060 []) (.bCond 3 .eq) ∧ ¬ CondMeans (placed tiny 0x54000060 []).flags .eq ∧
      ∃ t, step (placed tiny 0x54000060 []) = .next t ∧ decide (t.pc = 4) = true) ∧
    (Executes (placed tiny 0x54000061 []) (.bCond 3 .ne) ∧ CondMeans (placed tiny 0x54000061 []).flags .ne ∧
      ∃ t, step (placed tiny 0x54000061 []) = .next t ∧ decide (t.pc = 12) = true) ∧
    (Executes (placed tiny 0xD61F00A0 [(5, 0x42)]) (.br 5) ∧
      ∃ t, step (placed tiny 0xD61F00A0 [(5, 0x42)]) = .next t ∧ decide (t.pc = 0x42) = true) ∧
    (Executes (placed tiny 0xF9400020 [(1, 24)]) (.ldrUnsigned .w64 0 1 0) ∧
      ∃ t, step (placed tiny 0xF9400020 [(1, 24)]) = .next t ∧ decide (t.status = .running) = true) ∧
    (Executes (placed tiny 0xF9400020 [(1, 25)]) (.ldrUnsigned .w64 0 1 0) ∧
      ∃ t, step (placed tiny 0xF9400020 [(1, 25)]) = .next t ∧ decide (t.status ≠ .running) = true) := by
  refine ⟨⟨next_of_any (by decide), ?_⟩, ⟨executes_of (by decide), next_of_any (by decide)⟩,
    ⟨executes_of (by decide), by unfold CondMeans; decide, next_of_any (by decide)⟩,
    ⟨executes_of (by decide), by unfold CondMeans; decide, next_of_any (by decide)⟩,
    ⟨executes_of (by decide), next_of_any (by decide)⟩,
    ⟨executes_of (by decide), next_of_any (by decide)⟩,
    ⟨executes_of (by decide), next_of_any (by decide)⟩⟩
  rintro i ⟨w, hf, hd⟩
  have hw : w = 0 := by rw [← hf.2.2.2]; decide
  subst hw
  have he : decode (placed tiny 0 []).cfg 0 = .error .unallocatedOp0 := by decide
  rw [he] at hd
  cases hd

theorem test_witness_OnlyRegisterBranchMisalignsPc :
    (setPc 1 (placed tiny 0 [])).status = .running ∧ (setPc 1 (placed tiny 0 [])).pc.toNat % 4 ≠ 0 ∧
    (placed tiny 0xD61F00A0 [(5, 0x42)]).pc.toNat % 4 = 0 ∧
    ∃ t, step (placed tiny 0xD61F00A0 [(5, 0x42)]) = .next t ∧ decide (t.pc.toNat % 4 ≠ 0) = true :=
  ⟨by decide, by decide, by decide, next_of_any (by decide)⟩
theorem test_witness_FlagsChangeOnlyInFlagSetters :
    (Executes (placed tiny 0x8B010002 []) (.addReg .w64 .lsl 1 0 0 2) ∧ setsFlags (.addReg .w64 .lsl 1 0 0 2) = false ∧
      ∃ t, step (placed tiny 0x8B010002 []) = .next t ∧ decide (t.pc = 4) = true) ∧
    (∃ t, step (placed tiny 0 []) = .next t ∧ decide (t.status = .faulted (.unknownInstruction 0 0)) = true) ∧
    setsFlags (.bicsReg .w64 .lsl 0 0 0 2) = true ∧ setsFlags (.addsImm .w32 false 0 0 0) = true :=
  ⟨⟨executes_of (by decide), by decide, next_of_any (by decide)⟩, next_of_any (by decide),
    by decide, by decide⟩
theorem test_witness_OnlyListedRegistersChange :
    (∃ t, exec (.ldrPre .w64 8 1 0) (placed tiny 0 [(1, 8)]) = .next t) ∧ 2#5 ∉ destinations (.ldrPre .w64 8 1 0) :=
  ⟨exec_next _ _, by decide⟩
/-- Two states that differ in a register that `add x2, x0, x1` does not read. -/
theorem test_witness_ResultsDependOnListedRegisters :
    let s := placed tiny 0 [(0, 1), (1, 2), (2, 3)]
    let u := placed tiny 0 [(0, 1), (1, 2), (2, 4)]
    let i : Instr := .addReg .w64 .lsl 1 0 0 2
    s ≠ u ∧ s.status = .running ∧ (∀ r ∈ sources i, readX r s = readX r u) ∧ s.pc = u.pc ∧ s.flags = u.flags ∧
    s.mem = u.mem ∧ s.status = u.status ∧ s.cfg = u.cfg ∧ (∃ t, exec i s = .next t ∧ t.status = .running) ∧
    ∃ t, exec i u = .next t :=
  ⟨by decide, by decide, by decide, by decide, by decide, by decide, by decide, by decide, ⟨_, rfl, by decide⟩, exec_next _ _⟩
/-- A store and a load at the top of memory, one out of bounds, and an instruction without an access. -/
theorem test_witness_MemoryChangesAsTheDataPortSays :
    (placed tiny 0xF9000420 [(0, 1), (1, 16)]).Inv ∧
    (∀ i : Instr, ∃ t, exec i (placed tiny 0xF9000420 [(0, 1), (1, 16)]) = .next t) ∧
    (dataPort (.strUnsigned .w64 1 1 0) (placed tiny 0xF9000420 [(0, 1), (1, 16)])).map (fun p => (p.addr, p.we)) = some (24, true) ∧
    (dataPort (.ldrUnsigned .w64 1 1 0) (placed tiny 0xF9000420 [(0, 1), (1, 16)])).map (fun p => (p.addr, p.we)) = some (24, false) ∧
    dataPort (.strUnsigned .w64 2 1 0) (placed tiny 0xF9000420 [(0, 1), (1, 16)]) = none :=
  ⟨placed_inv_example, fun _ => exec_next _ _, by decide, by decide, by decide⟩
theorem test_witness_data_faults :
    (placed tiny 0 [(1, 25)]).status = .running ∧ (placed tiny 0 [(1, 20)]).status = .running ∧
    dataAccess (.strPost .w64 8 1 0) (placed tiny 0 [(1, 25)]) = some (25, 8) ∧ tiny.memSize < (25#64).toNat + 8 ∧
    dataAccess (.strPost .w64 8 1 0) (placed tiny 0 [(1, 20)]) = some (20, 8) ∧ (20#64).toNat + 8 ≤ tiny.memSize ∧
    tiny.misalignedData = .fault ∧ (20#64).toNat % 8 ≠ 0 := by decide
theorem test_witness_OnlyLoadsAndStoresRaise :
    ∃ t, exec (.strPost .w64 8 1 0) (placed tiny 0 [(1, 25)]) = .next t ∧ t.status = .faulted (.outOfBoundsAccess 25 8 0) :=
  have hf : dataFault (eaBase 1 (placed tiny 0 [(1, 25)])) (opBytes .w64) (placed tiny 0 [(1, 25)]) =
      some (.outOfBoundsAccess 25 8 0) := by decide
  ⟨_, storeThen_of_fault hf 0 (writeX 1 (eaIndexed 8 1 (placed tiny 0 [(1, 25)]))), rfl⟩

/-- Each load and store form may access the last bytes of memory. -/
theorem test_witness_loads_and_stores :
    (placed tiny 0 [(1, 16), (2, 8)]).Inv ∧
    AccessAllowed (placed tiny 0 [(1, 16), (2, 8)]) (eaUnsigned .w64 1 1 (placed tiny 0 [(1, 16), (2, 8)])) (opBytes .w64) ∧
    AccessAllowed (placed tiny 0 [(1, 16), (2, 8)]) (eaRegister 2 1 (placed tiny 0 [(1, 16), (2, 8)])) (opBytes .w64) ∧
    AccessAllowed (placed tiny 0 [(1, 16), (2, 8)]) (pcRelative 6#19 (placed tiny 0 [(1, 16), (2, 8)])) (opBytes .w64) ∧
    AccessAllowed (placed tiny 0 [(1, 16), (2, 8)]) (eaIndexed 12 1 (placed tiny 0 [(1, 16), (2, 8)])) (opBytes .w32) ∧
    AccessAllowed (placed tiny 0 [(1, 24)]) (eaBase 1 (placed tiny 0 [(1, 24)])) (opBytes .w64) :=
  ⟨⟨by decide, by decide⟩, ⟨by decide, by decide⟩, ⟨by decide, by decide⟩, ⟨by decide, by decide⟩, ⟨by decide, by decide⟩,
    ⟨by decide, by decide⟩⟩
theorem test_witness_WritebackOverlap :
    (1#5 ≠ 31) ∧ (30#5 ≠ 31) ∧ encIndexed 1 0b11 .w64 8 1 1 ≠ tiny.haltWord ∧ tiny.wbOverlap = .fault ∧
    tinyOrdered.wbOverlap = .ordered ∧ (placed tiny (encIndexed 1 0b11 .w64 8 1 1) []).cfg = tiny ∧
    Fetches (placed tiny (encIndexed 1 0b11 .w64 8 1 1) []) (encIndexed 1 0b11 .w64 8 1 1) :=
  ⟨by decide, by decide, by decide, by decide, by decide, by decide, fetches_of (by decide)⟩
/-- The store replaces the last word of memory, the one fetched next. -/
theorem test_witness_StoreToNextWordIsFetched :
    let s := setPc 24 (placed tiny 0 [(1, 28)])
    s.Inv ∧ s.status = .running ∧ s.pc.toNat % 4 = 0 ∧ eaUnsigned .w32 0 1 s = s.pc + 4 ∧ AccessAllowed s (s.pc + 4) 4 :=
  ⟨⟨by decide, by decide⟩, by decide, by decide, by decide, ⟨by decide, by decide⟩⟩
theorem test_witness_BranchResult :
    CondMeans ⟨true, false, false, true⟩ .ge ∧ ¬ CondMeans ⟨true, false, false, false⟩ .ge := by
  unfold CondMeans; decide
theorem test_witness_FinalDumpListsTheState :
    (placed tiny 0x14000000 []).Inv ∧ finalDump (haltCore (placed tiny 0x14000000 [])) = some (dumpOf (placed tiny 0x14000000 [])) ∧
    (dumpOf (placed tiny 0x14000000 [])).words = [(0, 0x14000000)] :=
  ⟨⟨by decide, by decide⟩, rfl, by decide⟩
theorem test_witness_UnknownMnemonicIsListed :
    (∀ c ∈ ['n', 'o', 'p'], isBlankChar c = false) ∧ (∀ c ∈ ['b', '.', 'a', 'l'], isBlankChar c = false) := by
  simp [isBlankChar]
theorem test_witness_PseudoInstructionsExpand :
    parseFlex [.imm 5] = .ok (.imm 5 none) ∧
    parseFlex [.reg ⟨.w64, 3⟩, .comma, .name ['a', 's', 'r'], .imm 2] = .ok (.reg ⟨.w64, 3⟩ (some ⟨.asr, 2⟩)) ∧
    lexOperands [] "x1, #5".toList = .ok [.reg ⟨.w64, 1⟩, .comma, .imm 5] ∧
    lexOperands [] "XZR, x1, #5".toList = .ok [.reg (zeroOf .w64), .comma, .reg ⟨.w64, 1⟩, .comma, .imm 5] ∧
    lexOperands [] "w1, w2, w30, wzr".toList =
      .ok [.reg ⟨.w32, 1⟩, .comma, .reg ⟨.w32, 2⟩, .comma, .reg ⟨.w32, 30⟩, .comma, .reg (zeroOf .w32)] := by decide
theorem test_witness_AssembledInstructionsDecodeBack :
    assembleIr [] 0 (.transfer true ⟨.w64, 1⟩ (.preIndexed ⟨.w64, 1⟩ (-256))) = .ok (.instr (.ldrPre .w64 0x100 1 1)) ∧
    tinyOrdered.wbOverlap = .ordered ∧ assembleIr [] 0 (.branch (.address 0)) = .ok (.instr (.b 0)) := by decide
theorem test_witness_AssembledBranchReachesItsLabel :
    resolve [(['a'], 0)] ['a'] = .ok 0 ∧ assembleIr [(['a'], 0)] 4 (.branch (.label ['a'])) = .ok (.instr (.b 0x3FFFFFF)) ∧
    (setPc 4 State.reset).pc.toNat = 4 ∧ 0 < 2 ^ 64 ∧ itemWord (.instr (.b 0x3FFFFFF)) ≠ State.reset.cfg.haltWord ∧
    Fetches ((setPc 4 State.reset).withFetchWord 32 0x17FFFFFF) (itemWord (.instr (.b 0x3FFFFFF))) :=
  ⟨by decide, by decide, by decide, by decide, by decide, fetches_of (by decide)⟩
theorem test_witness_AssemblerPassesAgree :
    passOne 0 [] [.label ['a'], .slot ['b', ' ', 'a'], .blank] = .ok ([(['a'], 0)], 4) ∧
    passTwo [(['a'], 0)] 0 [.label ['a'], .slot ['b', ' ', 'a'], .blank] = .ok [0x14000000] ∧
    define [(['a'], 0)] ['b'] 4 = .ok [(['b'], 4), (['a'], 0)] ∧ ['a'] ≠ ['b'] := by decide

end Sys2Proof.Tests
end

section
/-!
SUPPORT. What executing one instruction can do to the state, said once: which registers it may write, and
the seven shapes of its effect.
-/

namespace Sys2Proof.Machine

/-! ## Register writes -/

/-- `t` is `s` after writes to registers of `ds` and to nothing else. -/
structure WritesOnly (ds : List RegIdx) (s t : State) : Prop where
  readX_eq : ∀ r, r ∉ ds → readX r t = readX r s
  pc_eq : t.pc = s.pc
  flags_eq : t.flags = s.flags
  mem_eq : t.mem = s.mem
  status_eq : t.status = s.status
  cfg_eq : t.cfg = s.cfg

theorem WritesOnly.refl (ds : List RegIdx) (s : State) : WritesOnly ds s s :=
  ⟨fun _ _ => rfl, rfl, rfl, rfl, rfl, rfl⟩

/-- One more write to a listed register. -/
theorem WritesOnly.writeXw {ds : List RegIdx} {s t : State} (h : WritesOnly ds s t) {i : RegIdx} (hi : i ∈ ds)
    {w : Nat} (v : BitVec w) : WritesOnly ds s (writeXw w i v t) where
  readX_eq r hr := by
    have hne : r ≠ i := fun e => hr (e ▸ hi)
    rw [readX_writeXw_of_ne hne, h.readX_eq r hr]
  pc_eq := by simp [h.pc_eq]
  flags_eq := by simp [h.flags_eq]
  mem_eq := by simp [h.mem_eq]
  status_eq := by simp [h.status_eq]
  cfg_eq := by simp [h.cfg_eq]

theorem WritesOnly.writeX {ds : List RegIdx} {s t : State} (h : WritesOnly ds s t) {i : RegIdx} (hi : i ∈ ds)
    (v : DWord) : WritesOnly ds s (writeX i v t) := h.writeXw hi v

theorem WritesOnly.writeXw_head (ds : List RegIdx) (s : State) {w : Nat} (i : RegIdx) (v : BitVec w) :
    WritesOnly (i :: ds) s (Machine.writeXw w i v s) := (WritesOnly.refl _ s).writeXw List.mem_cons_self v

/-! ## The effect of an instruction -/

theorem exec_ldrPre (sf : OpSize) (simm9 : BitVec 9) (rn rt : RegIdx) (s : State) :
    exec (.ldrPre sf simm9 rn rt) s =
      loadThen (eaIndexed simm9 rn s) (opBytes sf)
        (fun v t => writeXw (8 * opBytes sf) rt v (writeX rn (eaIndexed simm9 rn s) t)) s := by
  rfl

theorem exec_ldrPost (sf : OpSize) (simm9 : BitVec 9) (rn rt : RegIdx) (s : State) :
    exec (.ldrPost sf simm9 rn rt) s =
      loadThen (eaBase rn s) (opBytes sf)
        (fun v t => writeX rn (eaIndexed simm9 rn s) (writeXw (8 * opBytes sf) rt v t)) s := by
  rfl

/-- Everything the execution of `i` in `s` can lead to. -/
inductive ExecEffect (i : Instr) (s : State) : State → Prop
  /-- Data processing that sets no flag. -/
  | computes {t : State} (ha : dataAccess i s = none) (ht : WritesOnly (destinations i) s t) :
      ExecEffect i s (advance t)
  /-- Data processing that sets all four flags (10_state.md R31, R32). -/
  | computesFlags {t : State} (f : Flags) (ha : dataAccess i s = none) (hf : setsFlags i = true)
      (ht : WritesOnly (destinations i) s t) : ExecEffect i s (advance (setFlags f t))
  /-- A data access that raises its condition (43_load_store.md R201). -/
  | faults {ea : DWord} {n : Nat} {c : FatalCondition} (ha : dataAccess i s = some (ea, n))
      (hc : dataFault ea n s = some c) : ExecEffect i s (raise c s)
  /-- A load, with or without writeback. -/
  | loads {ea : DWord} {sf : OpSize} {t : State} (ha : dataAccess i s = some (ea, opBytes sf))
      (hr : storedRegister i = none) (hok : dataFault ea (opBytes sf) s = none)
      (ht : WritesOnly (destinations i) s t) : ExecEffect i s (advance t)
  /-- A store, with or without writeback. -/
  | stores {ea : DWord} {sf : OpSize} {rt : RegIdx} {t : State} (ha : dataAccess i s = some (ea, opBytes sf))
      (hr : storedRegister i = some rt) (hok : dataFault ea (opBytes sf) s = none)
      (ht : WritesOnly (destinations i) (putBytes ea (opBytes sf) (readXw (8 * opBytes sf) rt s) s) t) :
      ExecEffect i s (advance t)
  /-- A branch, taken or not. -/
  | branches (target : DWord) (ha : dataAccess i s = none) : ExecEffect i s (setPc target s)
  /-- The halt sentinel (44_branch.md R234). -/
  | halts (hi : i = .halt) : ExecEffect i s (haltCore s)

/-- A load's effect: its condition, or its register writes. -/
theorem loadThen_effect {i : Instr} {s t : State} {ea : DWord} {sf : OpSize}
    {finish : BitVec (8 * opBytes sf) → State → State} (h : loadThen ea (opBytes sf) finish s = .next t)
    (ha : dataAccess i s = some (ea, opBytes sf)) (hr : storedRegister i = none)
    (hfin : ∀ v, WritesOnly (destinations i) s (finish v s)) : ExecEffect i s t := by
  obtain ⟨c, hc, rfl⟩ | ⟨hok, rfl⟩ := loadThen_cases h
  · exact .faults ha hc
  · exact .loads ha hr hok (hfin _)

/-- A store's effect: its condition, or its bytes and its writeback. -/
theorem storeThen_effect {i : Instr} {s t : State} {ea : DWord} {sf : OpSize} {rt : RegIdx}
    {finish : State → State} (h : storeThen ea (opBytes sf) rt finish s = .next t)
    (ha : dataAccess i s = some (ea, opBytes sf)) (hr : storedRegister i = some rt)
    (hfin : ∀ u, WritesOnly (destinations i) u (finish u)) : ExecEffect i s t := by
  obtain ⟨c, hc, rfl⟩ | ⟨hok, rfl⟩ := storeThen_cases h
  · exact .faults ha hc
  · exact .stores ha hr hok (hfin _)

/-- What an executed instruction does is one of the seven shapes. -/
theorem exec_effect {i : Instr} {s t : State} (h : exec i s = .next t) : ExecEffect i s t := by
  cases i with
  | addImm | subImm | movn | movz | movk | addReg | subReg | andReg | bicReg | orrReg | ornReg | eorReg | eonReg
  | madd | msub =>
    cases h
    exact .computes rfl (.writeXw_head [] s _ _)
  | addsImm | subsImm | addsReg | subsReg | andsReg | bicsReg =>
    cases h
    exact .computesFlags _ rfl rfl (.writeXw_head [] s _ _)
  | ldrUnsigned | ldrReg | ldrLit => exact loadThen_effect h rfl rfl fun v => .writeXw_head [] s _ v
  | ldrPre sf simm9 rn rt =>
    refine loadThen_effect ((exec_ldrPre sf simm9 rn rt s).symm.trans h) rfl rfl fun v => ?_
    exact ((WritesOnly.refl [rt, rn] s).writeX (by simp) _).writeXw (by simp) v
  | ldrPost sf simm9 rn rt =>
    refine loadThen_effect ((exec_ldrPost sf simm9 rn rt s).symm.trans h) rfl rfl fun v => ?_
    exact ((WritesOnly.refl [rt, rn] s).writeXw (by simp) v).writeX (by simp) _
  | strUnsigned | strReg => exact storeThen_effect h rfl rfl (WritesOnly.refl _)
  | strPre | strPost => exact storeThen_effect h rfl rfl fun u => .writeXw_head [] u _ _
  | b | br =>
    cases h
    exact .branches _ rfl
  | bCond simm19 cond =>
    simp only [exec, execBCond] at h
    split at h <;> cases h
    · exact .branches _ rfl
    · exact .branches (s.pc + 4) rfl
  | halt =>
    cases h
    exact .halts rfl

/-- From a running state the run status changes only on a halt and on a data access's condition. -/
theorem exec_status {i : Instr} {s t : State} (hs : s.status = .running) (h : exec i s = .next t) :
    t.status = .running ∨ (i = .halt ∧ t = haltCore s) ∨
    ∃ ea n c, dataAccess i s = some (ea, n) ∧ dataFault ea n s = some c ∧ t = raise c s := by
  cases exec_effect h with
  | computes _ ht | computesFlags _ _ _ ht | loads _ _ _ ht | stores _ _ _ ht => exact .inl (ht.status_eq.trans hs)
  | branches => exact .inl hs
  | halts hi => exact .inr (.inl ⟨hi, rfl⟩)
  | faults ha hc => exact .inr (.inr ⟨_, _, _, ha, hc, rfl⟩)

/-- An executed instruction that halts the core is the halt sentinel. -/
theorem eq_halt_of_exec_halted {i : Instr} {s t : State} (hs : s.status = .running) (h : exec i s = .next t)
    (ht : t.status = .halted) : i = .halt := by
  obtain hrun | ⟨hi, -⟩ | ⟨_, _, _, -, -, rfl⟩ := exec_status hs h
  · simp [hrun] at ht
  · exact hi
  · simp at ht

/-- An executed instruction that ends the run with a condition is a load or store whose access raises it, and
the condition is all that happens (60_exceptions.md R251, R252). -/
theorem exec_faulted {i : Instr} {s t : State} {c : FatalCondition} (hs : s.status = .running)
    (h : exec i s = .next t) (ht : t.status = .faulted c) :
    t = raise c s ∧ ∃ ea n, dataAccess i s = some (ea, n) ∧ dataFault ea n s = some c := by
  obtain hrun | ⟨-, rfl⟩ | ⟨ea, n, c', ha, hc, rfl⟩ := exec_status hs h
  · simp [hrun] at ht
  · simp at ht
  · obtain rfl : c' = c := by simpa using ht
    exact ⟨rfl, ea, n, ha, hc⟩

/-- A load or store whose access raises a condition ends with it (43_load_store.md R201). -/
theorem exec_of_dataFault {i : Instr} {s : State} {ea : DWord} {n : Nat} {c : FatalCondition}
    (ha : dataAccess i s = some (ea, n)) (hc : dataFault ea n s = some c) : exec i s = .next (raise c s) := by
  cases i with
  | ldrUnsigned | ldrReg | ldrLit =>
    cases ha
    exact loadThen_of_fault hc _
  | ldrPre sf simm9 rn rt =>
    cases ha
    exact (exec_ldrPre sf simm9 rn rt s).trans (loadThen_of_fault hc _)
  | ldrPost sf simm9 rn rt =>
    cases ha
    exact (exec_ldrPost sf simm9 rn rt s).trans (loadThen_of_fault hc _)
  | strUnsigned | strPre | strPost | strReg =>
    cases ha
    exact storeThen_of_fault hc _ _
  | _ => cases ha

/-! ## The step, from what is fetched -/

theorem fetches_of_fetchWord {s : State} {w : Word} (hs : s.status = .running) (h : fetchWord s = .ok w) :
    Fetches s w := by
  obtain ⟨hf, hw⟩ := (fetchWord_eq_ok_iff s w).1 h
  obtain ⟨ha, hb⟩ := (fetchFault_eq_none_iff s).1 hf
  exact ⟨hs, ha, hb, hw⟩

theorem step_of_fetchFault {s : State} {c : FatalCondition} (hs : s.status = .running)
    (h : fetchFault s = some c) : step s = .next (raise c s) := by
  simp only [step, hs, runStep, (fetchWord_eq_error_iff s c).2 h]

theorem step_of_illegal {s : State} {w : Word} {e : IllegalWord} (h : Fetches s w)
    (hd : decode s.cfg w = .error e) : step s = .next (raise (.unknownInstruction w s.pc) s) := by
  simp only [step, h.1, runStep, fetchWord_of_fetches h, hd]

theorem step_of_executes {s : State} {i : Instr} (h : Executes s i) : step s = exec i s := by
  obtain ⟨w, hf, hd⟩ := h
  simp only [step, hf.1, runStep, fetchWord_of_fetches hf, hd]

/-- Everything one step can do, from what it fetches. -/
theorem step_outcome {s t : State} (h : step s = .next t) :
    s.status = .running ∧
    ((∃ c, fetchFault s = some c ∧ t = raise c s) ∨
     (∃ w e, Fetches s w ∧ decode s.cfg w = .error e ∧ t = raise (.unknownInstruction w s.pc) s) ∨
     (∃ i, Executes s i ∧ exec i s = .next t)) := by
  obtain ⟨hs, hfault | ⟨w, e, hf, hd, rfl⟩ | ⟨w, i, hf, hd, hx⟩⟩ := step_cases h
  · exact ⟨hs, .inl hfault⟩
  · exact ⟨hs, .inr (.inl ⟨w, e, fetches_of_fetchWord hs hf, hd, rfl⟩)⟩
  · exact ⟨hs, .inr (.inr ⟨i, ⟨w, fetches_of_fetchWord hs hf, hd⟩, hx⟩)⟩

/-- A step that ends with a condition changes the run status only (60_exceptions.md R252). -/
theorem step_faulted {s t : State} {c : FatalCondition} (h : step s = .next t) (ht : t.status = .faulted c) :
    t = raise c s := by
  obtain ⟨hs, ⟨c', -, rfl⟩ | ⟨w, e, -, -, rfl⟩ | ⟨i, -, hx⟩⟩ := step_outcome h
  · obtain rfl : c' = c := by simpa using ht
    rfl
  · obtain rfl : _ = c := by simpa using ht
    rfl
  · exact (exec_faulted hs hx ht).1

/-- A state that is not running has no step (10_state.md R35). -/
theorem step_ne_next {s : State} (hs : s.status ≠ .running) (t : State) : step s ≠ .next t :=
  fun h => hs (step_outcome h).1

end Sys2Proof.Machine
end

section
/-!
PROOFS. 10_state.md R32: the flags.
-/

namespace Sys2Proof.Machine

theorem exec_flags_of_not_setter {i : Instr} {s t : State} (hi : setsFlags i = false)
    (h : exec i s = .next t) : t.flags = s.flags := by
  cases exec_effect h with
  | computes _ ht | loads _ _ _ ht | stores _ _ _ ht => exact ht.flags_eq
  | computesFlags _ _ hf => simp [hi] at hf
  | faults | branches | halts => rfl

/-- The flags a flag-setting instruction leaves are the same whatever the flags were. -/
theorem exec_flags_of_setter {i : Instr} (hi : setsFlags i = true) (s : State) (f : Flags) :
    ∃ t u, exec i s = .next t ∧ exec i { s with flags := f } = .next u ∧ t.flags = u.flags := by
  cases i with
  | addsImm | subsImm | addsReg | subsReg | andsReg | bicsReg => exact ⟨_, _, rfl, rfl, rfl⟩
  | _ => cases hi

/-- Settles O32: a step raises, which keeps the flags, or executes an instruction, and then the shapes of its
effect say which flags it leaves. -/
theorem flagsChangeOnlyInFlagSetters : Obligations.FlagsChangeOnlyInFlagSetters := by
  refine ⟨fun s t h hi => ?_, fun s t c h ht => ?_, fun i s f hi => exec_flags_of_setter hi s f⟩
  · obtain ⟨-, ⟨c, -, rfl⟩ | ⟨w, e, -, -, rfl⟩ | ⟨i, he, hx⟩⟩ := step_outcome h
    · rfl
    · rfl
    · exact exec_flags_of_not_setter (hi i he) hx
  · rw [step_faulted h ht, raise_flags]

end Sys2Proof.Machine
end

section
/-!
PROOFS. 10_state.md R25: the registers an instruction writes.
-/

namespace Sys2Proof.Machine

/-- Settles O33: every shape of an instruction's effect writes at most the listed registers. -/
theorem onlyListedRegistersChange : Obligations.OnlyListedRegistersChange := by
  intro i s t r h hr
  cases exec_effect h with
  | computes _ ht | computesFlags _ _ _ ht | loads _ _ _ ht | stores _ _ _ ht => exact ht.readX_eq r hr
  | faults | branches | halts => rfl

end Sys2Proof.Machine
end

section
/-!
PROOFS. 10_state.md R41: memory and the data port.
-/

namespace Sys2Proof.Machine

/-! ## The data port -/

theorem dataPort_of_no_access {i : Instr} {s : State} (ha : dataAccess i s = none) : dataPort i s = none := by
  simp only [dataPort, ha]

theorem dataPort_of_fault {i : Instr} {s : State} {ea : DWord} {n : Nat} {c : FatalCondition}
    (ha : dataAccess i s = some (ea, n)) (hc : dataFault ea n s = some c) : dataPort i s = none := by
  simp only [dataPort, ha, hc]

theorem dataPort_of_load {i : Instr} {s : State} {ea : DWord} {n : Nat} (ha : dataAccess i s = some (ea, n))
    (hr : storedRegister i = none) (hok : dataFault ea n s = none) :
    dataPort i s = some ⟨ea, n, false, 0, (readLE s.mem ea.toNat n).setWidth 64⟩ := by
  simp only [dataPort, ha, hr, hok]

theorem dataPort_of_store {i : Instr} {s : State} {ea : DWord} {n : Nat} {rt : RegIdx}
    (ha : dataAccess i s = some (ea, n)) (hr : storedRegister i = some rt) (hok : dataFault ea n s = none) :
    dataPort i s = some ⟨ea, n, true, (readXw (8 * n) rt s).setWidth 64, 0⟩ := by
  simp only [dataPort, ha, hr, hok]

/-! ## What is stored and loaded -/

theorem opBytes_eq (sf : OpSize) : opBytes sf = 4 ∨ opBytes sf = 8 := by
  cases sf
  · exact .inl rfl
  · exact .inr rfl

theorem sameMemory_of_mem_eq {s t : State} (h : t.mem = s.mem) : SameMemory s t := fun a => by rw [h]

theorem storedAt_of_mem_eq {s t : State} {ea : DWord} {n w : Nat} {v : BitVec w} (hwf : Memory.wf s.mem = true)
    (h : t.mem = writeLE s.mem ea.toNat n v) : StoredAt s t ea n v := fun a => by
  rw [h, readByte_writeLE hwf]

/-- Bytes that fit below bit `w'` are the same in the value taken to width `w'`. -/
theorem extract_byte_setWidth {w w' n k : Nat} (v : BitVec w) (hk : k < n) (hn : 8 * n ≤ w') :
    (v.setWidth w').extractLsb' (8 * k) 8 = v.extractLsb' (8 * k) 8 :=
  BitVec.extractLsb'_setWidth_of_le (by omega)

theorem StoredAt.setWidth {s t : State} {ea : DWord} {n w w' : Nat} {v : BitVec w} (h : StoredAt s t ea n v)
    (hn : 8 * n ≤ w') : StoredAt s t ea n (v.setWidth w') := fun a => by
  rw [h a]
  split
  · rw [extract_byte_setWidth (n := n) v (by omega) hn]
  · rfl

theorem loadedFrom_readLE (s : State) (ea : DWord) (n : Nat) : LoadedFrom s ea n (readLE s.mem ea.toNat n) :=
  fun k hk => extract_readLE s.mem ea.toNat n k hk

theorem LoadedFrom.setWidth {s : State} {ea : DWord} {n w w' : Nat} {v : BitVec w} (h : LoadedFrom s ea n v)
    (hn : 8 * n ≤ w') : LoadedFrom s ea n (v.setWidth w') :=
  fun k hk => (extract_byte_setWidth v hk hn).trans (h k hk)

/-- Settles O35: only a load or store whose access is allowed drives the port, and only the store's bytes are
written. -/
theorem memoryChangesAsTheDataPortSays : Obligations.MemoryChangesAsTheDataPortSays := by
  intro i s t hinv h
  cases exec_effect h with
  | computes ha ht | computesFlags _ ha _ ht =>
    rw [dataPort_of_no_access ha]
    exact sameMemory_of_mem_eq ht.mem_eq
  | faults ha hc =>
    rw [dataPort_of_fault ha hc]
    exact fun _ => rfl
  | branches _ ha =>
    rw [dataPort_of_no_access ha]
    exact fun _ => rfl
  | halts hi =>
    subst hi
    exact fun _ => rfl
  | @loads ea sf t ha hr hok ht =>
    have hsize := opBytes_eq sf
    rw [dataPort_of_load ha hr hok]
    refine ⟨((dataFault_eq_none_iff _ _ _).1 hok).1, hsize, nofun,
      fun _ => ⟨sameMemory_of_mem_eq ht.mem_eq, ?_⟩⟩
    exact (loadedFrom_readLE s ea (opBytes sf)).setWidth (by omega)
  | @stores ea sf rt t ha hr hok ht =>
    have hsize := opBytes_eq sf
    have hmem : (advance t).mem = writeLE s.mem ea.toNat (opBytes sf) (readXw (8 * opBytes sf) rt s) := ht.mem_eq
    rw [dataPort_of_store ha hr hok]
    refine ⟨((dataFault_eq_none_iff _ _ _).1 hok).1, hsize, fun _ => ?_, nofun⟩
    exact (storedAt_of_mem_eq hinv.1 hmem).setWidth (by omega)

end Sys2Proof.Machine
end

section
/-!
PROOFS. 10_state.md R25: the registers an instruction reads.
-/

namespace Sys2Proof.Machine

/-! ## States that agree on some registers -/

/-- `s` and `u` agree on the registers of `ds` and on everything that is no register. -/
structure AgreeOn (ds : List RegIdx) (s u : State) : Prop where
  readX_eq : ∀ r ∈ ds, readX r s = readX r u
  pc_eq : s.pc = u.pc
  flags_eq : s.flags = u.flags
  mem_eq : s.mem = u.mem
  status_eq : s.status = u.status
  cfg_eq : s.cfg = u.cfg

/-- The ends of two executions agree: on everything that is no register and, unless a condition was raised or
the core halted, on the registers of `ds`. -/
def ResultsAgree (ds : List RegIdx) (s u : State) : Prop :=
  s.pc = u.pc ∧ s.flags = u.flags ∧ s.mem = u.mem ∧ s.status = u.status ∧
    (s.status = .running → ∀ r ∈ ds, readX r s = readX r u)

theorem AgreeOn.results {ds : List RegIdx} {s u : State} (h : AgreeOn ds s u) : ResultsAgree ds s u :=
  ⟨h.pc_eq, h.flags_eq, h.mem_eq, h.status_eq, fun _ => h.readX_eq⟩

theorem AgreeOn.mono {ds ds' : List RegIdx} {s u : State} (h : AgreeOn ds s u) (hsub : ds' ⊆ ds) :
    AgreeOn ds' s u :=
  { h with readX_eq := fun r hr => h.readX_eq r (hsub hr) }

/-- Writing one value to register `i` of both makes them agree on `i` too. -/
theorem AgreeOn.writeXw {ds : List RegIdx} {s u : State} (h : AgreeOn ds s u) {w : Nat} (i : RegIdx)
    (v : BitVec w) : AgreeOn (i :: ds) (writeXw w i v s) (writeXw w i v u) where
  readX_eq r hr := by
    rw [readX_writeXw, readX_writeXw]
    split
    · rfl
    · next hne =>
      obtain rfl | hr := List.mem_cons.1 hr
      · obtain rfl : r = 31 := by simpa using hne
        rfl
      · exact h.readX_eq r hr
  pc_eq := by simp [h.pc_eq]
  flags_eq := by simp [h.flags_eq]
  mem_eq := by simp [h.mem_eq]
  status_eq := by simp [h.status_eq]
  cfg_eq := by simp [h.cfg_eq]

theorem AgreeOn.writeX {ds : List RegIdx} {s u : State} (h : AgreeOn ds s u) (i : RegIdx) (v : DWord) :
    AgreeOn (i :: ds) (writeX i v s) (writeX i v u) := h.writeXw i v

theorem AgreeOn.setFlags {ds : List RegIdx} {s u : State} (h : AgreeOn ds s u) (f : Flags) :
    AgreeOn ds (setFlags f s) (setFlags f u) := { h with flags_eq := rfl }

theorem AgreeOn.setPc {ds : List RegIdx} {s u : State} (h : AgreeOn ds s u) (a : DWord) :
    AgreeOn ds (setPc a s) (setPc a u) := { h with pc_eq := rfl }

theorem AgreeOn.advance {ds : List RegIdx} {s u : State} (h : AgreeOn ds s u) :
    AgreeOn ds (advance s) (advance u) := { h with pc_eq := congrArg (· + 4) h.pc_eq }

theorem AgreeOn.putBytes {ds : List RegIdx} {s u : State} (h : AgreeOn ds s u) (ea : DWord) (n : Nat) {w : Nat}
    (v : BitVec w) : AgreeOn ds (putBytes ea n v s) (putBytes ea n v u) :=
  { h with mem_eq := by simp [h.mem_eq] }

/-! ## The shapes of execution on agreeing states -/

theorem AgreeOn.readXw_eq {ds : List RegIdx} {s u : State} (h : AgreeOn ds s u) {r : RegIdx} (hr : r ∈ ds)
    (w : Nat) : readXw w r s = readXw w r u := by
  simp only [readXw, h.readX_eq r hr]

theorem AgreeOn.pcRelative_eq {ds : List RegIdx} {s u : State} (h : AgreeOn ds s u) {k : Nat} (simm : BitVec k) :
    pcRelative simm s = pcRelative simm u := by
  simp only [pcRelative, h.pc_eq]

theorem AgreeOn.eaIndexed_eq {ds : List RegIdx} {s u : State} (h : AgreeOn ds s u) {rn : RegIdx} (hr : rn ∈ ds)
    (simm9 : BitVec 9) : eaIndexed simm9 rn s = eaIndexed simm9 rn u := by
  simp only [eaIndexed, h.readX_eq rn hr]

theorem AgreeOn.dataFault_eq {ds : List RegIdx} {s u : State} (h : AgreeOn ds s u) (ea : DWord) (n : Nat) :
    dataFault ea n s = dataFault ea n u := by
  simp only [dataFault, h.pc_eq, h.cfg_eq]

/-- No register is read after a condition, so its ends agree whatever registers are asked for. -/
theorem AgreeOn.raise_results {ds : List RegIdx} {s u : State} (h : AgreeOn ds s u) (c : FatalCondition)
    (ds' : List RegIdx) : ResultsAgree ds' (raise c s) (raise c u) :=
  ⟨h.pc_eq, h.flags_eq, h.mem_eq, rfl, nofun⟩

theorem computes_agree {s u s' u' : State} (h : AgreeOn [] s u) {w : Nat} {rd : RegIdx}
    {v v' : BitVec w} (hs : Host.Outcome.next (advance (writeXw w rd v s)) = (.next s' : Host.Outcome _ Fault Refusal))
    (hu : Host.Outcome.next (advance (writeXw w rd v' u)) = (.next u' : Host.Outcome _ Fault Refusal)) (hv : v = v') :
    ResultsAgree [rd] s' u' := by
  cases hs
  cases hu
  subst hv
  exact (h.writeXw rd v).advance.results

theorem computesFlags_agree {s u s' u' : State} (h : AgreeOn [] s u) {w : Nat} {rd : RegIdx}
    {v v' : BitVec w} {f f' : Flags}
    (hs : Host.Outcome.next (advance (setFlags f (writeXw w rd v s))) = (.next s' : Host.Outcome _ Fault Refusal))
    (hu : Host.Outcome.next (advance (setFlags f' (writeXw w rd v' u))) = (.next u' : Host.Outcome _ Fault Refusal))
    (hv : v = v') (hf : f = f') : ResultsAgree [rd] s' u' := by
  cases hs
  cases hu
  subst hv hf
  exact ((h.writeXw rd v).setFlags f).advance.results

/-- Loads from one address agree when their register writes do. -/
theorem loadThen_agree {ds ds' : List RegIdx} {s u s' u' : State} (h : AgreeOn ds s u) {ea ea' : DWord} {n : Nat}
    {finish finish' : BitVec (8 * n) → State → State} (hs : loadThen ea n finish s = .next s')
    (hu : loadThen ea' n finish' u = .next u') (hea : ea = ea')
    (hfin : ∀ v, AgreeOn ds' (finish v s) (finish' v u)) : ResultsAgree ds' s' u' := by
  subst hea
  obtain ⟨c, hc, rfl⟩ | ⟨hok, rfl⟩ := loadThen_cases hs
  · rw [h.dataFault_eq] at hc
    cases (loadThen_of_fault hc finish').symm.trans hu
    exact h.raise_results c ds'
  · rw [h.dataFault_eq, dataFault_eq_none_iff] at hok
    cases (loadThen_of_allowed hok finish').symm.trans hu
    rw [h.mem_eq]
    exact (hfin _).advance.results

/-- Stores of one value to one address agree when their writebacks do. -/
theorem storeThen_agree {ds ds' : List RegIdx} {s u s' u' : State} (h : AgreeOn ds s u) {ea ea' : DWord} {n : Nat}
    {rt : RegIdx} {finish finish' : State → State} (hs : storeThen ea n rt finish s = .next s')
    (hu : storeThen ea' n rt finish' u = .next u') (hrt : rt ∈ ds) (hea : ea = ea')
    (hfin : ∀ t t', AgreeOn ds t t' → AgreeOn ds' (finish t) (finish' t')) : ResultsAgree ds' s' u' := by
  subst hea
  obtain ⟨c, hc, rfl⟩ | ⟨hok, rfl⟩ := storeThen_cases hs
  · rw [h.dataFault_eq] at hc
    cases (storeThen_of_fault hc rt finish').symm.trans hu
    exact h.raise_results c ds'
  · rw [h.dataFault_eq, dataFault_eq_none_iff] at hok
    cases (storeThen_of_allowed hok rt finish').symm.trans hu
    rw [h.readXw_eq hrt]
    exact (hfin _ _ (h.putBytes _ _ _)).advance.results

/-- Executions from states that agree on the registers an instruction reads agree on those it writes. -/
theorem exec_agree {i : Instr} {s u s' u' : State} (h : AgreeOn (sources i) s u) (hs : exec i s = .next s')
    (hu : exec i u = .next u') : ResultsAgree (destinations i) s' u' := by
  have hnil : AgreeOn [] s u := h.mono (List.nil_subset _)
  have hr := h.readX_eq
  cases i with
  | addImm | subImm | movn | movz | movk | addReg | subReg | andReg | bicReg | orrReg | ornReg | eorReg | eonReg
  | madd | msub =>
    simp only [sources, List.forall_mem_cons] at hr
    exact computes_agree hnil hs hu (by simp [readXw, shiftedReg, invertedReg, hr])
  | addsImm | subsImm | addsReg | subsReg | andsReg | bicsReg =>
    simp only [sources, List.forall_mem_cons] at hr
    exact computesFlags_agree hnil hs hu (by simp [readXw, shiftedReg, invertedReg, hr])
      (by simp [readXw, shiftedReg, invertedReg, hr])
  | ldrUnsigned | ldrReg | ldrLit =>
    simp only [sources, List.forall_mem_cons] at hr
    exact loadThen_agree h hs hu (by simp [eaUnsigned, eaRegister, h.pcRelative_eq, hr]) fun v => hnil.writeXw _ v
  | ldrPre sf simm9 rn rt =>
    rw [exec_ldrPre] at hs hu
    refine loadThen_agree h hs hu (h.eaIndexed_eq (.head _) simm9) fun v => ?_
    rw [h.eaIndexed_eq (.head _)]
    exact (hnil.writeX rn _).writeXw rt v
  | ldrPost sf simm9 rn rt =>
    rw [exec_ldrPost] at hs hu
    refine loadThen_agree h hs hu (hr rn (.head _)) fun v => ?_
    rw [h.eaIndexed_eq (.head _)]
    exact ((hnil.writeXw rt v).writeX rn _).mono (by simp [destinations])
  | strUnsigned | strReg =>
    simp only [sources, List.forall_mem_cons] at hr
    exact storeThen_agree h hs hu (by simp [sources]) (by simp [eaUnsigned, eaRegister, hr])
      fun _ _ ht => ht.mono (List.nil_subset _)
  | strPre sf simm9 rn rt =>
    refine storeThen_agree h hs hu (by simp [sources]) (h.eaIndexed_eq (.head _) simm9) fun t t' ht => ?_
    rw [h.eaIndexed_eq (.head _)]
    exact (ht.mono (List.nil_subset _)).writeX rn _
  | strPost sf simm9 rn rt =>
    refine storeThen_agree h hs hu (by simp [sources]) (hr rn (.head _)) fun t t' ht => ?_
    rw [h.eaIndexed_eq (.head _)]
    exact (ht.mono (List.nil_subset _)).writeX rn _
  | b simm26 =>
    cases hs
    cases hu
    rw [h.pcRelative_eq]
    exact (h.setPc _).results
  | br rn =>
    cases hs
    cases hu
    rw [hr rn (.head _)]
    exact (hnil.setPc _).results
  | bCond simm19 cond =>
    simp only [exec, execBCond] at hs hu
    rw [← h.flags_eq, ← h.pcRelative_eq] at hu
    split at hs
    · rename_i htaken
      simp only [htaken, if_true] at hu
      cases hs
      cases hu
      exact (h.setPc _).results
    · rename_i htaken
      simp only [htaken] at hu
      cases hs
      cases hu
      exact h.advance.results
  | halt =>
    cases hs
    cases hu
    exact ⟨h.pc_eq, h.flags_eq, h.mem_eq, rfl, nofun⟩

/-- Settles O34: the two states agree on the sources, so the two executions, shape by shape, write the same
values. -/
theorem resultsDependOnListedRegisters : Obligations.ResultsDependOnListedRegisters :=
  fun _ _ _ _ _ _ hr hpc hflags hmem hstatus hcfg hs hu => exec_agree ⟨hr, hpc, hflags, hmem, hstatus, hcfg⟩ hs hu

end Sys2Proof.Machine
end

section
/-!
PROOFS. 10_state.md R22 to R24, R36 to R40: register access, reset and launch.
-/

namespace Sys2Proof.Machine

/-! ## Register access -/

/-- A read below index 31 gives the register's slot (10_state.md R23). -/
theorem readX_of_lt {i : RegIdx} (h : i.toNat < 31) (s : State) : readX i s = s.x[i.toNat] := by
  simp only [readX, h, dite_true]

theorem readXw_zero (w : Nat) (s : State) : readXw w 31#5 s = 0#w := by
  simp [readXw]

/-- The register written reads as the zero-extension of the value, whose number is unchanged
(10_state.md R24). -/
theorem toNat_readX_writeXw {sf : OpSize} {i : RegIdx} (hi : i ≠ 31) (v : BitVec (opBits sf)) (s : State) :
    (readX i (writeXw (opBits sf) i v s)).toNat = v.toNat := by
  have hw : opBits sf ≤ 64 := by cases sf <;> decide
  rw [readX_writeXw, if_pos ⟨rfl, hi⟩, BitVec.toNat_setWidth_of_le hw]

/-- Settles O7, clause by clause from the rules of register reads and writes. -/
theorem registerReadAndWrite : Obligations.RegisterReadAndWrite := by
  intro sf i v s
  have hframe := WritesOnly.writeXw_head [] s i v
  refine ⟨readXw_zero _ s, fun v' => writeXw_zero _ v' s, fun h => ?_, fun hi => toNat_readX_writeXw hi v s,
    fun u => rfl, fun j hj => readX_writeXw_of_ne hj v s, ⟨hframe.flags_eq, hframe.status_eq, hframe.cfg_eq⟩,
    hframe.pc_eq, fun a => by rw [hframe.mem_eq]⟩
  simp [readXw, readX_of_lt h]

/-! ## Reset and launch -/

@[simp] theorem readX_resetWith (r : RegIdx) (cfg : Config) (m : Memory) : readX r (State.resetWith cfg m) = 0 := by
  unfold readX State.resetWith
  split
  · simp
  · rfl

/-- A launch gives the reset state with the image in memory, and only for an image that fits. -/
theorem launch_eq_some_iff {cfg : Config} {image : List Byte} {s : State} :
    launch cfg image = some s ↔
      image.length ≤ cfg.memSize ∧ s = State.resetWith cfg (imageCells loadBase image) := by
  simp [launch, eq_comm]

theorem readByte_loaded (image : List Byte) (a : Nat) :
    readByte (imageCells loadBase image) a = image.getD a 0 := by
  simpa [loadBase] using readByte_imageCells 0 image a

theorem Memory.within_mono {m : Memory} {size size' : Nat} (h : Memory.within size m = true)
    (hle : size ≤ size') : Memory.within size' m = true := by
  simp only [Memory.within, List.all_eq_true, decide_eq_true_eq] at h ⊢
  exact fun cell hc => Nat.lt_of_lt_of_le (h cell hc) hle

/-- Settles O1. -/
theorem launchGivesResetState : Obligations.LaunchGivesResetState := by
  intro cfg image hfit
  refine ⟨_, launch_eq_some_iff.2 ⟨hfit, rfl⟩, fun r => readX_resetWith r cfg _, rfl, rfl, readByte_loaded image,
    rfl, rfl, ?_⟩
  rintro rfl
  rfl

/-- Settles O4: the loaded cells are canonical and end where the image does. -/
theorem launchMeetsInvariant : Obligations.LaunchMeetsInvariant := by
  intro cfg image s h
  obtain ⟨hfit, rfl⟩ := launch_eq_some_iff.1 h
  have hend : loadBase + image.length ≤ cfg.memSize := by simpa [loadBase] using hfit
  exact ⟨imageCells_wf loadBase image, Memory.within_mono (imageCells_within loadBase image) hend⟩

/-- Settles O3: the reset state is the launch of the empty image under the default parameters. -/
theorem resetMeetsInvariant : Obligations.ResetMeetsInvariant :=
  launchMeetsInvariant Config.standard [] State.reset (launch_eq_some_iff.2 ⟨Nat.zero_le _, rfl⟩)

end Sys2Proof.Machine
end

section
/-!
PROOFS. 10_state.md R35: the run status.
-/

namespace Sys2Proof.Machine

/-! ## Only the halt word decodes to the halt sentinel -/

theorem decodeDpi_ne_halt (w : Word) : decodeDpi w ≠ .ok .halt := by
  simp only [decodeDpi, decodeArithImm, decodeMoveWide]
  split_ifs <;> simp

theorem decodeDpr_ne_halt (w : Word) : decodeDpr w ≠ .ok .halt := by
  simp only [decodeDpr, decodeArithReg, decodeLogical, decodeMultiply]
  split_ifs <;> simp

theorem decodeLoadStore_ne_halt (o : WbOverlap) (w : Word) : decodeLoadStore o w ≠ .ok .halt := by
  simp only [decodeLoadStore]
  split_ifs <;> simp

theorem decodeBranch_ne_halt (w : Word) : decodeBranch w ≠ .ok .halt := by
  simp only [decodeBranch]
  cases condOf (field w 0 4) <;> split_ifs <;> simp

theorem decodeClass_ne_halt (o : WbOverlap) (w : Word) : decodeClass o w ≠ .ok .halt := by
  simp only [decodeClass]
  split_ifs
  · exact decodeDpi_ne_halt w
  · exact decodeDpr_ne_halt w
  · exact decodeLoadStore_ne_halt o w
  · exact decodeBranch_ne_halt w
  · simp

/-- The halt check is the decoder's first test, and no other row is the halt sentinel (30_encoding.md R95). -/
theorem decode_eq_halt_iff (cfg : Config) (w : Word) : decode cfg w = .ok .halt ↔ w = cfg.haltWord := by
  constructor
  · intro h
    by_contra hne
    rw [decode_of_ne cfg hne] at h
    exact decodeClass_ne_halt cfg.wbOverlap w h
  · rintro rfl
    exact decode_haltWord cfg

theorem executes_halt_iff (s : State) : Executes s .halt ↔ Fetches s s.cfg.haltWord := by
  constructor
  · rintro ⟨w, hf, hd⟩
    rwa [(decode_eq_halt_iff s.cfg w).1 hd] at hf
  · exact fun hf => ⟨_, hf, decode_haltWord s.cfg⟩

/-! ## A core that is not running -/

theorem stepInput_of_not_running {s : State} (hs : s.status ≠ .running) : stepInput s = s := by
  unfold stepInput
  split
  · next t h => exact absurd h (step_ne_next hs t)
  · rfl
  · rfl

theorem runFor_of_not_running {s : State} (hs : s.status ≠ .running) (k : Nat) : runFor k s = s := by
  cases k with
  | zero => rfl
  | succ k =>
    unfold runFor
    split
    · next t h => exact absurd h (step_ne_next hs t)
    · rfl
    · rfl

/-! ## The status a step leaves -/

theorem step_halted_iff {s t : State} (h : step s = .next t) :
    t.status = .halted ↔ Fetches s s.cfg.haltWord := by
  rw [← executes_halt_iff]
  constructor
  · intro ht
    obtain ⟨hs, ⟨c, -, rfl⟩ | ⟨w, e, -, -, rfl⟩ | ⟨i, he, hx⟩⟩ := step_outcome h
    · simp at ht
    · simp at ht
    · rwa [eq_halt_of_exec_halted hs hx ht] at he
  · intro he
    rw [step_of_executes he] at h
    cases h
    rfl

/-- The three places where a step can raise the condition `c` (60_exceptions.md R253). -/
def Raises (s : State) (c : FatalCondition) : Prop :=
  fetchFault s = some c ∨
  (∃ w e, Fetches s w ∧ decode s.cfg w = .error e ∧ c = .unknownInstruction w s.pc) ∨
  ∃ i ea n, Executes s i ∧ dataAccess i s = some (ea, n) ∧ dataFault ea n s = some c

theorem raises_of_step_faulted {s t : State} {c : FatalCondition} (h : step s = .next t)
    (ht : t.status = .faulted c) : Raises s c := by
  obtain ⟨hs, ⟨c', hc, rfl⟩ | ⟨w, e, hf, hd, rfl⟩ | ⟨i, he, hx⟩⟩ := step_outcome h
  · obtain rfl : c' = c := by simpa using ht
    exact .inl hc
  · exact .inr (.inl ⟨w, e, hf, hd, by simpa using ht.symm⟩)
  · obtain ⟨-, ea, n, ha, hc⟩ := exec_faulted hs hx ht
    exact .inr (.inr ⟨i, ea, n, he, ha, hc⟩)

theorem step_of_raises {s : State} {c : FatalCondition} (hs : s.status = .running) (h : Raises s c) :
    step s = .next (raise c s) := by
  obtain hc | ⟨w, e, hf, hd, rfl⟩ | ⟨i, ea, n, he, ha, hc⟩ := h
  · exact step_of_fetchFault hs hc
  · exact step_of_illegal hf hd
  · rw [step_of_executes he, exec_of_dataFault ha hc]

/-- Settles O27: what is not running has no step, and a running step's status is read off what it fetches. -/
theorem runStatusRules : Obligations.RunStatusRules := by
  refine ⟨rfl, fun s hs => ⟨step_ne_next hs, stepInput_of_not_running hs, runFor_of_not_running hs⟩,
    fun s t h => ⟨(step_outcome h).1, step_halted_iff h⟩,
    fun s t c h => ⟨raises_of_step_faulted h, fun hc => ?_⟩⟩
  cases (step_of_raises (step_outcome h).1 hc).symm.trans h
  rfl

end Sys2Proof.Machine
end

section
/-!
PROOFS. 10_state.md R42: the final-state dump.
-/

namespace Sys2Proof.Machine

/-! ## The bytes behind a word -/

/-- A byte that does not read as unlisted is listed. -/
theorem exists_cell_of_readByte_ne {m : Memory} {a : Nat} (h : readByte m a ≠ emptyByte) :
    ∃ cell ∈ m, cell.1 = a := by
  induction m with
  | nil => exact absurd rfl h
  | cons cell rest ih =>
    by_cases hk : cell.1 = a
    · exact ⟨cell, List.mem_cons_self, hk⟩
    · simp only [readByte, hk, if_false] at h
      obtain ⟨c, hc, hca⟩ := ih h
      exact ⟨c, List.mem_cons_of_mem _ hc, hca⟩

/-- A value that is not 0 has a byte that is not 0. -/
theorem exists_byte_of_readLE_ne_zero {m : Memory} {a n : Nat} (h : readLE m a n ≠ 0) :
    ∃ k < n, readByte m (a + k) ≠ emptyByte := by
  by_contra hall
  push Not at hall
  refine h (BitVec.eq_of_getLsbD_eq fun i hi => ?_)
  rw [getLsbD_readLE m a n i hi, hall (i / 8) (by omega)]
  simp [emptyByte]

/-! ## The word addresses -/

theorem mem_wordAddresses_iff {m : Memory} {a : Nat} :
    a ∈ wordAddresses m ↔ ∃ cell ∈ m, cell.1 - cell.1 % 4 = a := by
  induction m with
  | nil => simp [wordAddresses]
  | cons cell rest ih =>
    obtain ⟨k, b⟩ := cell
    simp only [wordAddresses, List.exists_mem_cons_iff]
    split
    · next hhead =>
      rw [ih, or_iff_right_of_imp]
      rintro rfl
      exact ih.1 (List.mem_of_mem_head? hhead)
    · rw [List.mem_cons, ih, eq_comm]

theorem le_of_mem_cellsFrom {lo : Nat} {m : Memory} (h : cellsFrom lo m = true) {cell : Host.Cell}
    (hc : cell ∈ m) : lo ≤ cell.1 := by
  induction m generalizing lo with
  | nil => cases hc
  | cons first rest ih =>
    simp only [cellsFrom, Bool.and_eq_true, decide_eq_true_eq] at h
    obtain ⟨⟨hlo, -⟩, hrest⟩ := h
    obtain rfl | hc := List.mem_cons.1 hc
    · exact hlo
    · exact Nat.le_of_succ_le (Nat.le_trans (Nat.succ_le_succ hlo) (ih hrest hc))

/-- A lower bound of a rising list that is not its head can stand before it. -/
theorem pairwise_lt_cons {a : Nat} {l : List Nat} (hl : l.Pairwise (· < ·)) (hle : ∀ x ∈ l, a ≤ x)
    (hne : l.head? ≠ some a) : (a :: l).Pairwise (· < ·) := by
  refine List.pairwise_cons.2 ⟨fun x hx => ?_, hl⟩
  cases l with
  | nil => cases hx
  | cons y ys =>
    have hay : a < y := Nat.lt_of_le_of_ne (hle y List.mem_cons_self) (by simpa [eq_comm] using hne)
    obtain rfl | hx := List.mem_cons.1 hx
    · exact hay
    · exact hay.trans (List.rel_of_pairwise_cons hl hx)

/-- The listed addresses of canonical memory rise, so their words' addresses do, each once. -/
theorem wordAddresses_pairwise {lo : Nat} {m : Memory} (h : cellsFrom lo m = true) :
    (wordAddresses m).Pairwise (· < ·) := by
  induction m generalizing lo with
  | nil => exact .nil
  | cons cell rest ih =>
    obtain ⟨k, b⟩ := cell
    simp only [cellsFrom, Bool.and_eq_true] at h
    have hlater := ih h.2
    simp only [wordAddresses]
    split
    · exact hlater
    · next hne =>
      refine pairwise_lt_cons hlater (fun x hx => ?_) hne
      obtain ⟨cell, hc, rfl⟩ := mem_wordAddresses_iff.1 hx
      have hk := le_of_mem_cellsFrom h.2 hc
      omega

/-! ## The words of the dump -/

/-- The aligned address of a word that is not 0 is among the word addresses. -/
theorem mem_wordAddresses_of_readLE_ne_zero {m : Memory} {a : Nat} (ha : a % 4 = 0) (h : readLE m a 4 ≠ 0) :
    a ∈ wordAddresses m := by
  obtain ⟨k, hk, hbyte⟩ := exists_byte_of_readLE_ne_zero h
  obtain ⟨cell, hc, hcell⟩ := exists_cell_of_readByte_ne hbyte
  exact mem_wordAddresses_iff.2 ⟨cell, hc, by omega⟩

theorem mod_four_of_mem_wordAddresses {m : Memory} {a : Nat} (h : a ∈ wordAddresses m) : a % 4 = 0 := by
  obtain ⟨cell, -, rfl⟩ := mem_wordAddresses_iff.1 h
  omega

theorem nonZeroWords_pairwise {m : Memory} (h : Memory.wf m = true) (size : Nat) :
    (nonZeroWords size m).Pairwise fun p q => p.1 < q.1 :=
  List.pairwise_map.2 ((wordAddresses_pairwise h).filter _)

theorem mem_nonZeroWords_iff {size : Nat} {m : Memory} {a : Nat} {w : Word} :
    (a, w) ∈ nonZeroWords size m ↔ a % 4 = 0 ∧ a + 4 ≤ size ∧ readLE m a 4 = w ∧ w ≠ 0 := by
  simp only [nonZeroWords, List.mem_map, List.mem_filter, Bool.and_eq_true, decide_eq_true_eq, Prod.mk.injEq]
  constructor
  · rintro ⟨a, ⟨hmem, hsize, hne⟩, rfl, rfl⟩
    exact ⟨mod_four_of_mem_wordAddresses hmem, hsize, rfl, hne⟩
  · rintro ⟨ha, hsize, rfl, hne⟩
    exact ⟨a, ⟨mem_wordAddresses_of_readLE_ne_zero ha hne, hsize, hne⟩, rfl, rfl⟩

/-! ## The dump -/

theorem finalDump_eq_none_iff (s : State) : finalDump s = none ↔ s.status ≠ .halted := by
  cases hs : s.status <;> simp [finalDump, hs]

theorem eq_dumpOf_of_finalDump {s : State} {d : FinalDump} (h : finalDump s = some d) : d = dumpOf s := by
  unfold finalDump at h
  split at h
  · cases h
  · exact (Option.some.inj h).symm
  · cases h

/-- Register `i` of the dump is `X[i]`. -/
theorem dumpOf_registers_getElem? (s : State) {i : Nat} (hi : i < 31) :
    (dumpOf s).registers[i]? = some (readX (BitVec.ofNat 5 i) s) := by
  have hidx : (BitVec.ofNat 5 i).toNat = i := by
    rw [BitVec.toNat_ofNat]
    omega
  simp [dumpOf, readX, hidx, hi]

/-- Settles O53: the dump's words are the non-zero words at the word addresses, which rise. -/
theorem finalDumpListsTheState : Obligations.FinalDumpListsTheState := by
  refine fun s hinv => ⟨finalDump_eq_none_iff s, fun d hd => ?_⟩
  obtain rfl := eq_dumpOf_of_finalDump hd
  exact ⟨by simp [dumpOf], fun i hi => dumpOf_registers_getElem? s hi, rfl, rfl,
    nonZeroWords_pairwise hinv.1 _, fun a w => mem_nonZeroWords_iff⟩

end Sys2Proof.Machine
end

section
/-!
PROOFS. 20_memory.md R50, R51: every step keeps memory canonical and inside the address space.
-/

namespace Sys2Proof.Machine

/-- The invariant speaks of memory and parameters only. -/
theorem State.Inv.congr {s t : State} (h : s.Inv) (hmem : t.mem = s.mem) (hcfg : t.cfg = s.cfg) : t.Inv := by
  unfold State.Inv
  rw [hmem, hcfg]
  exact h

theorem WritesOnly.inv {ds : List RegIdx} {s t : State} (h : WritesOnly ds s t) (hs : s.Inv) : t.Inv :=
  hs.congr h.mem_eq h.cfg_eq

/-- A store in bounds keeps the invariant. -/
theorem putBytes_inv {s : State} (hs : s.Inv) {ea : DWord} {n : Nat} (hb : ea.toNat + n ≤ s.cfg.memSize) {w : Nat}
    (v : BitVec w) : (putBytes ea n v s).Inv :=
  ⟨writeLE_wf hs.1 ea.toNat n v, writeLE_within hs.2 hb v⟩

/-- Only a store writes memory, and only after its bounds check. -/
theorem exec_inv {i : Instr} {s t : State} (hs : s.Inv) (h : exec i s = .next t) : t.Inv := by
  cases exec_effect h with
  | computes _ ht | computesFlags _ _ _ ht | loads _ _ _ ht => exact (ht.inv hs).congr rfl rfl
  | stores _ _ hok ht =>
    have hbounds := ((dataFault_eq_none_iff _ _ _).1 hok).1
    exact (ht.inv (putBytes_inv hs hbounds _)).congr rfl rfl
  | faults | branches | halts => exact hs.congr rfl rfl

/-- Settles O5: a step raises, which leaves memory alone, or executes an instruction. -/
theorem stepKeepsInvariant : Obligations.StepKeepsInvariant := by
  intro s t hs h
  obtain ⟨-, ⟨c, -, rfl⟩ | ⟨w, e, -, -, rfl⟩ | ⟨i, -, hx⟩⟩ := step_outcome h
  · exact hs.congr rfl rfl
  · exact hs.congr rfl rfl
  · exact exec_inv hs hx

end Sys2Proof.Machine
end

section
/-!
PROOFS. 20_memory.md R68: addresses modulo `2^64`.
-/

namespace Sys2Proof.Machine

/-! ## Signed displacements -/

/-- Adding a signed displacement, modulo `2^w`. -/
theorem toNat_add_ofInt {w : Nat} (x : BitVec w) (d : Int) :
    ((x + BitVec.ofInt w d).toNat : Int) = (x.toNat + d) % 2 ^ w := by
  have hpos : (0 : Int) < 2 ^ w := by positivity
  rw [BitVec.toNat_add, BitVec.toNat_ofInt]
  push_cast
  rw [Int.toNat_of_nonneg (Int.emod_nonneg d hpos.ne'), Int.add_emod_emod]

theorem pcRelative_eq_add_ofInt {k : Nat} (simm : BitVec k) (s : State) :
    pcRelative simm s = s.pc + BitVec.ofInt 64 (4 * simm.toInt) := by
  rw [pcRelative, BitVec.signExtend, mul_comm 4 simm.toInt, BitVec.ofInt_mul]
  rfl

/-- A branch or literal target, modulo `2^64` (43_load_store.md R206, 44_branch.md R230). -/
theorem toNat_pcRelative {k : Nat} (simm : BitVec k) (s : State) :
    ((pcRelative simm s).toNat : Int) = (s.pc.toNat + 4 * simm.toInt) % 2 ^ 64 := by
  rw [pcRelative_eq_add_ofInt, toNat_add_ofInt]

/-- The indexed address, modulo `2^64` (43_load_store.md R203, R204). -/
theorem toNat_eaIndexed (simm9 : BitVec 9) (rn : RegIdx) (s : State) :
    ((eaIndexed simm9 rn s).toNat : Int) = ((readX rn s).toNat + simm9.toInt) % 2 ^ 64 :=
  toNat_add_ofInt (readX rn s) simm9.toInt

/-- The unsigned-offset address, modulo `2^64`: the scaled offset itself does not wrap (43_load_store.md R202). -/
theorem toNat_eaUnsigned (sf : OpSize) (imm12 : BitVec 12) (rn : RegIdx) (s : State) :
    (eaUnsigned sf imm12 rn s).toNat = ((readX rn s).toNat + imm12.toNat * opBytes sf) % 2 ^ 64 := by
  have himm := imm12.isLt
  have hoffset : (imm12.setWidth 64 * BitVec.ofNat 64 (opBytes sf)).toNat = imm12.toNat * opBytes sf := by
    rw [BitVec.toNat_mul, BitVec.toNat_setWidth, BitVec.toNat_ofNat]
    cases sf <;> simp only [opBytes] <;> omega
  rw [eaUnsigned, BitVec.toNat_add, hoffset]

/-- An address that a displacement has wrapped below 0 is near `2^64`, past any memory of up to `2^63` bytes
(decision D17). -/
theorem inBounds_eq_false_of_wraps {cfg : Config} {ea base : DWord} {d : Int}
    (hea : (ea.toNat : Int) = (base.toNat + d) % 2 ^ 64) (hneg : (base.toNat : Int) + d < 0) (hd : -2 ^ 63 < d)
    (hsize : cfg.memSize ≤ 2 ^ 63) (n : Nat) : inBounds cfg ea n = false := by
  have hhigh : 2 ^ 63 < ea.toNat := by omega
  simp only [inBounds, decide_eq_false_iff_not]
  omega

/-- Settles O12. -/
theorem effectiveAddressesWrap : Obligations.EffectiveAddressesWrap := by
  intro sf imm12 simm9 simm19 rn rm s
  have hsimm9 := simm9.le_toInt
  have hsimm19 := simm19.le_toInt
  refine ⟨toNat_eaUnsigned sf imm12 rn s, toNat_eaIndexed simm9 rn s, rfl, BitVec.toNat_add _ _,
    toNat_pcRelative simm19 s, fun hneg hsize => ?_, fun hneg hsize => ?_⟩
  · exact inBounds_eq_false_of_wraps (toNat_eaIndexed simm9 rn s) hneg (by omega) hsize _
  · exact inBounds_eq_false_of_wraps (toNat_pcRelative simm19 s) hneg (by omega) hsize _

end Sys2Proof.Machine
end

section
/-!
PROOFS. 20_memory.md R58: the alignment of `pc`.
-/

namespace Sys2Proof.Machine

theorem fetchFault_of_misaligned {s : State} (h : s.pc.toNat % 4 ≠ 0) :
    fetchFault s = some (.misalignedFetch s.pc) :=
  if_pos h

theorem onlyFaulted_raise (c : FatalCondition) (s : State) : OnlyFaulted s (raise c s) c :=
  ⟨rfl, rfl, rfl, rfl, rfl, rfl⟩

/-! ## Where the next `pc` comes from -/

/-- A load or store leaves `pc` (its access raised a condition) or moves on to the next word. -/
theorem pc_of_exec_access {i : Instr} {s t : State} {access : DWord × Nat} (ha : dataAccess i s = some access)
    (h : exec i s = .next t) : t.pc = s.pc ∨ t.pc = s.pc + 4 := by
  cases exec_effect h with
  | computes hnone | computesFlags _ hnone | branches _ hnone => simp [ha] at hnone
  | faults | halts => exact .inl rfl
  | loads _ _ _ ht | stores _ _ _ ht => exact .inr (by simp [ht.pc_eq])

/-- Every source of the next `pc` but BR's register (44_branch.md R230). -/
theorem pc_of_exec {i : Instr} {s t : State} (h : exec i s = .next t) :
    (∃ rn, i = .br rn) ∨ t.pc = s.pc ∨ t.pc = s.pc + 4 ∨ ∃ k, ∃ simm : BitVec k, t.pc = pcRelative simm s := by
  cases i with
  | br rn => exact .inl ⟨rn, rfl⟩
  | b simm26 =>
    cases h
    exact .inr (.inr (.inr ⟨26, simm26, rfl⟩))
  | bCond simm19 cond =>
    simp only [exec, execBCond] at h
    split at h <;> cases h
    · exact .inr (.inr (.inr ⟨19, simm19, rfl⟩))
    · exact .inr (.inr (.inl rfl))
  | halt =>
    cases h
    exact .inr (.inl rfl)
  | ldrUnsigned | ldrPre | ldrPost | ldrReg | ldrLit | strUnsigned | strPre | strPost | strReg =>
    obtain hsame | hnext := pc_of_exec_access rfl h
    · exact .inr (.inl hsame)
    · exact .inr (.inr (.inl hnext))
  | _ =>
    cases h
    exact .inr (.inr (.inl (by simp)))

/-! ## Alignment -/

theorem add_four_mod_four (pc : DWord) : (pc + 4).toNat % 4 = pc.toNat % 4 := by
  have hfour : (4 : DWord).toNat = 4 := rfl
  rw [BitVec.toNat_add, hfour]
  omega

/-- A target relative to `pc` is as aligned as `pc`: displacements count words, and `2^64` is a multiple of 4. -/
theorem pcRelative_mod_four {k : Nat} (simm : BitVec k) (s : State) :
    (pcRelative simm s).toNat % 4 = s.pc.toNat % 4 := by
  have htarget := toNat_pcRelative simm s
  omega

/-- An instruction that misaligns `pc` is BR. -/
theorem eq_br_of_exec_misaligns {i : Instr} {s t : State} (h : exec i s = .next t) (hs : s.pc.toNat % 4 = 0)
    (ht : t.pc.toNat % 4 ≠ 0) : ∃ rn, i = .br rn := by
  obtain hbr | hsame | hnext | ⟨k, simm, htarget⟩ := pc_of_exec h
  · exact hbr
  · exact absurd (hsame ▸ hs) ht
  · rw [hnext, add_four_mod_four] at ht
    exact absurd hs ht
  · rw [htarget, pcRelative_mod_four] at ht
    exact absurd hs ht

/-- Settles O31: the fetch looks at `pc` before memory, and every source of the next `pc` but a register keeps
it aligned. -/
theorem onlyRegisterBranchMisalignsPc : Obligations.OnlyRegisterBranchMisalignsPc := by
  refine ⟨fun s m hs hpc => ?_, fun s t h hs ht => ?_⟩
  · exact ⟨_, step_of_fetchFault hs (fetchFault_of_misaligned hpc), onlyFaulted_raise _ _⟩
  · obtain ⟨-, ⟨c, -, rfl⟩ | ⟨w, e, -, -, rfl⟩ | ⟨i, he, hx⟩⟩ := step_outcome h
    · exact absurd hs ht
    · exact absurd hs ht
    · obtain ⟨rn, rfl⟩ := eq_br_of_exec_misaligns hx hs ht
      exact ⟨rn, he⟩

end Sys2Proof.Machine
end

section
/-!
PROOFS. 20_memory.md R52, R53, R56, R61: what little-endian reads and writes see of each other, and of the image.
-/

namespace Sys2Proof.Machine

/-! ## Reading, byte by byte -/

/-- A value whose bytes are those of memory is the value read (20_memory.md R52). -/
theorem readLE_eq_of_bytes {m : Memory} {a n : Nat} {v : BitVec (8 * n)}
    (h : ∀ k < n, readByte m (a + k) = v.extractLsb' (8 * k) 8) : readLE m a n = v := by
  refine BitVec.eq_of_getLsbD_eq fun i hi => ?_
  have hbit : 8 * (i / 8) + i % 8 = i := Nat.div_add_mod i 8
  have hlow : i % 8 < 8 := Nat.mod_lt i (by decide)
  rw [getLsbD_readLE m a n i hi, h (i / 8) (by omega), BitVec.getLsbD_extractLsb', hbit]
  simp [hlow]

/-- Eight bytes are two words, the one at the lower address least significant. -/
theorem readLE_eight (m : Memory) (a : Nat) : readLE m a 8 = (readLE m (a + 4) 4 ++ readLE m a 4 : BitVec 64) := by
  refine BitVec.eq_of_getLsbD_eq fun i hi => ?_
  rw [getLsbD_readLE m a 8 i hi, BitVec.getLsbD_append]
  split
  · next hlow => rw [getLsbD_readLE m a 4 i hlow]
  · next hhigh =>
    have hbyte : a + 4 + (i - 8 * 4) / 8 = a + i / 8 := by omega
    have hbit : (i - 8 * 4) % 8 = i % 8 := by omega
    rw [getLsbD_readLE m (a + 4) 4 _ (by omega), hbyte, hbit]

/-! ## Reading after writing -/

/-- Byte `j` of a slice that starts at byte `offset`. -/
theorem extract_byte_extract {w : Nat} (v : BitVec w) {offset k j : Nat} (hj : j < k) :
    (v.extractLsb' (8 * offset) (8 * k)).extractLsb' (8 * j) 8 = v.extractLsb' (8 * offset + 8 * j) 8 := by
  ext b hb
  have hin : 8 * j + b < 8 * k := by omega
  simp [hin, Nat.add_assoc]

/-- A read inside the bytes written gives the bits at its own offset (20_memory.md R56). -/
theorem readLE_writeLE_inside {m : Memory} (hm : Memory.wf m = true) (a : Nat) {n k offset : Nat}
    (h : offset + k ≤ n) {w : Nat} (v : BitVec w) :
    readLE (writeLE m a n v) (a + offset) k = v.extractLsb' (8 * offset) (8 * k) := by
  refine readLE_eq_of_bytes fun j hj => ?_
  have hin : a ≤ a + offset + j ∧ a + offset + j < a + n := by omega
  have hbyte : 8 * (a + offset + j - a) = 8 * offset + 8 * j := by omega
  rw [readByte_writeLE hm, if_pos hin, hbyte, extract_byte_extract v hj]

/-- A read apart from the bytes written gives what it gave before (20_memory.md R53). -/
theorem readLE_writeLE_disjoint {m : Memory} (hm : Memory.wf m = true) {a n b k : Nat} (h : b + k ≤ a ∨ a + n ≤ b)
    {w : Nat} (v : BitVec w) : readLE (writeLE m a n v) b k = readLE m b k :=
  readLE_congr fun j hj => by rw [readByte_writeLE hm, if_neg (by omega)]

/-- Settles O9. -/
theorem mixedWidthAccessesSeeTheirBytes : Obligations.MixedWidthAccessesSeeTheirBytes := by
  intro m a v lo hi hm
  refine ⟨readLE_writeLE_inside hm a (offset := 0) (by omega) v, readLE_writeLE_inside hm a (by omega) v, ?_⟩
  have hlow : readLE (writeLE (writeLE m a 4 lo) (a + 4) 4 hi) a 4 = lo := by
    rw [readLE_writeLE_disjoint (writeLE_wf hm a 4 lo) (.inl le_rfl), readLE_writeLE hm]
    exact BitVec.setWidth_eq lo
  have hhigh : readLE (writeLE (writeLE m a 4 lo) (a + 4) 4 hi) (a + 4) 4 = hi := by
    rw [readLE_writeLE (writeLE_wf hm a 4 lo)]
    exact BitVec.setWidth_eq hi
  rw [readLE_eight, hlow, hhigh]

/-! ## Writing after writing -/

/-- Writes to disjoint bytes commute. -/
theorem writeLE_comm {m : Memory} (hm : Memory.wf m = true) {a n b k : Nat} (h : a + n ≤ b) {w w' : Nat}
    (u : BitVec w) (v : BitVec w') :
    writeLE (writeLE m a n u) b k v = writeLE (writeLE m b k v) a n u := by
  have ha := writeLE_wf hm a n u
  have hb := writeLE_wf hm b k v
  refine memory_ext (writeLE_wf ha b k v) (writeLE_wf hb a n u) fun j => ?_
  rw [readByte_writeLE ha, readByte_writeLE hm, readByte_writeLE hb, readByte_writeLE hm]
  by_cases hj : a ≤ j ∧ j < a + n
  · have hout : ¬(b ≤ j ∧ j < b + k) := by omega
    rw [if_neg hout, if_pos hj, if_pos hj]
  · rw [if_neg hj, if_neg hj]

/-- A write replaces an earlier one to the same bytes. -/
theorem writeLE_writeLE_same {m : Memory} (hm : Memory.wf m = true) (a n : Nat) {w w' : Nat} (u : BitVec w)
    (v : BitVec w') : writeLE (writeLE m a n u) a n v = writeLE m a n v := by
  have ha := writeLE_wf hm a n u
  refine memory_ext (writeLE_wf ha a n v) (writeLE_wf hm a n v) fun j => ?_
  rw [readByte_writeLE ha, readByte_writeLE hm, readByte_writeLE hm]
  by_cases hj : a ≤ j ∧ j < a + n
  · rw [if_pos hj, if_pos hj]
  · rw [if_neg hj, if_neg hj, if_neg hj]

/-- Settles O10: canonical memories that read alike are equal, so both laws are laws of reading. -/
theorem disjointStoresCommute : Obligations.DisjointStoresCommute :=
  fun _ a _ u v hm h => ⟨writeLE_comm hm h u v, writeLE_writeLE_same hm a 8 u v⟩

/-! ## The image -/

@[simp] theorem length_imageOf (words : List Word) : (imageOf words).length = 4 * words.length := by
  induction words with
  | nil => rfl
  | cons w rest ih =>
    have hcons : (imageOf (w :: rest)).length = 4 + (imageOf rest).length := by
      simp only [imageOf, List.flatMap_cons, List.length_append, bytesOfWord]
      rfl
    rw [hcons, ih, List.length_cons]
    omega

/-- Byte `k` of word `i` stands at place `4i + k` of the image (30_encoding.md R117). -/
theorem imageOf_getElem? {words : List Word} {i : Nat} {w : Word} (h : words[i]? = some w) {k : Nat} (hk : k < 4) :
    (imageOf words)[4 * i + k]? = some (w.extractLsb' (8 * k) 8) := by
  induction words generalizing i with
  | nil => simp at h
  | cons first rest ih =>
    have hcons : imageOf (first :: rest) = bytesOfWord first ++ imageOf rest := rfl
    cases i with
    | zero =>
      obtain rfl : first = w := by simpa using h
      rw [hcons, List.getElem?_append_left (by simpa [bytesOfWord] using hk)]
      interval_cases k <;> rfl
    | succ i =>
      have hplace : 4 * (i + 1) + k - (bytesOfWord first).length = 4 * i + k := by
        simp only [bytesOfWord, List.length_cons, List.length_nil]
        omega
      rw [hcons, List.getElem?_append_right (by simp only [bytesOfWord, List.length_cons, List.length_nil]; omega),
        hplace]
      exact ih (by simpa using h)

/-- Settles O2: a loaded byte is the image's, whose first `4 * words.length` bytes are the words'. -/
theorem imageIsLoadedOrRefused : Obligations.ImageIsLoadedOrRefused := by
  intro cfg words trailing
  have hlen : (imageOf words ++ trailing).length = 4 * words.length + trailing.length := by simp
  refine ⟨fun hfit => ⟨_, launch_eq_some_iff.2 ⟨hlen ▸ hfit, rfl⟩, fun i w hw => ?_, fun k b hb => ?_, fun a ha => ?_⟩,
    fun hlong => ?_⟩
  · refine readLE_eq_of_bytes fun k hk => ?_
    have hbyte := imageOf_getElem? hw hk
    have hplace := (List.getElem?_eq_some_iff.1 hbyte).1
    rw [resetWith_mem, readByte_loaded, List.getD_append _ _ _ _ hplace, List.getD_eq_getElem?_getD, hbyte]
    rfl
  · rw [resetWith_mem, readByte_loaded, List.getD_append_right _ _ _ _ (by simp)]
    simp [hb]
  · rw [resetWith_mem, readByte_loaded, List.getD_eq_default _ _ (hlen ▸ ha)]
  · exact if_neg (by omega)

end Sys2Proof.Machine
end

section
/-!
PROOFS. 20_memory.md R51 to R53, R57, R66: data accesses, with their bounds and alignment checks.
-/

namespace Sys2Proof.Machine

/-! ## The conditions of an access -/

theorem dataFault_of_outOfBounds {ea : DWord} {n : Nat} {s : State} (h : s.cfg.memSize < ea.toNat + n) :
    dataFault ea n s = some (.outOfBoundsAccess ea n s.pc) :=
  if_pos (decide_eq_false (by omega))

theorem dataFault_of_misaligned {ea : DWord} {n : Nat} {s : State} (hb : ea.toNat + n ≤ s.cfg.memSize)
    (hp : s.cfg.misalignedData = .fault) (ha : ea.toNat % n ≠ 0) :
    dataFault ea n s = some (.misalignedData ea n s.pc) := by
  simp [dataFault, inBounds, misaligned, hb, hp, ha]

/-- Settles O11. -/
theorem alignmentPolicy : Obligations.AlignmentPolicy := by
  intro ea sf s
  refine ⟨fun hp hb => ?_, fun hp hb => ⟨fun ha => ?_, fun ha => ?_⟩, fun hb => ?_⟩
  · exact (dataFault_eq_none_iff ea (opBytes sf) s).2 ⟨hb, .inl hp⟩
  · exact dataFault_of_misaligned hb hp ha
  · exact (dataFault_eq_none_iff ea (opBytes sf) s).2 ⟨hb, .inr ha⟩
  · exact dataFault_of_outOfBounds hb

/-! ## Loads and stores of data -/

theorem loadData_of_fault {ea : DWord} {n : Nat} {s : State} {c : FatalCondition} (h : dataFault ea n s = some c) :
    loadData ea n s = .error c := by
  simp only [loadData, h]

theorem storeData_of_fault {ea : DWord} {n w : Nat} {s : State} {c : FatalCondition} (h : dataFault ea n s = some c)
    (v : BitVec w) : storeData ea n v s = .error c := by
  simp only [storeData, h]

theorem storedAt_putBytes {s : State} (hs : s.Inv) (ea : DWord) (n : Nat) {w : Nat} (v : BitVec w) :
    StoredAt s (putBytes ea n v s) ea n v :=
  storedAt_of_mem_eq hs.1 (putBytes_mem ea n v s)

/-- Settles O8. -/
theorem memReadAndWriteAreLittleEndian : Obligations.MemReadAndWriteAreLittleEndian := by
  intro ea n w v s _ _ hs
  have hload := loadedFrom_readLE s ea n
  have hstore := storedAt_putBytes hs ea n v
  refine ⟨fun _ => ⟨hload, hstore⟩, fun hb => ?_, fun hok => ?_⟩
  · have hfault := dataFault_of_outOfBounds hb
    exact ⟨loadData_of_fault hfault, storeData_of_fault hfault v⟩
  · exact ⟨⟨_, loadData_of_allowed hok, hload⟩,
      ⟨_, storeData_of_allowed hok v, hstore, fun r => readX_putBytes r ea n v s, ⟨rfl, rfl, rfl⟩, rfl⟩⟩

/-! ## A store over the next instruction -/

/-- Settles O51: the fetch reads the memory that the store has written. -/
theorem storeToNextWordIsFetched : Obligations.StoreToNextWordIsFetched := by
  intro imm12 rn rt s hs hrun hpc hea hok
  refine ⟨_, storeThen_of_allowed (hea ▸ hok) rt id, hrun, ?_, hok.1, ?_⟩
  · simpa [add_four_mod_four] using hpc
  · simp only [advance_mem, advance_pc, id, putBytes_mem, putBytes_pc, hea]
    rw [opBytes, readLE_writeLE hs.1]
    exact BitVec.setWidth_eq _

end Sys2Proof.Machine
end

section
/-!
SUPPORT. 30_encoding.md R98 to R102: the decision tree, one equation for each group of words, and the
constraints of 30_encoding.md R99 to R101 as the decoder tests them.
-/

namespace Sys2Proof

/-! ## Constraints as bit tests -/

theorem decide_ofBool_eq_one (b : Bool) : decide (BitVec.ofBool b = 1) = b := by cases b <;> rfl

/-- A field of a field is a field of the word. -/
theorem extractLsb'_field (w : Word) (lo len i n : Nat) (h : i + n ≤ len) :
    (field w lo len).extractLsb' i n = field w (lo + i) n := by
  apply BitVec.eq_of_getLsbD_eq
  intro j hj
  have hlen : i + j < len := by omega
  simp [field, hj, hlen, Nat.add_assoc]

theorem hwValid_iff (sf : OpSize) (hw : BitVec 2) :
    hwValid sf hw = true ↔ ¬(sfBit sf = 0 ∧ hw.extractLsb' 1 1 = 1) := by
  cases sf <;> revert hw <;> decide

theorem shiftAmountValid_iff (sf : OpSize) (imm6 : BitVec 6) :
    shiftAmountValid sf imm6 = true ↔ ¬(sfBit sf = 0 ∧ imm6.extractLsb' 5 1 = 1) := by
  cases sf <;> revert imm6 <;> decide

theorem arithShiftValid_iff (sf : OpSize) (shift : ShiftKind) (imm6 : BitVec 6) :
    arithShiftValid sf shift imm6 = true ↔ shiftBits shift ≠ 0b11 ∧ shiftAmountValid sf imm6 = true := by
  have hror : shift ≠ .ror ↔ shiftBits shift ≠ 0b11 := by cases shift <;> decide
  rw [arithShiftValid, Bool.and_eq_true, decide_eq_true_eq, hror]

theorem writebackValid_iff (o : WbOverlap) (rn rt : RegIdx) :
    writebackValid o rn rt = true ↔ overlapRefused o rn rt = false := by
  cases o <;> simp [writebackValid, overlapRefused, or_iff_not_imp_left]

/-! ## The classes (30_encoding.md R98) -/

variable {o : WbOverlap} {w : Word}

theorem decodeClass_of_dpi (h : field w 25 4 = 0b1000 ∨ field w 25 4 = 0b1001) : decodeClass o w = decodeDpi w := by
  rcases h with h | h <;> simp [decodeClass, h]

theorem decodeClass_of_dpr (h : field w 25 4 = 0b0101 ∨ field w 25 4 = 0b1101) : decodeClass o w = decodeDpr w := by
  rcases h with h | h <;> simp [decodeClass, h]

theorem decodeClass_of_loadStore (h : field w 25 4 = 0b1100) : decodeClass o w = decodeLoadStore o w := by
  simp [decodeClass, h]

theorem decodeClass_of_branch (h : field w 25 4 = 0b1010 ∨ field w 25 4 = 0b1011) :
    decodeClass o w = decodeBranch w := by
  rcases h with h | h <;> simp [decodeClass, h]

/-! ## Data processing (30_encoding.md R99, R100) -/

/-- The arithmetic instruction of an `opc`, register form (30_encoding.md R85). -/
def arithRegOf (opc : BitVec 2) (sf : OpSize) (shift : ShiftKind) (rm : RegIdx) (imm6 : BitVec 6) (rn rd : RegIdx) :
    Instr :=
  if opc = 0b00 then .addReg sf shift rm imm6 rn rd
  else if opc = 0b01 then .addsReg sf shift rm imm6 rn rd
  else if opc = 0b10 then .subReg sf shift rm imm6 rn rd
  else .subsReg sf shift rm imm6 rn rd

/-- The logical instruction of an `opc` and the complement bit (30_encoding.md R86). -/
def logicalOf (opc : BitVec 2) (n : BitVec 1) (sf : OpSize) (shift : ShiftKind) (rm : RegIdx) (imm6 : BitVec 6)
    (rn rd : RegIdx) : Instr :=
  if n = 0 then
    if opc = 0b00 then .andReg sf shift rm imm6 rn rd
    else if opc = 0b01 then .orrReg sf shift rm imm6 rn rd
    else if opc = 0b10 then .eorReg sf shift rm imm6 rn rd
    else .andsReg sf shift rm imm6 rn rd
  else
    if opc = 0b00 then .bicReg sf shift rm imm6 rn rd
    else if opc = 0b01 then .ornReg sf shift rm imm6 rn rd
    else if opc = 0b10 then .eonReg sf shift rm imm6 rn rd
    else .bicsReg sf shift rm imm6 rn rd

theorem decodeDpi_of_arith (h : field w 23 3 = 0b010) : decodeDpi w = .ok (decodeArithImm w) := by
  simp [decodeDpi, h]

theorem decodeDpi_of_moveWide (h : field w 23 3 = 0b101) : decodeDpi w = decodeMoveWide w := by
  simp [decodeDpi, h]

/-- The mask tests of 30_encoding.md R100 on `opr` are tests of bits 24 and 21. -/
theorem opr_arith_iff (w : Word) : field w 21 4 &&& 0b1001 = 0b1000 ↔ field w 24 1 = 1 ∧ field w 21 1 = 0 := by
  have hbits : ∀ opr : BitVec 4, opr &&& 0b1001 = 0b1000 ↔ opr.extractLsb' 3 1 = 1 ∧ opr.extractLsb' 0 1 = 0 := by
    decide
  rw [hbits, extractLsb'_field w 21 4 3 1 (by decide), extractLsb'_field w 21 4 0 1 (by decide)]

theorem opr_logical_iff (w : Word) : field w 21 4 &&& 0b1000 = 0b0000 ↔ field w 24 1 = 0 := by
  have hbit : ∀ opr : BitVec 4, opr &&& 0b1000 = 0b0000 ↔ opr.extractLsb' 3 1 = 0 := by decide
  rw [hbit, extractLsb'_field w 21 4 3 1 (by decide)]

theorem decodeDpr_of_arith (h28 : field w 28 1 = 0) (h24 : field w 24 1 = 1) (h21 : field w 21 1 = 0) :
    decodeDpr w = decodeArithReg w :=
  if_pos ⟨h28, (opr_arith_iff w).2 ⟨h24, h21⟩⟩

theorem decodeDpr_of_logical (h28 : field w 28 1 = 0) (h24 : field w 24 1 = 0) : decodeDpr w = decodeLogical w := by
  have harith : ¬(field w 28 1 = 0 ∧ field w 21 4 &&& 0b1001 = 0b1000) := by
    rw [opr_arith_iff, h24]
    simp
  exact (if_neg harith).trans (if_pos ⟨h28, (opr_logical_iff w).2 h24⟩)

theorem decodeDpr_of_multiply (h28 : field w 28 1 = 1) (hopr : field w 21 4 = 0b1000) (hopc : field w 29 2 = 0b00) :
    decodeDpr w = .ok (decodeMultiply w) := by
  simp [decodeDpr, h28, hopr, hopc]

theorem hwValid_field_iff (w : Word) :
    hwValid (opSizeOf (field w 31 1)) (field w 21 2) = true ↔ ¬(field w 31 1 = 0 ∧ field w 22 1 = 1) := by
  rw [hwValid_iff, sfBit_opSizeOf, extractLsb'_field w 21 2 1 1 (by decide)]

theorem shiftAmountValid_field_iff (w : Word) :
    shiftAmountValid (opSizeOf (field w 31 1)) (field w 10 6) = true ↔ ¬(field w 31 1 = 0 ∧ field w 15 1 = 1) := by
  rw [shiftAmountValid_iff, sfBit_opSizeOf, extractLsb'_field w 10 6 5 1 (by decide)]

theorem arithShiftValid_field_iff (w : Word) :
    arithShiftValid (opSizeOf (field w 31 1)) (shiftKindOf (field w 22 2)) (field w 10 6) = true ↔
      field w 22 2 ≠ 0b11 ∧ ¬(field w 31 1 = 0 ∧ field w 15 1 = 1) := by
  rw [arithShiftValid_iff, shiftBits_shiftKindOf, shiftAmountValid_field_iff]

theorem decodeMoveWide_of_valid (hopc : field w 29 2 ≠ 0b01)
    (hvalid : hwValid (opSizeOf (field w 31 1)) (field w 21 2) = true) :
    decodeMoveWide w =
      .ok (if field w 29 2 = 0b00 then .movn (opSizeOf (field w 31 1)) (field w 21 2) (field w 5 16) (field w 0 5)
        else if field w 29 2 = 0b10 then .movz (opSizeOf (field w 31 1)) (field w 21 2) (field w 5 16) (field w 0 5)
        else .movk (opSizeOf (field w 31 1)) (field w 21 2) (field w 5 16) (field w 0 5)) := by
  simp only [decodeMoveWide, hopc, (hwValid_field_iff w).1 hvalid, if_false, apply_ite Except.ok]

theorem decodeArithReg_of_valid
    (hvalid : arithShiftValid (opSizeOf (field w 31 1)) (shiftKindOf (field w 22 2)) (field w 10 6) = true) :
    decodeArithReg w =
      .ok (arithRegOf (field w 29 2) (opSizeOf (field w 31 1)) (shiftKindOf (field w 22 2)) (field w 16 5)
        (field w 10 6) (field w 5 5) (field w 0 5)) := by
  obtain ⟨hror, hsmall⟩ := (arithShiftValid_field_iff w).1 hvalid
  simp only [decodeArithReg, arithRegOf, hror, hsmall, if_false, apply_ite Except.ok]

theorem decodeLogical_of_valid (hvalid : shiftAmountValid (opSizeOf (field w 31 1)) (field w 10 6) = true) :
    decodeLogical w =
      .ok (logicalOf (field w 29 2) (field w 21 1) (opSizeOf (field w 31 1)) (shiftKindOf (field w 22 2))
        (field w 16 5) (field w 10 6) (field w 5 5) (field w 0 5)) := by
  simp only [decodeLogical, logicalOf, (shiftAmountValid_field_iff w).1 hvalid, if_false, apply_ite Except.ok]

/-! ## Loads and stores (30_encoding.md R101) -/

theorem decodeLoadStore_of_literal (h31 : field w 31 1 = 0) (hfixed : field w 24 6 = 0b011000) :
    decodeLoadStore o w = .ok (.ldrLit (opSizeOf (field w 30 1)) (field w 5 19) (field w 0 5)) := by
  simp [decodeLoadStore, h31, hfixed]

theorem decodeLoadStore_of_unsigned (h31 : field w 31 1 = 1) (hfixed : field w 25 5 = 0b11100)
    (h23 : field w 23 1 = 0) (h24 : field w 24 1 = 1) :
    decodeLoadStore o w =
      .ok (if field w 22 1 = 1 then .ldrUnsigned (opSizeOf (field w 30 1)) (field w 10 12) (field w 5 5) (field w 0 5)
        else .strUnsigned (opSizeOf (field w 30 1)) (field w 10 12) (field w 5 5) (field w 0 5)) := by
  simp [decodeLoadStore, h31, hfixed, h23, h24, apply_ite Except.ok]

theorem decodeLoadStore_of_regOffset (h31 : field w 31 1 = 1) (hfixed : field w 25 5 = 0b11100)
    (h23 : field w 23 1 = 0) (h24 : field w 24 1 = 0) (h21 : field w 21 1 = 1) (hsub : field w 10 6 = 0b011010) :
    decodeLoadStore o w =
      .ok (if field w 22 1 = 1 then .ldrReg (opSizeOf (field w 30 1)) (field w 16 5) (field w 5 5) (field w 0 5)
        else .strReg (opSizeOf (field w 30 1)) (field w 16 5) (field w 5 5) (field w 0 5)) := by
  simp [decodeLoadStore, h31, hfixed, h23, h24, h21, hsub, apply_ite Except.ok]

theorem decodeLoadStore_of_preIndexed (h31 : field w 31 1 = 1) (hfixed : field w 25 5 = 0b11100)
    (h23 : field w 23 1 = 0) (h24 : field w 24 1 = 0) (h21 : field w 21 1 = 0) (hmode : field w 10 2 = 0b11)
    (hover : overlapRefused o (field w 5 5) (field w 0 5) = false) :
    decodeLoadStore o w =
      .ok (if field w 22 1 = 1 then .ldrPre (opSizeOf (field w 30 1)) (field w 12 9) (field w 5 5) (field w 0 5)
        else .strPre (opSizeOf (field w 30 1)) (field w 12 9) (field w 5 5) (field w 0 5)) := by
  simp [decodeLoadStore, h31, hfixed, h23, h24, h21, hmode, hover, apply_ite Except.ok]

theorem decodeLoadStore_of_postIndexed (h31 : field w 31 1 = 1) (hfixed : field w 25 5 = 0b11100)
    (h23 : field w 23 1 = 0) (h24 : field w 24 1 = 0) (h21 : field w 21 1 = 0) (hmode : field w 10 2 = 0b01)
    (hover : overlapRefused o (field w 5 5) (field w 0 5) = false) :
    decodeLoadStore o w =
      .ok (if field w 22 1 = 1 then .ldrPost (opSizeOf (field w 30 1)) (field w 12 9) (field w 5 5) (field w 0 5)
        else .strPost (opSizeOf (field w 30 1)) (field w 12 9) (field w 5 5) (field w 0 5)) := by
  simp [decodeLoadStore, h31, hfixed, h23, h24, h21, hmode, hover, apply_ite Except.ok]

/-! ## Branches (30_encoding.md R102) -/

theorem decodeBranch_of_b (hsub : field w 29 3 = 0b000) : decodeBranch w = .ok (.b (field w 0 26)) := by
  simp [decodeBranch, hsub]

theorem decodeBranch_of_br (hsub : field w 29 3 = 0b110) (hfixed : field w 10 22 = 0b1101011000011111000000)
    (hlow : field w 0 5 = 0b00000) : decodeBranch w = .ok (.br (field w 5 5)) := by
  simp [decodeBranch, hsub, hfixed, hlow]

theorem decodeBranch_of_bCond (hsub : field w 29 3 = 0b010) (h24 : field w 24 2 = 0b00) (h4 : field w 4 1 = 0)
    {c : Cond} (hc : condOf (field w 0 4) = some c) : decodeBranch w = .ok (.bCond (field w 5 19) c) := by
  simp [decodeBranch, hsub, h24, h4, hc]

end Sys2Proof
end

section
/-!
PROOFS. 30_encoding.md R118: decoding what the encoder writes.
-/

namespace Sys2Proof

/-! ## A format's word -/

theorem decodeClass_encArithImm (o : WbOverlap) (opc : BitVec 2) (sf : OpSize) (sh : Bool) (imm12 : BitVec 12)
    (rn rd : RegIdx) :
    decodeClass o (encArithImm opc sf sh imm12 rn rd) =
      .ok (if opc = 0b00 then .addImm sf sh imm12 rn rd
        else if opc = 0b01 then .addsImm sf sh imm12 rn rd
        else if opc = 0b10 then .subImm sf sh imm12 rn rd
        else .subsImm sf sh imm12 rn rd) := by
  obtain ⟨hsf, hopc, hclass, hopi, hsh, himm, hrn, hrd⟩ := encArithImm_fields opc sf sh imm12 rn rd
  rw [decodeClass_of_dpi (.inl hclass), decodeDpi_of_arith hopi]
  simp only [decodeArithImm, hsf, hopc, hsh, himm, hrn, hrd, opSizeOf_sfBit, decide_ofBool_eq_one]

theorem decodeClass_encMoveWide (o : WbOverlap) {opc : BitVec 2} (hne : opc ≠ 0b01) {sf : OpSize} {hw : BitVec 2}
    (hvalid : hwValid sf hw = true) (imm16 : BitVec 16) (rd : RegIdx) :
    decodeClass o (encMoveWide opc sf hw imm16 rd) =
      .ok (if opc = 0b00 then .movn sf hw imm16 rd
        else if opc = 0b10 then .movz sf hw imm16 rd
        else .movk sf hw imm16 rd) := by
  obtain ⟨hsf, hopc, hclass, hopi, -, hhw, himm, hrd⟩ := encMoveWide_fields opc sf hw imm16 rd
  rw [decodeClass_of_dpi (.inr hclass), decodeDpi_of_moveWide hopi, decodeMoveWide_of_valid] <;>
    simp only [hsf, hopc, hhw, himm, hrd, opSizeOf_sfBit]
  · exact hne
  · exact hvalid

theorem decodeClass_encArithReg (o : WbOverlap) (opc : BitVec 2) {sf : OpSize} {shift : ShiftKind} (rm : RegIdx)
    {imm6 : BitVec 6} (hvalid : arithShiftValid sf shift imm6 = true) (rn rd : RegIdx) :
    decodeClass o (encArithReg opc sf shift rm imm6 rn rd) = .ok (arithRegOf opc sf shift rm imm6 rn rd) := by
  obtain ⟨hsf, hopc, h28, hclass, hopr, hshift, hrm, -, himm, hrn, hrd⟩ :=
    encArithReg_fields opc sf shift rm imm6 rn rd
  have hgroup : (1#1 ++ shiftBits shift ++ 0#1 : BitVec 4) &&& 0b1001 = 0b1000 := by cases shift <;> rfl
  obtain ⟨h24, h21⟩ := (opr_arith_iff _).1 (hopr ▸ hgroup)
  rw [decodeClass_of_dpr (.inl hclass), decodeDpr_of_arith h28 h24 h21, decodeArithReg_of_valid] <;>
    simp only [hsf, hopc, hshift, hrm, himm, hrn, hrd, opSizeOf_sfBit, shiftKindOf_shiftBits]
  exact hvalid

theorem decodeClass_encLogical (o : WbOverlap) (opc : BitVec 2) (n : BitVec 1) {sf : OpSize} (shift : ShiftKind)
    (rm : RegIdx) {imm6 : BitVec 6} (hvalid : shiftAmountValid sf imm6 = true) (rn rd : RegIdx) :
    decodeClass o (encLogical opc n sf shift rm imm6 rn rd) = .ok (logicalOf opc n sf shift rm imm6 rn rd) := by
  obtain ⟨hsf, hopc, h28, hclass, hopr, hshift, hn, hrm, -, himm, hrn, hrd⟩ :=
    encLogical_fields opc n sf shift rm imm6 rn rd
  have hgroup : ∀ b : BitVec 1, (0#1 ++ shiftBits shift ++ b : BitVec 4) &&& 0b1000 = 0b0000 := by
    cases shift <;> decide
  have h24 := (opr_logical_iff _).1 (hopr ▸ hgroup n)
  rw [decodeClass_of_dpr (.inl hclass), decodeDpr_of_logical h28 h24, decodeLogical_of_valid] <;>
    simp only [hsf, hopc, hshift, hn, hrm, himm, hrn, hrd, opSizeOf_sfBit, shiftKindOf_shiftBits]
  exact hvalid

theorem decodeClass_encMultiply (o : WbOverlap) (x : BitVec 1) (sf : OpSize) (rm ra rn rd : RegIdx) :
    decodeClass o (encMultiply x sf rm ra rn rd) =
      .ok (if x = 0 then .madd sf rm ra rn rd else .msub sf rm ra rn rd) := by
  obtain ⟨hsf, hopc, h28, hclass, hopr, hrm, hx, hra, hrn, hrd⟩ := encMultiply_fields x sf rm ra rn rd
  rw [decodeClass_of_dpr (.inr hclass), decodeDpr_of_multiply h28 hopr hopc]
  simp only [decodeMultiply, hsf, hrm, hx, hra, hrn, hrd, opSizeOf_sfBit]

theorem decodeClass_encUnsigned (o : WbOverlap) (l : BitVec 1) (sf : OpSize) (imm12 : BitVec 12) (rn rt : RegIdx) :
    decodeClass o (encUnsigned l sf imm12 rn rt) =
      .ok (if l = 1 then .ldrUnsigned sf imm12 rn rt else .strUnsigned sf imm12 rn rt) := by
  obtain ⟨h31, hsf, hclass, hfixed, h24, h23, hl, himm, hrn, hrt⟩ := encUnsigned_fields l sf imm12 rn rt
  rw [decodeClass_of_loadStore hclass, decodeLoadStore_of_unsigned h31 hfixed h23 h24]
  simp only [hsf, hl, himm, hrn, hrt, opSizeOf_sfBit]

theorem decodeClass_encIndexed_pre {o : WbOverlap} (l : BitVec 1) (sf : OpSize) (simm9 : BitVec 9) {rn rt : RegIdx}
    (hvalid : writebackValid o rn rt = true) :
    decodeClass o (encIndexed l 0b11 sf simm9 rn rt) =
      .ok (if l = 1 then .ldrPre sf simm9 rn rt else .strPre sf simm9 rn rt) := by
  obtain ⟨h31, hsf, hclass, hfixed, h24, h23, hl, h21, hsimm, hmode, hrn, hrt⟩ :=
    encIndexed_fields l 0b11 sf simm9 rn rt
  have hover := (writebackValid_iff o rn rt).1 hvalid
  rw [decodeClass_of_loadStore hclass,
    decodeLoadStore_of_preIndexed h31 hfixed h23 h24 h21 hmode (hrn.symm ▸ hrt.symm ▸ hover)]
  simp only [hsf, hl, hsimm, hrn, hrt, opSizeOf_sfBit]

theorem decodeClass_encIndexed_post {o : WbOverlap} (l : BitVec 1) (sf : OpSize) (simm9 : BitVec 9) {rn rt : RegIdx}
    (hvalid : writebackValid o rn rt = true) :
    decodeClass o (encIndexed l 0b01 sf simm9 rn rt) =
      .ok (if l = 1 then .ldrPost sf simm9 rn rt else .strPost sf simm9 rn rt) := by
  obtain ⟨h31, hsf, hclass, hfixed, h24, h23, hl, h21, hsimm, hmode, hrn, hrt⟩ :=
    encIndexed_fields l 0b01 sf simm9 rn rt
  have hover := (writebackValid_iff o rn rt).1 hvalid
  rw [decodeClass_of_loadStore hclass,
    decodeLoadStore_of_postIndexed h31 hfixed h23 h24 h21 hmode (hrn.symm ▸ hrt.symm ▸ hover)]
  simp only [hsf, hl, hsimm, hrn, hrt, opSizeOf_sfBit]

theorem decodeClass_encRegOffset (o : WbOverlap) (l : BitVec 1) (sf : OpSize) (rm rn rt : RegIdx) :
    decodeClass o (encRegOffset l sf rm rn rt) =
      .ok (if l = 1 then .ldrReg sf rm rn rt else .strReg sf rm rn rt) := by
  obtain ⟨h31, hsf, hclass, hfixed, h24, h23, hl, h21, hrm, hsub, hrn, hrt⟩ := encRegOffset_fields l sf rm rn rt
  rw [decodeClass_of_loadStore hclass, decodeLoadStore_of_regOffset h31 hfixed h23 h24 h21 hsub]
  simp only [hsf, hl, hrm, hrn, hrt, opSizeOf_sfBit]

theorem decodeClass_encLiteral (o : WbOverlap) (sf : OpSize) (simm19 : BitVec 19) (rt : RegIdx) :
    decodeClass o (encLiteral sf simm19 rt) = .ok (.ldrLit sf simm19 rt) := by
  obtain ⟨h31, hsf, hclass, hfixed, hsimm, hrt⟩ := encLiteral_fields sf simm19 rt
  rw [decodeClass_of_loadStore hclass, decodeLoadStore_of_literal h31 hfixed, hsf, hsimm, hrt, opSizeOf_sfBit]

/-- The offset's top bit is the lowest of the class bits (30_encoding.md R91). -/
theorem branchClass_of_topBit : ∀ b : BitVec 1, 0b101#3 ++ b = 0b1010#4 ∨ 0b101#3 ++ b = 0b1011#4 := by decide

theorem decodeClass_encBranch (o : WbOverlap) (simm26 : BitVec 26) :
    decodeClass o (encBranch simm26) = .ok (.b simm26) := by
  obtain ⟨hsub, hclass, hsimm⟩ := encBranch_fields simm26
  rw [decodeClass_of_branch (hclass ▸ branchClass_of_topBit _), decodeBranch_of_b hsub, hsimm]

theorem decodeClass_encBranchReg (o : WbOverlap) (rn : RegIdx) : decodeClass o (encBranchReg rn) = .ok (.br rn) := by
  obtain ⟨hsub, hclass, hfixed, hrn, hlow⟩ := encBranchReg_fields rn
  rw [decodeClass_of_branch (.inr hclass), decodeBranch_of_br hsub hfixed hlow, hrn]

theorem decodeClass_encBranchCond (o : WbOverlap) (simm19 : BitVec 19) (cond : Cond) :
    decodeClass o (encBranchCond simm19 cond) = .ok (.bCond simm19 cond) := by
  obtain ⟨hsub, hclass, h24, hsimm, h4, hcond⟩ := encBranchCond_fields simm19 cond
  have hc : condOf (field (encBranchCond simm19 cond) 0 4) = some cond := by rw [hcond, condOf_condBits]
  rw [decodeClass_of_branch (.inl hclass), decodeBranch_of_bCond hsub h24 h4 hc, hsimm]

/-! ## Every instruction's word -/

/-- The decision tree reads every well-formed instruction but the sentinel back from its word. -/
theorem decodeClass_encode (cfg : Config) {o : WbOverlap} {i : Instr} (hi : i ≠ .halt) (hwf : i.wellFormed o = true) :
    decodeClass o (encode cfg i) = .ok i := by
  cases i with
  | addImm | addsImm | subImm | subsImm => exact decodeClass_encArithImm o _ _ _ _ _ _
  | movn | movz | movk => exact decodeClass_encMoveWide o (by decide) hwf _ _
  | addReg | addsReg | subReg | subsReg => exact decodeClass_encArithReg o _ _ hwf _ _
  | andReg | bicReg | orrReg | ornReg | eorReg | eonReg | andsReg | bicsReg =>
    exact decodeClass_encLogical o _ _ _ _ hwf _ _
  | madd | msub => exact decodeClass_encMultiply o _ _ _ _ _ _
  | ldrUnsigned | strUnsigned => exact decodeClass_encUnsigned o _ _ _ _ _
  | ldrPre | strPre => exact decodeClass_encIndexed_pre _ _ _ hwf
  | ldrPost | strPost => exact decodeClass_encIndexed_post _ _ _ hwf
  | ldrReg | strReg => exact decodeClass_encRegOffset o _ _ _ _ _
  | ldrLit => exact decodeClass_encLiteral o _ _ _
  | b => exact decodeClass_encBranch o _
  | br => exact decodeClass_encBranchReg o _
  | bCond => exact decodeClass_encBranchCond o _ _
  | halt => exact absurd rfl hi

theorem realizable_iff (cfg : Config) (i : Instr) :
    i.realizable cfg = true ↔ i.wellFormed cfg.wbOverlap = true ∧ (i = .halt ∨ encode cfg i ≠ cfg.haltWord) := by
  simp [Instr.realizable]

/-- Settles O18: the halt word is read first, and every other realizable word is a format's. -/
theorem decodeOfEncode : Obligations.DecodeOfEncode := by
  intro cfg i hreal
  obtain ⟨hwf, hword⟩ := (realizable_iff cfg i).1 hreal
  by_cases hi : i = .halt
  · subst hi
    exact decode_haltWord cfg
  · rw [decode_of_ne cfg (hword.resolve_left hi)]
    exact decodeClass_encode cfg hi hwf

end Sys2Proof
end

section
/-!
PROOFS. 30_encoding.md R103: encoding what the decoder reads. Each group of the decision tree gives an
instruction whose word is the decoded one and whose field constraints hold.
-/

namespace Sys2Proof

/-! ## Values that are left over -/

theorem eq_one_of_ne_zero : ∀ {b : BitVec 1}, b ≠ 0 → b = 1 := by decide

theorem eq_zero_of_ne_one : ∀ {b : BitVec 1}, b ≠ 1 → b = 0 := by decide

theorem eq_three_of_ne : ∀ {opc : BitVec 2}, opc ≠ 0b00 → opc ≠ 0b01 → opc ≠ 0b10 → opc = 0b11 := by decide

/-! ## The groups -/

variable {cfg : Config} {o : WbOverlap} {w : Word} {i : Instr}

theorem encode_decodeArithImm (hclass : field w 25 4 = 0b1000 ∨ field w 25 4 = 0b1001)
    (hopi : field w 23 3 = 0b010) :
    encode cfg (decodeArithImm w) = w ∧ (decodeArithImm w).wellFormed o = true := by
  have hw := encArithImm_of_fields hclass hopi
  simp only [decodeArithImm]
  split_ifs with h0 h1 h2
  · rw [h0] at hw
    exact ⟨hw, rfl⟩
  · rw [h1] at hw
    exact ⟨hw, rfl⟩
  · rw [h2] at hw
    exact ⟨hw, rfl⟩
  · rw [eq_three_of_ne h0 h1 h2] at hw
    exact ⟨hw, rfl⟩

theorem encode_of_decodeMoveWide (hclass : field w 25 4 = 0b1000 ∨ field w 25 4 = 0b1001)
    (hopi : field w 23 3 = 0b101) (h : decodeMoveWide w = .ok i) :
    encode cfg i = w ∧ i.wellFormed o = true := by
  have hw := encMoveWide_of_fields hclass hopi
  simp only [decodeMoveWide] at h
  split_ifs at h with h1 hposition h0 h2 <;> cases h
  all_goals have hvalid := (hwValid_field_iff w).2 hposition
  · rw [h0] at hw
    exact ⟨hw, hvalid⟩
  · rw [h2] at hw
    exact ⟨hw, hvalid⟩
  · rw [eq_three_of_ne h0 h1 h2] at hw
    exact ⟨hw, hvalid⟩

theorem encode_of_decodeArithReg (hclass : field w 25 4 = 0b0101 ∨ field w 25 4 = 0b1101)
    (h28 : field w 28 1 = 0) (h24 : field w 24 1 = 1) (h21 : field w 21 1 = 0) (h : decodeArithReg w = .ok i) :
    encode cfg i = w ∧ i.wellFormed o = true := by
  have hw := encArithReg_of_fields hclass h28 h24 h21
  simp only [decodeArithReg] at h
  split_ifs at h with hror hamount h0 h1 h2 <;> cases h
  all_goals have hvalid := (arithShiftValid_field_iff w).2 ⟨hror, hamount⟩
  · rw [h0] at hw
    exact ⟨hw, hvalid⟩
  · rw [h1] at hw
    exact ⟨hw, hvalid⟩
  · rw [h2] at hw
    exact ⟨hw, hvalid⟩
  · rw [eq_three_of_ne h0 h1 h2] at hw
    exact ⟨hw, hvalid⟩

theorem encode_of_decodeLogical (hclass : field w 25 4 = 0b0101 ∨ field w 25 4 = 0b1101)
    (h28 : field w 28 1 = 0) (h24 : field w 24 1 = 0) (h : decodeLogical w = .ok i) :
    encode cfg i = w ∧ i.wellFormed o = true := by
  have hw := encLogical_of_fields hclass h28 h24
  simp only [decodeLogical] at h
  split_ifs at h with hamount hn h0 h1 h2 h0 h1 h2 <;> cases h
  all_goals have hvalid := (shiftAmountValid_field_iff w).2 hamount
  · rw [hn, h0] at hw
    exact ⟨hw, hvalid⟩
  · rw [hn, h1] at hw
    exact ⟨hw, hvalid⟩
  · rw [hn, h2] at hw
    exact ⟨hw, hvalid⟩
  · rw [hn, eq_three_of_ne h0 h1 h2] at hw
    exact ⟨hw, hvalid⟩
  · rw [eq_one_of_ne_zero hn, h0] at hw
    exact ⟨hw, hvalid⟩
  · rw [eq_one_of_ne_zero hn, h1] at hw
    exact ⟨hw, hvalid⟩
  · rw [eq_one_of_ne_zero hn, h2] at hw
    exact ⟨hw, hvalid⟩
  · rw [eq_one_of_ne_zero hn, eq_three_of_ne h0 h1 h2] at hw
    exact ⟨hw, hvalid⟩

theorem encode_decodeMultiply (hclass : field w 25 4 = 0b0101 ∨ field w 25 4 = 0b1101) (h28 : field w 28 1 = 1)
    (hopr : field w 21 4 = 0b1000) (hopc : field w 29 2 = 0b00) :
    encode cfg (decodeMultiply w) = w ∧ (decodeMultiply w).wellFormed o = true := by
  have hw := encMultiply_of_fields hclass h28 hopr hopc
  simp only [decodeMultiply]
  split_ifs with hx
  · rw [hx] at hw
    exact ⟨hw, rfl⟩
  · rw [eq_one_of_ne_zero hx] at hw
    exact ⟨hw, rfl⟩

theorem encode_of_decodeLoadStore (h : decodeLoadStore o w = .ok i) :
    encode cfg i = w ∧ i.wellFormed o = true := by
  simp only [decodeLoadStore] at h
  split_ifs at h with h31 hlit hfixed h24 hl h21 hsub hl hpre hover hl hpost hover hl <;> cases h
  · exact ⟨encLiteral_of_fields h31 hlit, rfl⟩
  all_goals
    have hone := eq_one_of_ne_zero h31
    obtain ⟨hfix, h23⟩ : field w 25 5 = 0b11100 ∧ field w 23 1 = 0 := by simpa using hfixed
  · have hw := encUnsigned_of_fields hone hfix h23 h24
    rw [hl] at hw
    exact ⟨hw, rfl⟩
  · have hw := encUnsigned_of_fields hone hfix h23 h24
    rw [eq_zero_of_ne_one hl] at hw
    exact ⟨hw, rfl⟩
  all_goals have hb24 := eq_zero_of_ne_one h24
  · have hw := encRegOffset_of_fields hone hfix h23 hb24 h21 hsub
    rw [hl] at hw
    exact ⟨hw, rfl⟩
  · have hw := encRegOffset_of_fields hone hfix h23 hb24 h21 hsub
    rw [eq_zero_of_ne_one hl] at hw
    exact ⟨hw, rfl⟩
  all_goals
    have hw := encIndexed_of_fields hone hfix h23 hb24 (eq_zero_of_ne_one h21)
    have hvalid := (writebackValid_iff _ _ _).2 (Bool.eq_false_iff.2 hover)
  · rw [hpre, hl] at hw
    exact ⟨hw, hvalid⟩
  · rw [hpre, eq_zero_of_ne_one hl] at hw
    exact ⟨hw, hvalid⟩
  · rw [hpost, hl] at hw
    exact ⟨hw, hvalid⟩
  · rw [hpost, eq_zero_of_ne_one hl] at hw
    exact ⟨hw, hvalid⟩

theorem encode_of_decodeBranch (hclass : field w 25 4 = 0b1010 ∨ field w 25 4 = 0b1011)
    (h : decodeBranch w = .ok i) : encode cfg i = w ∧ i.wellFormed o = true := by
  simp only [decodeBranch] at h
  split_ifs at h with hb hbr hfixed hcond hfixed
  · cases h
    exact ⟨encBranch_of_fields hclass hb, rfl⟩
  · cases h
    exact ⟨encBranchReg_of_fields hfixed.1 hfixed.2, rfl⟩
  · cases hc : condOf (field w 0 4) with
    | none => simp [hc] at h
    | some c =>
      obtain rfl : .bCond (field w 5 19) c = i := by simpa [hc] using h
      exact ⟨encBranchCond_of_fields hc hclass hcond hfixed.1 hfixed.2, rfl⟩

/-! ## The decision tree -/

theorem encode_of_decodeDpi (hclass : field w 25 4 = 0b1000 ∨ field w 25 4 = 0b1001) (h : decodeDpi w = .ok i) :
    encode cfg i = w ∧ i.wellFormed o = true := by
  simp only [decodeDpi] at h
  split_ifs at h with harith hwide
  · cases h
    exact encode_decodeArithImm hclass harith
  · exact encode_of_decodeMoveWide hclass hwide h

theorem encode_of_decodeDpr (hclass : field w 25 4 = 0b0101 ∨ field w 25 4 = 0b1101) (h : decodeDpr w = .ok i) :
    encode cfg i = w ∧ i.wellFormed o = true := by
  simp only [decodeDpr] at h
  split_ifs at h with harith hlogical hmul
  · obtain ⟨h24, h21⟩ := (opr_arith_iff w).1 harith.2
    exact encode_of_decodeArithReg hclass harith.1 h24 h21 h
  · exact encode_of_decodeLogical hclass hlogical.1 ((opr_logical_iff w).1 hlogical.2) h
  · obtain ⟨h28, hopr, hopc⟩ := hmul
    cases h
    exact encode_decodeMultiply hclass h28 hopr hopc

/-- What the decision tree reads is well formed, and the word is its word (30_encoding.md R103). -/
theorem encode_of_decodeClass (h : decodeClass o w = .ok i) : encode cfg i = w ∧ i.wellFormed o = true := by
  simp only [decodeClass] at h
  split_ifs at h with hdpi hdpr hls hbranch
  · exact encode_of_decodeDpi hdpi h
  · exact encode_of_decodeDpr hdpr h
  · exact encode_of_decodeLoadStore h
  · exact encode_of_decodeBranch hbranch h

/-- Settles O19: the halt word is the sentinel's own, and every other word goes through the decision tree. -/
theorem encodeOfDecode : Obligations.EncodeOfDecode := by
  intro cfg w i h
  rw [realizable_iff]
  by_cases hw : w = cfg.haltWord
  · subst hw
    cases (decode_haltWord cfg).symm.trans h
    exact ⟨rfl, rfl, .inl rfl⟩
  · rw [decode_of_ne cfg hw] at h
    obtain ⟨henc, hwf⟩ := encode_of_decodeClass (cfg := cfg) h
    exact ⟨henc, hwf, .inr (henc.symm ▸ hw)⟩

end Sys2Proof
end

section
/-!
PROOFS. 30_encoding.md R105, R107: the opcode table against the decision tree.
-/

namespace Sys2Proof

open Sys2Proof.Laws

/-! ## Disjoint rows -/

/-- Settles O21: where two rows' masks overlap, their values differ, unless they are one row. -/
theorem opcodeRowsAreDisjoint : Obligations.OpcodeRowsAreDisjoint := by
  have hcommon : ∀ r ∈ opcodeTable, ∀ r' ∈ opcodeTable, r.value &&& r'.mask = r'.value &&& r.mask → r = r' := by
    decide
  intro w r r' hr hr' hw hw'
  refine hcommon r hr r' hr' ?_
  rw [← hw, ← hw', BitVec.and_assoc, BitVec.and_assoc, BitVec.and_comm r.mask]

/-! ## Constraints of rows, read from the word -/

variable {cfg : Config} {w : Word}

theorem holds_position_iff :
    RowConstraint.position.holds cfg w = true ↔ hwValid (opSizeOf (field w 31 1)) (field w 21 2) = true := by
  have hfields : ∀ (b : BitVec 1) (hw : BitVec 2),
      (decide (b = 1) || decide (hw.toNat < 2)) = true ↔ hwValid (opSizeOf b) hw = true := by decide
  exact hfields _ _

theorem holds_logicalShift_iff :
    RowConstraint.logicalShift.holds cfg w = true ↔
      shiftAmountValid (opSizeOf (field w 31 1)) (field w 10 6) = true := by
  have hfields : ∀ (b : BitVec 1) (imm6 : BitVec 6),
      (decide (b = 1) || decide (imm6.toNat < 32)) = true ↔ shiftAmountValid (opSizeOf b) imm6 = true := by decide
  exact hfields _ _

theorem holds_arithmeticShift_iff :
    RowConstraint.arithmeticShift.holds cfg w = true ↔
      arithShiftValid (opSizeOf (field w 31 1)) (shiftKindOf (field w 22 2)) (field w 10 6) = true := by
  rw [arithShiftValid_iff, shiftBits_shiftKindOf, ← holds_logicalShift_iff (cfg := cfg)]
  simp [RowConstraint.holds]

theorem holds_noOverlap_eq :
    RowConstraint.noOverlap.holds cfg w = writebackValid cfg.wbOverlap (field w 5 5) (field w 0 5) := rfl

/-! ## The row of an instruction accepts its word -/

theorem fixedBits (i : Instr) : FixedBits.Statement i := by
  cases i with
  | addImm => apply FixedBits.addImm
  | addsImm => apply FixedBits.addsImm
  | subImm => apply FixedBits.subImm
  | subsImm => apply FixedBits.subsImm
  | movn => apply FixedBits.movn
  | movz => apply FixedBits.movz
  | movk => apply FixedBits.movk
  | addReg => apply FixedBits.addReg
  | addsReg => apply FixedBits.addsReg
  | subReg => apply FixedBits.subReg
  | subsReg => apply FixedBits.subsReg
  | andReg => apply FixedBits.andReg
  | bicReg => apply FixedBits.bicReg
  | orrReg => apply FixedBits.orrReg
  | ornReg => apply FixedBits.ornReg
  | eorReg => apply FixedBits.eorReg
  | eonReg => apply FixedBits.eonReg
  | andsReg => apply FixedBits.andsReg
  | bicsReg => apply FixedBits.bicsReg
  | madd => apply FixedBits.madd
  | msub => apply FixedBits.msub
  | ldrUnsigned => apply FixedBits.ldrUnsigned
  | strUnsigned => apply FixedBits.strUnsigned
  | ldrPre => apply FixedBits.ldrPre
  | strPre => apply FixedBits.strPre
  | ldrPost => apply FixedBits.ldrPost
  | strPost => apply FixedBits.strPost
  | ldrReg => apply FixedBits.ldrReg
  | strReg => apply FixedBits.strReg
  | ldrLit => apply FixedBits.ldrLit
  | b => apply FixedBits.b
  | br => apply FixedBits.br
  | bCond => apply FixedBits.bCond
  | halt => exact FixedBits.halt

theorem holds_encMoveWide (opc : BitVec 2) {sf : OpSize} {hw : BitVec 2} (hvalid : hwValid sf hw = true)
    (imm16 : BitVec 16) (rd : RegIdx) :
    RowConstraint.position.holds cfg (encMoveWide opc sf hw imm16 rd) = true := by
  obtain ⟨hsf, -, -, -, -, hhw, -⟩ := encMoveWide_fields opc sf hw imm16 rd
  rwa [holds_position_iff, hsf, hhw, opSizeOf_sfBit]

theorem holds_encArithReg (opc : BitVec 2) {sf : OpSize} {shift : ShiftKind} (rm : RegIdx) {imm6 : BitVec 6}
    (hvalid : arithShiftValid sf shift imm6 = true) (rn rd : RegIdx) :
    RowConstraint.arithmeticShift.holds cfg (encArithReg opc sf shift rm imm6 rn rd) = true := by
  obtain ⟨hsf, -, -, -, -, hshift, -, -, himm, -⟩ := encArithReg_fields opc sf shift rm imm6 rn rd
  rwa [holds_arithmeticShift_iff, hsf, hshift, himm, opSizeOf_sfBit, shiftKindOf_shiftBits]

theorem holds_encLogical (opc : BitVec 2) (n : BitVec 1) {sf : OpSize} (shift : ShiftKind) (rm : RegIdx)
    {imm6 : BitVec 6} (hvalid : shiftAmountValid sf imm6 = true) (rn rd : RegIdx) :
    RowConstraint.logicalShift.holds cfg (encLogical opc n sf shift rm imm6 rn rd) = true := by
  obtain ⟨hsf, -, -, -, -, -, -, -, -, himm, -⟩ := encLogical_fields opc n sf shift rm imm6 rn rd
  rwa [holds_logicalShift_iff, hsf, himm, opSizeOf_sfBit]

theorem holds_encIndexed (l : BitVec 1) (mode : BitVec 2) (sf : OpSize) (simm9 : BitVec 9) {rn rt : RegIdx}
    (hvalid : writebackValid cfg.wbOverlap rn rt = true) :
    RowConstraint.noOverlap.holds cfg (encIndexed l mode sf simm9 rn rt) = true := by
  obtain ⟨-, -, -, -, -, -, -, -, -, -, hrn, hrt⟩ := encIndexed_fields l mode sf simm9 rn rt
  rwa [holds_noOverlap_eq, hrn, hrt]

theorem holds_encBranchCond (simm19 : BitVec 19) (cond : Cond) :
    RowConstraint.knownCondition.holds cfg (encBranchCond simm19 cond) = true := by
  obtain ⟨-, -, -, -, -, hcond⟩ := encBranchCond_fields simm19 cond
  simp [RowConstraint.holds, hcond]

theorem rowConstraint_holds_encode {i : Instr} {row : OpcodeRow} (hrow : rowOf i = some row)
    (hwf : i.wellFormed cfg.wbOverlap = true) : row.constraint.holds cfg (encode cfg i) = true := by
  cases i with
  | movn | movz | movk =>
    cases hrow
    exact holds_encMoveWide _ hwf _ _
  | addReg | addsReg | subReg | subsReg =>
    cases hrow
    exact holds_encArithReg _ _ hwf _ _
  | andReg | bicReg | orrReg | ornReg | eorReg | eonReg | andsReg | bicsReg =>
    cases hrow
    exact holds_encLogical _ _ _ _ hwf _ _
  | ldrPre | strPre | ldrPost | strPost =>
    cases hrow
    exact holds_encIndexed _ _ _ _ hwf
  | bCond =>
    cases hrow
    exact holds_encBranchCond _ _
  | halt => cases hrow
  | _ =>
    cases hrow
    rfl

/-- Every well-formed instruction but the sentinel is accepted by the row of its mnemonic (30_encoding.md R107). -/
theorem exists_row_accepts_encode {i : Instr} (hi : i ≠ .halt) (hwf : i.wellFormed cfg.wbOverlap = true)
    (hne : encode cfg i ≠ cfg.haltWord) :
    ∃ row ∈ opcodeTable, row.accepts cfg (encode cfg i) = true ∧ row.mnemonic = i.mnemonic := by
  obtain ⟨row, hrow, hfixed⟩ := (fixedBits i cfg).resolve_left hi
  refine ⟨row, List.mem_of_find?_eq_some hrow, ?_, by simpa using List.find?_some hrow⟩
  simp [OpcodeRow.accepts, hne, hfixed, rowConstraint_holds_encode hrow hwf]

/-! ## A row's word is read by the decision tree -/

/-- A field under the mask has the row's value. -/
theorem field_of_masked {mask v : Word} (h : w &&& mask = v) {lo len : Nat} {c : BitVec len}
    (hv : field v lo len = c) (hmask : field mask lo len = BitVec.allOnes len) : field w lo len = c := by
  rw [← hv, ← h, field, field, BitVec.extractLsb'_and, ← field, ← field, hmask, BitVec.and_allOnes]

/-- The formats of the data-processing-immediate rows: mask, constraint, and what the decision tree tests. -/
abbrev DpiRow (row : OpcodeRow) : Prop :=
  (row.mask = 0x7F800000 ∧ row.constraint = .unconstrained ∧
    field row.value 25 4 = 0b1000 ∧ field row.value 23 3 = 0b010) ∨
  (row.mask = 0x7F800000 ∧ row.constraint = .position ∧
    field row.value 25 4 = 0b1001 ∧ field row.value 23 3 = 0b101 ∧ field row.value 29 2 ∈ [0b00, 0b10, 0b11])

/-- The formats of the data-processing-register rows. -/
abbrev DprRow (row : OpcodeRow) : Prop :=
  (row.mask = 0x7F200000 ∧ row.constraint = .arithmeticShift ∧ field row.value 25 4 = 0b0101 ∧
    field row.value 28 1 = 0 ∧ field row.value 24 1 = 1 ∧ field row.value 21 1 = 0) ∨
  (row.mask = 0x7F200000 ∧ row.constraint = .logicalShift ∧ field row.value 25 4 = 0b0101 ∧
    field row.value 28 1 = 0 ∧ field row.value 24 1 = 0) ∨
  (row.mask = 0x7FE08000 ∧ row.constraint = .unconstrained ∧ field row.value 25 4 = 0b1101 ∧
    field row.value 28 1 = 1 ∧ field row.value 21 4 = 0b1000 ∧ field row.value 29 2 = 0b00)

/-- The fixed bits that the single data transfers share. -/
abbrev TransferBits (v : Word) : Prop :=
  field v 25 4 = 0b1100 ∧ field v 31 1 = 1 ∧ field v 25 5 = 0b11100 ∧ field v 23 1 = 0

/-- The formats of the load and store rows. -/
abbrev LoadStoreRow (row : OpcodeRow) : Prop :=
  (row.mask = 0xBF000000 ∧ row.constraint = .unconstrained ∧ field row.value 25 4 = 0b1100 ∧
    field row.value 31 1 = 0 ∧ field row.value 24 6 = 0b011000) ∨
  (row.mask = 0xBFC00000 ∧ row.constraint = .unconstrained ∧ TransferBits row.value ∧ field row.value 24 1 = 1) ∨
  (row.mask = 0xBFE0FC00 ∧ row.constraint = .unconstrained ∧ TransferBits row.value ∧ field row.value 24 1 = 0 ∧
    field row.value 21 1 = 1 ∧ field row.value 10 6 = 0b011010) ∨
  (row.mask = 0xBFE00C00 ∧ row.constraint = .noOverlap ∧ TransferBits row.value ∧ field row.value 24 1 = 0 ∧
    field row.value 21 1 = 0 ∧ (field row.value 10 2 = 0b11 ∨ field row.value 10 2 = 0b01))

/-- The formats of the branch rows. Bit 25 of B is the top of its offset. -/
abbrev BranchRow (row : OpcodeRow) : Prop :=
  (row.mask = 0xFC000000 ∧ row.constraint = .unconstrained ∧ field row.value 26 3 = 0b101 ∧
    field row.value 29 3 = 0b000) ∨
  (row.mask = 0xFFFFFC1F ∧ row.constraint = .unconstrained ∧ field row.value 26 3 = 0b101 ∧
    field row.value 29 3 = 0b110 ∧ field row.value 10 22 = 0b1101011000011111000000 ∧
    field row.value 0 5 = 0b00000) ∨
  (row.mask = 0xFF000010 ∧ row.constraint = .knownCondition ∧ field row.value 26 3 = 0b101 ∧
    field row.value 29 3 = 0b010 ∧ field row.value 24 2 = 0b00 ∧ field row.value 4 1 = 0)

/-- The table's rows by class: 21 of data processing, 9 loads and stores, 3 branches. -/
theorem row_of_class :
    ∀ row ∈ opcodeTable, DpiRow row ∨ DprRow row ∨ LoadStoreRow row ∨ BranchRow row := by
  have hdata : ∀ row ∈ opcodeTable.take 21, DpiRow row ∨ DprRow row := by decide
  have hrest : ∀ row ∈ opcodeTable.drop 21, LoadStoreRow row ∨ BranchRow row := by decide
  intro row hrow
  rw [← List.take_append_drop 21 opcodeTable, List.mem_append] at hrow
  rw [← or_assoc]
  exact hrow.imp (hdata row) (hrest row)

variable {row : OpcodeRow}

theorem decodes_of_dpiRow {o : WbOverlap} (hrow : DpiRow row) (hw : w &&& row.mask = row.value)
    (hholds : row.constraint.holds cfg w = true) : ∃ i, decodeClass o w = .ok i := by
  obtain ⟨hmask, -, hclass, hopi⟩ | ⟨hmask, hc, hclass, hopi, hopc⟩ := hrow <;> rw [hmask] at hw
  · rw [decodeClass_of_dpi (.inl (field_of_masked hw hclass (by decide))),
      decodeDpi_of_arith (field_of_masked hw hopi (by decide))]
    exact ⟨_, rfl⟩
  · have hne : field w 29 2 ≠ 0b01 := by
      rw [field_of_masked hw rfl (by decide)]
      intro h
      rw [h] at hopc
      exact absurd hopc (by decide)
    rw [hc, holds_position_iff] at hholds
    rw [decodeClass_of_dpi (.inr (field_of_masked hw hclass (by decide))),
      decodeDpi_of_moveWide (field_of_masked hw hopi (by decide)), decodeMoveWide_of_valid hne hholds]
    exact ⟨_, rfl⟩

theorem decodes_of_dprRow {o : WbOverlap} (hrow : DprRow row) (hw : w &&& row.mask = row.value)
    (hholds : row.constraint.holds cfg w = true) : ∃ i, decodeClass o w = .ok i := by
  obtain ⟨hmask, hc, hclass, h28, h24, h21⟩ | ⟨hmask, hc, hclass, h28, h24⟩ | ⟨hmask, -, hclass, h28, hopr, hopc⟩ :=
    hrow <;> rw [hmask] at hw
  · rw [hc, holds_arithmeticShift_iff] at hholds
    rw [decodeClass_of_dpr (.inl (field_of_masked hw hclass (by decide))),
      decodeDpr_of_arith (field_of_masked hw h28 (by decide)) (field_of_masked hw h24 (by decide))
        (field_of_masked hw h21 (by decide)), decodeArithReg_of_valid hholds]
    exact ⟨_, rfl⟩
  · rw [hc, holds_logicalShift_iff] at hholds
    rw [decodeClass_of_dpr (.inl (field_of_masked hw hclass (by decide))),
      decodeDpr_of_logical (field_of_masked hw h28 (by decide)) (field_of_masked hw h24 (by decide)),
      decodeLogical_of_valid hholds]
    exact ⟨_, rfl⟩
  · rw [decodeClass_of_dpr (.inr (field_of_masked hw hclass (by decide))),
      decodeDpr_of_multiply (field_of_masked hw h28 (by decide)) (field_of_masked hw hopr (by decide))
        (field_of_masked hw hopc (by decide))]
    exact ⟨_, rfl⟩

theorem transferBits_of_masked {mask v : Word} (h : w &&& mask = v) (hv : TransferBits v)
    (hmask : field mask 25 4 = .allOnes 4 ∧ field mask 31 1 = .allOnes 1 ∧ field mask 25 5 = .allOnes 5 ∧
      field mask 23 1 = .allOnes 1) : TransferBits w := by
  obtain ⟨hclass, h31, hfixed, h23⟩ := hv
  obtain ⟨mclass, m31, mfixed, m23⟩ := hmask
  exact ⟨field_of_masked h hclass mclass, field_of_masked h h31 m31, field_of_masked h hfixed mfixed,
    field_of_masked h h23 m23⟩

theorem decodes_of_loadStoreRow (hrow : LoadStoreRow row) (hw : w &&& row.mask = row.value)
    (hholds : row.constraint.holds cfg w = true) : ∃ i, decodeClass cfg.wbOverlap w = .ok i := by
  obtain ⟨hmask, -, hclass, h31, hfixed⟩ | ⟨hmask, -, hbits, h24⟩ | ⟨hmask, -, hbits, h24, h21, hsub⟩ |
    ⟨hmask, hc, hbits, h24, h21, hmode⟩ := hrow <;> rw [hmask] at hw
  · rw [decodeClass_of_loadStore (field_of_masked hw hclass (by decide)),
      decodeLoadStore_of_literal (field_of_masked hw h31 (by decide)) (field_of_masked hw hfixed (by decide))]
    exact ⟨_, rfl⟩
  all_goals
    obtain ⟨hclass, h31, hfixed, h23⟩ := transferBits_of_masked hw hbits (by decide)
    have h24w := field_of_masked hw h24 (by decide)
    rw [decodeClass_of_loadStore hclass]
  · rw [decodeLoadStore_of_unsigned h31 hfixed h23 h24w]
    exact ⟨_, rfl⟩
  · rw [decodeLoadStore_of_regOffset h31 hfixed h23 h24w (field_of_masked hw h21 (by decide))
      (field_of_masked hw hsub (by decide))]
    exact ⟨_, rfl⟩
  · rw [hc, holds_noOverlap_eq, writebackValid_iff] at hholds
    have h21w := field_of_masked hw h21 (by decide)
    obtain hmode | hmode := hmode
    · rw [decodeLoadStore_of_preIndexed h31 hfixed h23 h24w h21w (field_of_masked hw hmode (by decide)) hholds]
      exact ⟨_, rfl⟩
    · rw [decodeLoadStore_of_postIndexed h31 hfixed h23 h24w h21w (field_of_masked hw hmode (by decide)) hholds]
      exact ⟨_, rfl⟩

theorem branchClass_of_field (h : field w 26 3 = 0b101) : field w 25 4 = 0b1010 ∨ field w 25 4 = 0b1011 := by
  have hclass : ∀ op0 : BitVec 4, op0.extractLsb' 1 3 = 0b101 → op0 = 0b1010 ∨ op0 = 0b1011 := by decide
  exact hclass _ ((extractLsb'_field w 25 4 1 3 (by decide)).trans h)

theorem decodes_of_branchRow {o : WbOverlap} (hrow : BranchRow row) (hw : w &&& row.mask = row.value)
    (hholds : row.constraint.holds cfg w = true) : ∃ i, decodeClass o w = .ok i := by
  obtain ⟨hmask, -, hclass, hsub⟩ | ⟨hmask, -, hclass, hsub, hfixed, hlow⟩ | ⟨hmask, hc, hclass, hsub, h24, h4⟩ :=
    hrow <;> rw [hmask] at hw <;>
    rw [decodeClass_of_branch (branchClass_of_field (field_of_masked hw hclass (by decide)))]
  · exact ⟨_, decodeBranch_of_b (field_of_masked hw hsub (by decide))⟩
  · exact ⟨_, decodeBranch_of_br (field_of_masked hw hsub (by decide)) (field_of_masked hw hfixed (by decide))
      (field_of_masked hw hlow (by decide))⟩
  · rw [hc] at hholds
    obtain ⟨c, hcond⟩ := Option.isSome_iff_exists.1 hholds
    exact ⟨_, decodeBranch_of_bCond (field_of_masked hw hsub (by decide)) (field_of_masked hw h24 (by decide))
      (field_of_masked hw h4 (by decide)) hcond⟩

theorem accepts_iff :
    row.accepts cfg w = true ↔ w ≠ cfg.haltWord ∧ w &&& row.mask = row.value ∧ row.constraint.holds cfg w = true := by
  simp [OpcodeRow.accepts, and_assoc]

theorem decodes_of_accepts (hrow : row ∈ opcodeTable) (h : row.accepts cfg w = true) : ∃ i, decode cfg w = .ok i := by
  obtain ⟨hne, hw, hholds⟩ := accepts_iff.1 h
  rw [decode_of_ne cfg hne]
  obtain hdpi | hdpr | hls | hbranch := row_of_class row hrow
  · exact decodes_of_dpiRow hdpi hw hholds
  · exact decodes_of_dprRow hdpr hw hholds
  · exact decodes_of_loadStoreRow hls hw hholds
  · exact decodes_of_branchRow hbranch hw hholds

/-! ## Table and tree -/

/-- A decoded word other than the halt word is accepted by its instruction's row. -/
theorem exists_row_of_decode {i : Instr} (hne : w ≠ cfg.haltWord) (h : decode cfg w = .ok i) :
    ∃ row ∈ opcodeTable, row.accepts cfg w = true ∧ row.mnemonic = i.mnemonic := by
  have hi : i ≠ .halt := fun e => hne ((Machine.decode_eq_halt_iff cfg w).1 (e ▸ h))
  obtain ⟨henc, hreal⟩ := encodeOfDecode cfg w i h
  obtain ⟨hwf, -⟩ := (realizable_iff cfg i).1 hreal
  rw [← henc] at hne ⊢
  exact exists_row_accepts_encode hi hwf hne

/-- Settles O20: the row that accepts a decoded word is unique. -/
theorem opcodeTableDecides : Obligations.OpcodeTableDecides := by
  refine fun cfg w => ⟨⟨?_, ?_⟩, fun i row h hrow hacc => ?_⟩
  · rintro ⟨i, h⟩
    by_cases hne : w = cfg.haltWord
    · exact .inl hne
    · obtain ⟨row, hrow, hacc, -⟩ := exists_row_of_decode hne h
      exact .inr ⟨row, hrow, hacc⟩
  · rintro (rfl | ⟨row, hrow, hacc⟩)
    · exact ⟨_, decode_haltWord cfg⟩
    · exact decodes_of_accepts hrow hacc
  · obtain ⟨hne, hw, -⟩ := accepts_iff.1 hacc
    obtain ⟨row', hrow', hacc', hmnemonic⟩ := exists_row_of_decode hne h
    obtain ⟨-, hw', -⟩ := accepts_iff.1 hacc'
    rw [opcodeRowsAreDisjoint w row row' hrow hrow' hw hw', hmnemonic]

/-- Settles O22, by running the decoder on each word. -/
theorem sampleWordsDecode : Obligations.SampleWordsDecode := by
  unfold Obligations.SampleWordsDecode
  decide

end Sys2Proof
end

section
/-!
SUPPORT. 30_encoding.md R111, R113, R115, R116: what the assembler's checks let through.
-/

namespace Sys2Proof.Machine

theorem except_bind_eq_ok {α β ε : Type} {x : Except ε α} {f : α → Except ε β} {b : β} :
    x >>= f = .ok b ↔ ∃ a, x = .ok a ∧ f a = .ok b := by
  cases x <;> simp [bind, Except.bind]

theorem except_map_eq_ok {α β ε : Type} {x : Except ε α} {f : α → β} {b : β} :
    x.map f = .ok b ↔ ∃ a, x = .ok a ∧ f a = b := by
  cases x <;> simp [Except.map]

/-- The field of an integer that is not negative. -/
theorem toNat_ofInt_of_range {k : Nat} {v : Int} (h0 : 0 ≤ v) (hk : v < 2 ^ k) :
    ((BitVec.ofInt k v).toNat : Int) = v := by
  rw [BitVec.toNat_ofInt]
  push_cast
  rw [Int.emod_eq_of_lt h0 hk, Int.toNat_of_nonneg h0]

/-- A register operand's shift amount is below the width. -/
theorem shiftAmountValid_of_regShift {size : OpSize} {shift : Option ShiftSuffix} {kind : ShiftKind}
    {imm6 : BitVec 6} (h : regShift size shift = .ok (kind, imm6)) : shiftAmountValid size imm6 = true := by
  cases shift with
  | none =>
    cases h
    cases size <;> rfl
  | some suffix =>
    simp only [regShift] at h
    split at h <;> cases h
    rename_i hfield
    obtain ⟨hlo, hhi, rfl⟩ := rangedField_eq_ok hfield
    cases size with
    | w64 => rfl
    | w32 =>
      have hamount : suffix.amount ≤ 31 := hhi
      have hnat := toNat_ofInt_of_range (k := 6) hlo (by omega)
      exact decide_eq_true (by omega)

theorem arithShiftValid_of_arithRegShift {size : OpSize} {shift : Option ShiftSuffix} {kind : ShiftKind}
    {imm6 : BitVec 6} (h : arithRegShift size shift = .ok (kind, imm6)) : arithShiftValid size kind imm6 = true := by
  unfold arithRegShift at h
  split at h
  · rename_i hshift
    split at h <;> cases h
    rename_i hror
    simp [arithShiftValid, hror, shiftAmountValid_of_regShift hshift]
  · cases h

/-- A move-wide position lies inside the width. -/
theorem hwValid_of_widePosition {size : OpSize} {shift : Option ShiftSuffix} {hw : BitVec 2}
    (h : widePosition size shift = .ok hw) : hwValid size hw = true := by
  cases shift with
  | none =>
    cases h
    cases size <;> rfl
  | some suffix =>
    simp only [widePosition] at h
    split_ifs at h with hkind hrange
    cases h
    obtain ⟨hlo, hhi, -⟩ := hrange
    cases size with
    | w64 => rfl
    | w32 =>
      have hamount : suffix.amount < 32 := hhi
      have hnat := toNat_ofInt_of_range (k := 2) (v := suffix.amount / 16) (by omega) (by omega)
      exact decide_eq_true (by omega)

/-- A PC-relative field holds the number of words from the instruction to its target (30_encoding.md R115). -/
theorem relativeField_eq_ok {labels : SymbolTable} {self k : Nat} {t : Target} {b : BitVec k}
    (h : relativeField labels self k t = .ok b) :
    ∃ a, targetAddress labels t = .ok a ∧ a = self + 4 * ((a - self) / 4) ∧ -(2 ^ (k - 1)) ≤ (a - self) / 4 ∧
      (a - self) / 4 < 2 ^ (k - 1) ∧ b = BitVec.ofInt k ((a - self) / 4) := by
  unfold relativeField at h
  split at h
  · cases h
  · rename_i a ha
    simp only at h
    split_ifs at h with halign
    obtain ⟨hlo, hhi, hb⟩ := rangedField_eq_ok h
    exact ⟨a, ha, by omega, hlo, by omega, hb⟩

end Sys2Proof.Machine
end

section
/-!
PROOFS. 30_encoding.md R116, R118: the instructions that the assembler writes.
-/

namespace Sys2Proof.Machine

/-- A word may stand for the instruction under `WB_OVERLAP = ordered`, and it is not the sentinel's
(30_encoding.md R118). -/
def Writable (i : Instr) : Prop := i ≠ .halt ∧ i.wellFormed .ordered = true

/-! ## The instruction of an operation -/

theorem writable_arithImmInstr (negate setFlags : Bool) (sf : OpSize) (sh : Bool) (imm12 : BitVec 12) (rn rd : RegIdx) :
    Writable (arithImmInstr negate setFlags sf sh imm12 rn rd) := by
  cases negate <;> cases setFlags <;> exact ⟨by simp [arithImmInstr], rfl⟩

theorem writable_arithRegInstr (negate setFlags : Bool) {sf : OpSize} {shift : ShiftKind} (rm : RegIdx)
    {imm6 : BitVec 6} (h : arithShiftValid sf shift imm6 = true) (rn rd : RegIdx) :
    Writable (arithRegInstr negate setFlags sf shift rm imm6 rn rd) := by
  cases negate <;> cases setFlags <;> exact ⟨by simp [arithRegInstr], h⟩

theorem writable_logicalInstr (op : LogicOp) (complement : Bool) {sf : OpSize} (shift : ShiftKind) (rm : RegIdx)
    {imm6 : BitVec 6} (h : shiftAmountValid sf imm6 = true) (rn rd : RegIdx) :
    Writable (logicalInstr op complement sf shift rm imm6 rn rd) := by
  cases op <;> cases complement <;> exact ⟨by simp [logicalInstr], h⟩

theorem writable_moveWideInstr (op : WideOp) {sf : OpSize} {hw : BitVec 2} (h : hwValid sf hw = true)
    (imm16 : BitVec 16) (rd : RegIdx) : Writable (moveWideInstr op sf hw imm16 rd) := by
  cases op <;> exact ⟨by simp [moveWideInstr], h⟩

/-! ## The encoders of the forms -/

variable {i : Instr}

theorem writable_of_encodeArithmetic {negate setFlags : Bool} {rd rn : RegToken} {op : FlexOperand}
    (h : encodeArithmetic negate setFlags rd rn op = .ok i) : Writable i := by
  obtain ⟨n, -, h⟩ := except_bind_eq_ok.1 h
  cases op with
  | imm v shift =>
    obtain ⟨sh, -, h⟩ := except_bind_eq_ok.1 h
    obtain ⟨imm12, -, h⟩ := except_bind_eq_ok.1 h
    cases h
    exact writable_arithImmInstr ..
  | reg rm shift =>
    obtain ⟨m, -, h⟩ := except_bind_eq_ok.1 h
    obtain ⟨⟨kind, imm6⟩, hshift, h⟩ := except_bind_eq_ok.1 h
    cases h
    exact writable_arithRegInstr _ _ _ (arithShiftValid_of_arithRegShift hshift) _ _

theorem writable_of_encodeLogical {op : LogicOp} {complement : Bool} {rd rn : RegToken} {operand : FlexOperand}
    (h : encodeLogical op complement rd rn operand = .ok i) : Writable i := by
  obtain ⟨n, -, h⟩ := except_bind_eq_ok.1 h
  cases operand with
  | imm v shift => cases h
  | reg rm shift =>
    obtain ⟨m, -, h⟩ := except_bind_eq_ok.1 h
    obtain ⟨⟨kind, imm6⟩, hshift, h⟩ := except_bind_eq_ok.1 h
    cases h
    exact writable_logicalInstr _ _ _ _ (shiftAmountValid_of_regShift hshift) _ _

theorem writable_of_encodeMoveWide {op : WideOp} {rd : RegToken} {operand : FlexOperand}
    (h : encodeMoveWide op rd operand = .ok i) : Writable i := by
  cases operand with
  | imm v shift =>
    obtain ⟨hw, hposition, h⟩ := except_bind_eq_ok.1 h
    obtain ⟨imm16, -, h⟩ := except_bind_eq_ok.1 h
    cases h
    exact writable_moveWideInstr _ (hwValid_of_widePosition hposition) _ _
  | reg r shift => cases h

theorem writable_of_encodeMultiplyIr {negate : Bool} {rd rn rm ra : RegToken}
    (h : encodeMultiplyIr negate rd rn rm ra = .ok i) : Writable i := by
  obtain ⟨n, -, h⟩ := except_bind_eq_ok.1 h
  obtain ⟨m, -, h⟩ := except_bind_eq_ok.1 h
  obtain ⟨a, -, h⟩ := except_bind_eq_ok.1 h
  cases h
  cases negate <;> exact ⟨by simp, rfl⟩

theorem writable_of_encodeTransfer {labels : SymbolTable} {self : Nat} {load : Bool} {rt : RegToken}
    {mode : AddressMode} (h : encodeTransfer labels self load rt mode = .ok i) : Writable i := by
  cases mode with
  | unsignedOffset base offset =>
    obtain ⟨rn, -, h⟩ := except_bind_eq_ok.1 h
    simp only at h
    split_ifs at h
    · cases h
    · cases h
    all_goals
      obtain ⟨imm12, -, h⟩ := except_bind_eq_ok.1 h
      cases h
      exact ⟨by simp, rfl⟩
  | preIndexed base offset | postIndexed base offset =>
    obtain ⟨rn, -, h⟩ := except_bind_eq_ok.1 h
    obtain ⟨simm9, -, h⟩ := except_bind_eq_ok.1 h
    cases h
    cases load <;> exact ⟨by simp, rfl⟩
  | registerOffset base index =>
    obtain ⟨rn, -, h⟩ := except_bind_eq_ok.1 h
    obtain ⟨rm, -, h⟩ := except_bind_eq_ok.1 h
    cases h
    cases load <;> exact ⟨by simp, rfl⟩
  | literal t =>
    cases load with
    | false => cases h
    | true =>
      obtain ⟨simm19, -, h⟩ := except_bind_eq_ok.1 h
      cases h
      exact ⟨by simp, rfl⟩

/-- An instruction slot of the image comes from the encoder of its form, and is writable. -/
theorem writable_of_assembleIr {labels : SymbolTable} {self : Nat} {ir : AsmIr}
    (h : assembleIr labels self ir = .ok (.instr i)) : Writable i := by
  cases ir <;> obtain ⟨a, ha, hi⟩ := except_map_eq_ok.1 h <;> cases hi
  case arithmetic => exact writable_of_encodeArithmetic ha
  case logical => exact writable_of_encodeLogical ha
  case moveWide => exact writable_of_encodeMoveWide ha
  case multiply => exact writable_of_encodeMultiplyIr ha
  case transfer => exact writable_of_encodeTransfer ha
  case branch | branchRegister | branchCond => exact ⟨by simp, rfl⟩

/-- The assembler's word of an instruction is read back, unless the halt check takes it (30_encoding.md R95). -/
theorem decode_itemWord {cfg : Config} (hi : i ≠ .halt) (hwf : i.wellFormed cfg.wbOverlap = true)
    (hne : itemWord (.instr i) ≠ cfg.haltWord) : decode cfg (itemWord (.instr i)) = .ok i := by
  rw [decode_of_ne cfg hne]
  exact decodeClass_encode Config.standard hi hwf

/-- Settles O56: the assembler's checks are the decoder's constraints, but for the writeback overlap. -/
theorem assembledInstructionsDecodeBack : Obligations.AssembledInstructionsDecodeBack := by
  intro labels self ir i cfg h hordered
  obtain ⟨hi, hwf⟩ := writable_of_assembleIr h
  refine ⟨hwf, or_iff_not_imp_left.2 fun hne => decode_itemWord hi ?_ hne⟩
  rwa [hordered]

/-- Settles O57: the field holds the distance in words, and the branch adds it to `pc`. -/
theorem assembledBranchReachesItsLabel : Obligations.AssembledBranchReachesItsLabel := by
  intro labels name self target simm26 s hresolve hasm htarget hpc hfetch hne
  obtain ⟨simm, hfield, hsimm⟩ := except_map_eq_ok.1 hasm
  cases hsimm
  obtain ⟨a, ha, hreach, hlo, hhi, rfl⟩ := relativeField_eq_ok hfield
  obtain rfl : (target : Int) = a := by simpa [targetAddress, hresolve, Except.map] using ha
  have hexec : Executes s (.b _) := ⟨_, hfetch, decode_itemWord (by simp) rfl hne⟩
  refine ⟨_, step_of_executes hexec, ?_, fun _ => rfl, ⟨rfl, rfl, rfl⟩, fun _ => rfl⟩
  have hnext := toNat_pcRelative (BitVec.ofInt 26 (((target : Int) - self) / 4)) s
  rw [BitVec.toInt_ofInt_eq_self (by decide) (by simpa using hlo) (by simpa using hhi)] at hnext
  rw [setPc_pc]
  omega

end Sys2Proof.Machine
end

section
/-!
PROOFS. 30_encoding.md R109: the two passes and the symbol table.
-/

namespace Sys2Proof.Machine

/-- The number of words a source stands for: one for each instruction or directive line. -/
def slotCount : List SourceLine → Nat
  | [] => 0
  | .blank :: rest => slotCount rest
  | .label _ :: rest => slotCount rest
  | .slot _ :: rest => slotCount rest + 1

theorem passOne_counter {counter final : Nat} {labels labels' : SymbolTable} {lines : List SourceLine}
    (h : passOne counter labels lines = .ok (labels', final)) : final = counter + 4 * slotCount lines := by
  induction lines generalizing counter labels with
  | nil =>
    cases h
    rfl
  | cons line rest ih =>
    cases line with
    | blank => exact ih h
    | label name =>
      simp only [passOne] at h
      split at h
      · exact ih h
      · cases h
    | slot text =>
      rw [ih h, slotCount]
      omega

theorem passTwo_length {labels : SymbolTable} {counter : Nat} {lines : List SourceLine} {words : List Word}
    (h : passTwo labels counter lines = .ok words) : words.length = slotCount lines := by
  induction lines generalizing counter words with
  | nil =>
    cases h
    rfl
  | cons line rest ih =>
    cases line with
    | blank | label => exact ih h
    | slot text =>
      simp only [passTwo] at h
      split at h
      · cases h
      · obtain ⟨tail, htail, rfl⟩ := except_map_eq_ok.1 h
        rw [List.length_cons, ih htail, slotCount]

theorem define_eq_ok {labels labels' : SymbolTable} {name : List Char} {a : Nat}
    (h : define labels name a = .ok labels') : labels' = (name, a) :: labels := by
  unfold define at h
  split at h <;> cases h
  rfl

theorem resolve_cons_self (labels : SymbolTable) (name : List Char) (a : Nat) :
    resolve ((name, a) :: labels) name = .ok a := by
  simp [resolve]

theorem resolve_cons_of_ne (labels : SymbolTable) {name other : List Char} (h : other ≠ name) (a : Nat) :
    resolve ((name, a) :: labels) other = resolve labels other := by
  simp [resolve, List.lookup_cons, beq_false_of_ne h]

theorem define_cons_self (labels : SymbolTable) (name : List Char) (a b : Nat) :
    define ((name, a) :: labels) name b = .error .duplicateLabel := by
  simp [define]

/-- Settles O58: both passes count the slots, and `define` puts the label in front of the table. -/
theorem assemblerPassesAgree : Obligations.AssemblerPassesAgree := by
  refine ⟨fun lines labels final words hone htwo => ?_, fun labels labels' name other a h => ?_⟩
  · have hfinal : final = 4 * words.length := by
      rw [passOne_counter hone, passTwo_length htwo]
      omega
    have hcount : words.length = final / 4 := by omega
    exact ⟨hfinal, by simp [assembleLines, hone, htwo, ← hcount]⟩
  · obtain rfl := define_eq_ok h
    exact ⟨resolve_cons_self labels name a, define_cons_self labels name a, fun hne => resolve_cons_of_ne labels hne a⟩

end Sys2Proof.Machine
end

section
/-!
PROOFS. 30_encoding.md R110, R114: mnemonics and pseudo-instructions.
-/

namespace Sys2Proof.Machine

/-! ## Only mnemonic dispatch lists a token -/

/-- The result is not the refusal that lists an offending token (90_conflicts.md C11). -/
def ListsNoToken {α : Type} (r : Except ToolError α) : Prop := ∀ m, r ≠ .error (.syntaxError (some m))

theorem ListsNoToken.ok {α : Type} (a : α) : ListsNoToken (.ok a : Except ToolError α) := fun _ => by simp

theorem ListsNoToken.syntaxError {α : Type} : ListsNoToken (.error (.syntaxError none) : Except ToolError α) :=
  fun _ => by simp

theorem ListsNoToken.map {α β : Type} {r : Except ToolError α} (h : ListsNoToken r) (f : α → β) :
    ListsNoToken (r.map f) := by
  cases r with
  | ok a => exact .ok _
  | error e => exact fun m hm => h m (by simpa [Except.map] using hm)

theorem listsNoToken_parseRegister {size : OpSize} {rest : List Char} {r : Except ToolError RegToken}
    (h : parseRegister size rest = some r) : ListsNoToken r := by
  unfold parseRegister at h
  split at h
  · cases h
    exact .ok _
  · split at h
    · cases h
    · split at h
      · split at h <;> cases h
        · exact .ok _
        · exact .syntaxError
      · cases h

theorem listsNoToken_registerOf {text : List Char} {r : Except ToolError RegToken} (h : registerOf text = some r) :
    ListsNoToken r := by
  unfold registerOf at h
  split at h
  · exact listsNoToken_parseRegister h
  · exact listsNoToken_parseRegister h
  · cases h

theorem listsNoToken_classifyWord (text : List Char) : ListsNoToken (classifyWord text) := by
  intro m
  unfold classifyWord
  split
  · split <;> simp
  · split_ifs
    · simp
    · split
      · simp
      · next e he => simpa using listsNoToken_registerOf he m
      · simp

theorem listsNoToken_flushWord (word : List Char) {rest : Except ToolError (List Atom)} (h : ListsNoToken rest) :
    ListsNoToken (flushWord word rest) := by
  intro m
  unfold flushWord
  split
  · exact h m
  · next c cs =>
    have hword := listsNoToken_classifyWord (c :: cs) m
    split
    · simp
    · next e he => simpa [he] using hword
    · exact h m

theorem listsNoToken_consAtom (a : Atom) {rest : Except ToolError (List Atom)} (h : ListsNoToken rest) :
    ListsNoToken (consAtom a rest) := by
  cases rest with
  | ok as => exact .ok _
  | error e => exact fun m hm => h m (by simpa [consAtom] using hm)

theorem listsNoToken_lexOperands (word text : List Char) : ListsNoToken (lexOperands word text) := by
  induction text generalizing word with
  | nil => exact listsNoToken_flushWord word (.ok [])
  | cons c rest ih =>
    unfold lexOperands
    split_ifs
    · exact listsNoToken_flushWord word (ih [])
    · exact listsNoToken_flushWord word (listsNoToken_consAtom _ (ih []))
    · exact listsNoToken_flushWord word (listsNoToken_consAtom _ (ih []))
    · exact listsNoToken_flushWord word (listsNoToken_consAtom _ (ih []))
    · exact listsNoToken_flushWord word (listsNoToken_consAtom _ (ih []))
    · exact ih _

theorem listsNoToken_parseSuffix (ops : List Atom) : ListsNoToken (parseSuffix ops) := by
  intro m
  unfold parseSuffix
  split
  · simp
  · split <;> simp
  · simp

theorem listsNoToken_parseFlex (ops : List Atom) : ListsNoToken (parseFlex ops) := by
  unfold parseFlex
  split
  · exact (listsNoToken_parseSuffix _).map _
  · exact (listsNoToken_parseSuffix _).map _
  · exact .syntaxError

theorem listsNoToken_parseTarget (ops : List Atom) : ListsNoToken (parseTarget ops) := by
  intro m
  unfold parseTarget
  split <;> simp

theorem listsNoToken_parseAddress (ops : List Atom) : ListsNoToken (parseAddress ops) := by
  intro m
  unfold parseAddress
  split <;> simp

theorem listsNoToken_parseThree (build : RegToken → RegToken → FlexOperand → AsmIr) (ops : List Atom) :
    ListsNoToken (parseThree build ops) := by
  unfold parseThree
  split
  · exact (listsNoToken_parseFlex _).map _
  · exact .syntaxError

theorem listsNoToken_parseTwo (build : RegToken → FlexOperand → AsmIr) (ops : List Atom) :
    ListsNoToken (parseTwo build ops) := by
  unfold parseTwo
  split
  · exact (listsNoToken_parseFlex _).map _
  · exact .syntaxError

theorem listsNoToken_parseTransfer (load : Bool) (ops : List Atom) : ListsNoToken (parseTransfer load ops) := by
  unfold parseTransfer
  split
  · exact (listsNoToken_parseAddress _).map _
  · exact .syntaxError

theorem listsNoToken_parseInt (ops : List Atom) : ListsNoToken (parseInt ops) := by
  intro m
  unfold parseInt
  split
  · split <;> simp
  · simp

theorem listsNoToken_parseOperands (form : MnemonicForm) (ops : List Atom) :
    ListsNoToken (parseOperands form ops) := by
  cases form with
  | arithmetic | logical => exact listsNoToken_parseThree _ ops
  | compare | negated | tst | mvn | moveWide => exact listsNoToken_parseTwo _ ops
  | b | bCond => exact (listsNoToken_parseTarget ops).map _
  | transfer load => exact listsNoToken_parseTransfer load ops
  | int => exact listsNoToken_parseInt ops
  | mov | multiplyAdd | multiply | br =>
    intro m
    simp only [parseOperands, parseMov, parseMultiplyAdd, parseMultiply, parseRegisterBranch]
    split <;> simp

/-- A line whose mnemonic is known is not refused with a listed token. -/
theorem listsNoToken_parseLine {m : List Char} (hm : ∀ c ∈ m, isBlankChar c = false) {form : MnemonicForm}
    (hf : mnemonicForms.lookup m = some form) (text : List Char) : ListsNoToken (parseLine (m ++ ' ' :: text)) := by
  cases ht : lexOperands [] text with
  | ok ops =>
    rw [parseLine_of_lookup hm hf ht]
    exact listsNoToken_parseOperands form ops
  | error e =>
    have hlex := listsNoToken_lexOperands [] text
    simpa [parseLine, firstToken_append hm text, hf, ht, ListsNoToken] using hlex

/-- The dispatch table accepts the 38 mnemonics of 30_encoding.md R110, in another order. -/
theorem mnemonics_perm :
    ((["add", "adds", "sub", "subs", "cmp", "cmn", "neg", "negs"] ++
      ["and", "ands", "bic", "bics", "eor", "eon", "orr", "orn", "tst", "mvn", "mov"] ++
      ["movz", "movn", "movk", "madd", "msub", "mul", "mneg", "ldr", "str", ".int"] ++
      ["br", "b", "b.eq", "b.ne", "b.ge", "b.lt", "b.gt", "b.le", "b.al"]).map String.toList).Perm
    (mnemonicForms.map Prod.fst) := by
  decide

theorem lookup_mnemonicForms_eq_none_iff (m : List Char) :
    mnemonicForms.lookup m = none ↔ m ∉ mnemonicForms.map Prod.fst := by
  simp only [List.lookup_eq_none_iff, List.mem_map, not_exists, not_and, bne_iff_ne, ne_eq, eq_comm (a := m)]

/-- Settles O54: dispatch lists the token it does not find, and nothing after dispatch lists one. -/
theorem unknownMnemonicIsListed : Obligations.UnknownMnemonicIsListed := by
  intro m text hm
  rw [mnemonics_perm.mem_iff, ← lookup_mnemonicForms_eq_none_iff]
  refine ⟨fun h => ?_, parseLine_of_unknown hm⟩
  cases hf : mnemonicForms.lookup m with
  | none => rfl
  | some form => exact absurd h (listsNoToken_parseLine hm hf text m)

/-! ## Pseudo-instructions -/

theorem parseThree_eq_ok {ops : List Atom} {op : FlexOperand} (h : parseFlex ops = .ok op)
    {build : RegToken → RegToken → FlexOperand → AsmIr} {d n : RegToken} {ir : AsmIr} (hir : build d n op = ir) :
    parseThree build (.reg d :: .comma :: .reg n :: .comma :: ops) = .ok ir := by
  simp [parseThree, h, Except.map, hir]

theorem parseTwo_eq_ok {ops : List Atom} {op : FlexOperand} (h : parseFlex ops = .ok op)
    {build : RegToken → FlexOperand → AsmIr} {r : RegToken} {ir : AsmIr} (hir : build r op = ir) :
    parseTwo build (.reg r :: .comma :: ops) = .ok ir := by
  simp [parseTwo, h, Except.map, hir]

theorem parseFlex_reg (m : RegToken) : parseFlex [.reg m] = .ok (.reg m none) := rfl

/-- A line of a known mnemonic reads as its operands do. -/
theorem parseLine_eq {m : List Char} {form : MnemonicForm} {ops : List Atom} {r : Except ToolError AsmIr}
    (hm : (m.all fun c => !isBlankChar c) = true) (hf : mnemonicForms.lookup m = some form)
    (hr : parseOperands form ops = r) :
    ∀ text, lexOperands [] text = .ok ops → parseLine (m ++ ' ' :: text) = r :=
  fun text ht => (parseLine_of_lookup (by simpa using hm) hf ht).trans hr

/-- A logical instruction with an immediate has no encoding (30_encoding.md R114, D42). -/
theorem assembleIr_logical_imm (labels : SymbolTable) (self : Nat) (op : LogicOp) (complement : Bool)
    (d n : RegToken) (v : Int) (sfx : Option ShiftSuffix) :
    assembleIr labels self (.logical op complement d n (.imm v sfx)) = .error .operandTypeError := by
  by_cases hsize : n.size = d.size
  · simp only [assembleIr, encodeLogical, requireSize, if_pos hsize]
    rfl
  · simp only [assembleIr, encodeLogical, requireSize, if_neg hsize]
    rfl

/-- Settles O55: each line is read by its mnemonic's form, and both forms build one instruction. -/
theorem pseudoInstructionsExpand : Obligations.PseudoInstructionsExpand := by
  intro d n m op ops hop zn zd expands
  refine ⟨
    ⟨parseLine_eq rfl rfl (parseTwo_eq_ok hop rfl), parseLine_eq rfl rfl (parseThree_eq_ok hop rfl)⟩,
    ⟨parseLine_eq rfl rfl (parseTwo_eq_ok hop rfl), parseLine_eq rfl rfl (parseThree_eq_ok hop rfl)⟩,
    ⟨parseLine_eq rfl rfl (parseTwo_eq_ok hop rfl), parseLine_eq rfl rfl (parseThree_eq_ok hop rfl)⟩,
    ⟨parseLine_eq rfl rfl (parseTwo_eq_ok hop rfl), parseLine_eq rfl rfl (parseThree_eq_ok hop rfl)⟩,
    ⟨parseLine_eq rfl rfl (parseTwo_eq_ok hop rfl), parseLine_eq rfl rfl (parseThree_eq_ok hop rfl)⟩,
    ⟨parseLine_eq rfl rfl (parseTwo_eq_ok hop rfl), parseLine_eq rfl rfl (parseThree_eq_ok hop rfl)⟩,
    ⟨parseLine_eq rfl rfl rfl, parseLine_eq rfl rfl (parseThree_eq_ok (parseFlex_reg m) rfl)⟩,
    ⟨parseLine_eq rfl rfl rfl, parseLine_eq rfl rfl rfl⟩,
    ⟨parseLine_eq rfl rfl rfl, parseLine_eq rfl rfl rfl⟩,
    fun v => parseLine_eq rfl rfl rfl, rfl, rfl, ?_⟩
  exact fun labels self lop complement v sfx => assembleIr_logical_imm labels self lop complement d n v sfx

end Sys2Proof.Machine
end

section
/-!
PROOFS. 40_alu.md R131, R132, R135 and R138: sums, differences, shifts and products as plain arithmetic.
-/

namespace Sys2Proof.Machine

/-! ## Reading words as signed integers -/

theorem ofInt_sub (w : Nat) (x y : Int) : BitVec.ofInt w (x - y) = BitVec.ofInt w x - BitVec.ofInt w y := by
  rw [eq_sub_iff_add_eq, ← BitVec.ofInt_add, sub_add_cancel]

theorem ofInt_toNat {w : Nat} (x : BitVec w) : BitVec.ofInt w x.toNat = x := by
  rw [BitVec.ofInt_natCast, BitVec.ofNat_toNat, BitVec.setWidth_eq]

theorem add_eq_ofInt {w : Nat} (a b : BitVec w) : a + b = BitVec.ofInt w (a.toInt + b.toInt) := by
  simp only [BitVec.ofInt_add, BitVec.ofInt_toInt]

theorem sub_eq_ofInt {w : Nat} (a b : BitVec w) : a - b = BitVec.ofInt w (a.toInt - b.toInt) := by
  simp only [ofInt_sub, BitVec.ofInt_toInt]

/-! ## The adder (40_alu.md R131, R132) -/

/-- The flags of a difference, one by one (40_alu.md R132). -/
theorem subFlags_flags {w : Nat} (a b : BitVec w) :
    (subFlags a b).2 =
      { n := (a - b).msb, z := decide (a - b = 0), c := decide (b.toNat ≤ a.toNat),
        v := decide (a.msb ≠ b.msb) && decide ((a - b).msb ≠ a.msb) } := rfl

/-- Settles O13: both sides of each clause are those of the flag equations. -/
theorem addAndSubFlags : Obligations.AddAndSubFlags := by
  intro sf a b
  rw [addFlags_result, addFlags_flags, subFlags_result, subFlags_flags]
  refine ⟨⟨BitVec.toNat_add a b, rfl, ?_, ?_, ?_⟩, ?difference, rfl, ?_, ?_, ?_⟩
  case difference =>
    have hb := b.isLt
    rw [BitVec.toNat_sub]
    congr 1
    omega
  all_goals simp only [decide_eq_true_eq, Bool.and_eq_true]

/-! ## The multiplier (40_alu.md R138) -/

/-- A multiple of `2^w` vanishes at width `w`. -/
theorem ofInt_two_pow_of_le {w k : Nat} (h : w ≤ k) : BitVec.ofInt w (2 ^ k) = 0 := by
  have hdvd : (2 ^ w : Int) ∣ 2 ^ k := pow_dvd_pow 2 h
  apply BitVec.eq_of_toNat_eq
  simp [BitVec.toNat_ofInt, Int.emod_eq_zero_of_dvd hdvd]

/-- Settles O16: reading a word as an integer, signed or not, and taking the low bits again commutes with sum,
difference and product. -/
theorem multiplierKeepsLowBits : Obligations.MultiplierKeepsLowBits := by
  intro w a n m
  refine ⟨?_, ?_, ?_, ?_⟩
  · simp only [mulAdd, BitVec.ofNat_add, BitVec.ofNat_mul, BitVec.ofNat_toNat, BitVec.setWidth_eq]
  · simp only [mulAdd, BitVec.ofInt_add, BitVec.ofInt_mul, BitVec.ofInt_toInt]
  · have hlift : BitVec.ofInt w (2 ^ (2 * w + 1)) = 0 := ofInt_two_pow_of_le (by omega)
    simp only [mulSub, BitVec.ofInt_add, ofInt_sub, BitVec.ofInt_mul, ofInt_toNat, hlift, add_zero]
  · simp only [mulSub, ofInt_sub, BitVec.ofInt_mul, BitVec.ofInt_toInt]

/-! ## The barrel shifter (40_alu.md R135) -/

/-- Truncating the doubly wide sign extension shifts copies of the sign in from the left. -/
theorem shiftValue_asr_eq_sshiftRight {w : Nat} (v : BitVec w) {n : Nat} (hn : n < w) :
    shiftValue .asr v n = v.sshiftRight n := by
  apply BitVec.eq_of_getLsbD_eq
  intro i hi
  rw [getLsbD_shiftValue .asr v n i hn hi, BitVec.getLsbD_sshiftRight]
  simp [hi, Nat.add_comm]

theorem shiftValue_ror_eq_rotateRight {w : Nat} (v : BitVec w) {n : Nat} (hn : n < w) :
    shiftValue .ror v n = v.rotateRight n := by
  rw [BitVec.rotateRight_def, Nat.mod_eq_of_lt hn, shiftValue]

/-- Settles O15: each kind is a shift or rotation of the library, whose arithmetic is known. -/
theorem shifterAsArithmetic : Obligations.ShifterAsArithmetic := by
  intro w v n hn
  refine ⟨?lsl, ?lsr, ?asr, shiftValue_ror_eq_rotateRight v hn, fun kind => shiftValue_zero kind v⟩
  case lsl => rw [shiftValue, BitVec.toNat_shiftLeft, Nat.shiftLeft_eq]
  case lsr => rw [shiftValue, BitVec.toNat_ushiftRight, Nat.shiftRight_eq_div_pow]
  case asr =>
    rw [shiftValue_asr_eq_sshiftRight v hn, BitVec.toInt_sshiftRight, Int.shiftRight_eq_div_pow]
    norm_cast

end Sys2Proof.Machine
end

section
/-!
PROOFS. Data processing with and without flags (40_alu.md R133, R134; 42_dp_register.md R181, R182).
-/

namespace Sys2Proof.Machine

/-! ## The two shapes of a data-processing result -/

theorem nextPc_of_pc_eq {s t : State} (h : t.pc = s.pc + 4) : NextPc s t := by
  rw [NextPc, h, BitVec.toNat_add]
  rfl

/-- Writing `Rd` and advancing is a data-processing result. -/
theorem dpResult_writeXw {w : Nat} (rd : RegIdx) (v : BitVec w) (s : State) :
    DpResult s (advance (writeXw w rd v s)) rd v :=
  ⟨fun r => readX_writeXw w rd r v s, ⟨by simp, by simp, by simp⟩, nextPc_of_pc_eq (by simp),
    sameMemory_of_mem_eq (by simp)⟩

/-- Writing `Rd`, setting the flags and advancing is a flag-setting data-processing result. -/
theorem dpFlagResult_writeXw {w : Nat} (rd : RegIdx) (v : BitVec w) (f : Flags) (s : State) :
    DpFlagResult s (advance (setFlags f (writeXw w rd v s))) rd v f :=
  ⟨fun r => readX_writeXw w rd r v s, ⟨rfl, by simp, by simp⟩, nextPc_of_pc_eq (by simp),
    sameMemory_of_mem_eq (by simp)⟩

/-- With one value, the two shapes differ in the flags only. -/
theorem DpResult.agrees {s t u : State} {w : Nat} {rd : RegIdx} {v : BitVec w} {f : Flags}
    (ht : DpResult s t rd v) (hu : DpFlagResult s u rd v f) :
    SameRegisters t u ∧ SameMemory t u ∧ t.pc = u.pc ∧ t.flags = s.flags := by
  obtain ⟨htreg, ⟨htflags, -⟩, htpc, htmem⟩ := ht
  obtain ⟨hureg, -, hupc, humem⟩ := hu
  exact ⟨fun r => (hureg r).trans (htreg r).symm, fun a => (humem a).trans (htmem a).symm,
    BitVec.eq_of_toNat_eq (htpc.trans hupc.symm), htflags⟩

/-- An instruction and its flag-setting form, when both compute one value. -/
theorem exec_forms_agree {i j : Instr} {s : State} {w : Nat} {rd : RegIdx} {v v' : BitVec w} {f : Flags}
    (hi : exec i s = .next (advance (writeXw w rd v s)))
    (hj : exec j s = .next (advance (setFlags f (writeXw w rd v' s)))) (hv : v' = v) :
    ∃ t u, exec i s = .next t ∧ exec j s = .next u ∧
      SameRegisters t u ∧ SameMemory t u ∧ t.pc = u.pc ∧ t.flags = s.flags := by
  subst hv
  exact ⟨_, _, hi, hj, (dpResult_writeXw rd v' s).agrees (dpFlagResult_writeXw rd v' f s)⟩

/-- Settles O14: the flag functions' results are the plain sum and difference. -/
theorem nonSettingFormsComputeTheSameResult : Obligations.NonSettingFormsComputeTheSameResult := by
  refine ⟨fun sf sh imm12 rn rd s => ⟨?_, ?_⟩, fun sf shift rm imm6 rn rd s => ⟨?_, ?_⟩, fun sf a b => ?_⟩
  · exact exec_forms_agree rfl rfl (addFlags_result _ _)
  · exact exec_forms_agree rfl rfl (subFlags_result _ _)
  · exact exec_forms_agree rfl rfl (addFlags_result _ _)
  · exact exec_forms_agree rfl rfl (subFlags_result _ _)
  · rw [addFlags_result, subFlags_result]
    exact ⟨rfl, rfl, add_eq_ofInt a b, sub_eq_ofInt a b⟩

/-! ## The logical flags -/

/-- A logical instruction that sets the flags: N and Z from the result, C and V clear (40_alu.md R134). -/
theorem exec_logicFlags {i : Instr} {s : State} {w : Nat} {rd : RegIdx} {v : BitVec w}
    (h : exec i s = .next (advance (setFlags (logicFlags v) (writeXw w rd v s)))) :
    ∃ t f, exec i s = .next t ∧ DpFlagResult s t rd v f ∧
      f.n = v.getLsbD (w - 1) ∧ (f.z = true ↔ v.toNat = 0) ∧ f.c = false ∧ f.v = false := by
  refine ⟨_, _, h, dpFlagResult_writeXw rd v _ s, BitVec.msb_eq_getLsbD_last v, ?_, rfl, rfl⟩
  simp [logicFlags, BitVec.toNat_eq]

/-- Settles O44: the result bit by bit; flags and frame are those of every flag-setting logical instruction. -/
theorem logicalFlagResult : Obligations.LogicalFlagResult := by
  intro sf shift rm imm6 rn rd s a b gives
  refine ⟨?_, ?_⟩
  · obtain ⟨t, f, hx, hr, hflags⟩ := exec_logicFlags (i := .andsReg sf shift rm imm6 rn rd) (s := s) rfl
    exact ⟨t, f, _, hx, hr, fun j _ => BitVec.getLsbD_and, hflags⟩
  · obtain ⟨t, f, hx, hr, hflags⟩ := exec_logicFlags (i := .bicsReg sf shift rm imm6 rn rd) (s := s) rfl
    refine ⟨t, f, _, hx, hr, fun j hj => ?_, hflags⟩
    rw [BitVec.getLsbD_and, invertedReg, BitVec.getLsbD_not, decide_eq_true hj, Bool.true_and]
    rfl

end Sys2Proof.Machine
end

section
/-!
PROOFS. 40_alu.md R137: the condition unit and the codes the decoder refuses.
-/

namespace Sys2Proof

/-! ## The words of a conditional branch -/

/-- The format `01010100 simm19 0 cond` with any code (30_encoding.md R93). -/
def branchCondWord (simm19 : BitVec 19) (code : BitVec 4) : Word := 0b01010100#8 ++ simm19 ++ 0#1 ++ code

/-- With a valid code it is the encoder's word. -/
theorem encBranchCond_eq (simm19 : BitVec 19) (cond : Cond) :
    encBranchCond simm19 cond = branchCondWord simm19 (condBits cond) := rfl

/-- Bits 24 and up are the format's fixed byte. -/
theorem branchCondWord_high (simm19 : BitVec 19) (code : BitVec 4) {lo len : Nat} (h : 24 ≤ lo) :
    field (branchCondWord simm19 code) lo len = (0b01010100#8).extractLsb' (lo - 24) len := by
  rw [field, branchCondWord, BitVec.extractLsb'_append_eq_of_le (by omega),
    BitVec.extractLsb'_append_eq_of_le (by omega), BitVec.extractLsb'_append_eq_of_le (by omega),
    Nat.sub_sub, Nat.sub_sub]

theorem branchCondWord_bit4 (simm19 : BitVec 19) (code : BitVec 4) : field (branchCondWord simm19 code) 4 1 = 0 := by
  rw [field, branchCondWord, BitVec.extractLsb'_append_eq_of_le (by omega),
    BitVec.extractLsb'_append_eq_of_add_le (by omega)]
  rfl

theorem branchCondWord_code (simm19 : BitVec 19) (code : BitVec 4) :
    field (branchCondWord simm19 code) 0 4 = code := by
  rw [field, branchCondWord, BitVec.extractLsb'_append_eq_of_add_le (by omega), BitVec.extractLsb'_eq_self]

theorem decodeBranch_of_invalidCode {w : Word} (hsub : field w 29 3 = 0b010) (h24 : field w 24 2 = 0b00)
    (h4 : field w 4 1 = 0) (hc : condOf (field w 0 4) = none) : decodeBranch w = .error .conditionCode := by
  simp [decodeBranch, hsub, h24, h4, hc]

/-- A conditional branch with a reserved code is no instruction (30_encoding.md R94, R102). -/
theorem decodeClass_branchCondWord_of_invalidCode (o : WbOverlap) (simm19 : BitVec 19) {code : BitVec 4}
    (hc : condOf code = none) : decodeClass o (branchCondWord simm19 code) = .error .conditionCode := by
  have hcode := branchCondWord_code simm19 code
  rw [decodeClass_of_branch (.inl (branchCondWord_high simm19 code (by decide))),
    decodeBranch_of_invalidCode (branchCondWord_high simm19 code (by decide))
      (branchCondWord_high simm19 code (by decide)) (branchCondWord_bit4 simm19 code) (hcode.symm ▸ hc)]

theorem condOf_isSome_iff (code : BitVec 4) :
    (condOf code).isSome = true ↔ code ∈ [0b0000, 0b0001, 0b1010, 0b1011, 0b1100, 0b1101, 0b1110] := by
  revert code
  decide

end Sys2Proof

namespace Sys2Proof.Machine

/-! ## The condition unit -/

/-- The condition unit computes the table of 40_alu.md R137. -/
theorem condHolds_iff (c : Cond) (f : Flags) : condHolds c f = true ↔ CondMeans f c := by
  cases c <;> simp [condHolds, CondMeans]

/-- C is never read (40_alu.md R137). -/
theorem condHolds_with_c (c : Cond) (f : Flags) (c' : Bool) : condHolds c { f with c := c' } = condHolds c f := by
  cases c <;> rfl

/-- The test that the top three bits of a valid code but `AL`'s select (40_alu.md R137). -/
def classHolds (f : Flags) (cls : BitVec 3) : Bool :=
  if cls = 0b000 then f.z else if cls = 0b101 then f.n == f.v else (f.n == f.v) && !f.z

/-- Every condition but `AL` is its class's test, negated when bit 0 of its code is set (40_alu.md R137). -/
theorem condHolds_eq_xor_classHolds {c : Cond} (h : c ≠ .al) (f : Flags) :
    condHolds c f = Bool.xor ((condBits c).getLsbD 0) (classHolds f ((condBits c).extractLsb' 1 3)) := by
  cases c with
  | eq | ge | gt => exact (Bool.false_xor _).symm
  | ne | lt | le => exact (Bool.true_xor _).symm
  | al => exact absurd rfl h

/-- Settles O17: a reserved code is refused whatever the flags, and a valid one is read by class and negate bit. -/
theorem conditionEvaluation : Obligations.ConditionEvaluation := by
  intro code f c'
  refine ⟨condOf_isSome_iff code, ?_, fun c hc => ?_⟩
  · rintro s simm19 w hcode rfl hne hf
    have hd := (decode_of_ne s.cfg hne).trans (decodeClass_branchCondWord_of_invalidCode _ simm19 hcode)
    exact ⟨hd, _, step_of_illegal hf hd, onlyFaulted_raise _ s⟩
  · obtain rfl := condBits_of_condOf hc
    refine ⟨rfl, condHolds_iff c f, condHolds_with_c c f c', fun hal => ?_⟩
    have hne : c ≠ .al := by
      rintro rfl
      exact hal rfl
    exact condHolds_eq_xor_classHolds hne f

end Sys2Proof.Machine
end

section
/-!
PROOFS. 41_dp_immediate.md R151 to R158: the immediate operands in plain arithmetic, the adder's flags against
the sum and the difference they describe, and the instructions built from them.
-/

namespace Sys2Proof.Machine

/-! ## The immediate operands -/

/-- Shifting left by `12 * sh` multiplies by `4096 ^ sh` (41_dp_immediate.md R151). -/
theorem arithImm_eq_ofNat (w : Nat) (sh : Bool) (imm12 : BitVec 12) :
    arithImm w sh imm12 = BitVec.ofNat w (imm12.toNat * 4096 ^ sh.toNat) := by
  apply BitVec.eq_of_toNat_eq
  rw [arithImm, BitVec.toNat_shiftLeft, BitVec.toNat_setWidth, BitVec.toNat_ofNat, Nat.shiftLeft_eq, Nat.pow_mul,
    Nat.mod_mul_mod]

/-- Bit `j` of a destination lies in the 16 bits that `hw` selects (41_dp_immediate.md R158). -/
def inWideField (hw : BitVec 2) (j : Nat) : Bool :=
  decide (16 * hw.toNat ≤ j) && decide (j < 16 * hw.toNat + 16)

/-- The selected 16 bits are the immediate's, the others 0 (41_dp_immediate.md R155). -/
theorem getLsbD_wideImm {w j : Nat} (hj : j < w) (hw : BitVec 2) (imm16 : BitVec 16) :
    (wideImm w hw imm16).getLsbD j = (inWideField hw j && imm16.getLsbD (j - 16 * hw.toNat)) := by
  rw [wideImm, BitVec.getLsbD_shiftLeft, BitVec.getLsbD_setWidth, inWideField]
  by_cases hlo : 16 * hw.toNat ≤ j
  · by_cases hhi : j < 16 * hw.toNat + 16
    · have hin : j - 16 * hw.toNat < w := by omega
      simp [hj, hlo, hhi, hin]
    · have hout : imm16.getLsbD (j - 16 * hw.toNat) = false := BitVec.getLsbD_of_ge _ _ (by omega)
      simp [hhi, hout]
  · simp [hlo, Nat.lt_of_not_le hlo]

/-- MOVK keeps exactly the bits outside the selected 16 (41_dp_immediate.md R157). -/
theorem getLsbD_keepMask {w j : Nat} (hj : j < w) (hw : BitVec 2) :
    (keepMask w hw).getLsbD j = !inWideField hw j := by
  have hones : (0xFFFF : BitVec 16) = BitVec.allOnes 16 := by decide
  rw [keepMask, BitVec.getLsbD_not, getLsbD_wideImm hj, decide_eq_true hj, Bool.true_and, hones,
    BitVec.getLsbD_allOnes]
  by_cases hin : inWideField hw j = true
  · have hlt : j - 16 * hw.toNat < 16 := by
      simp only [inWideField, Bool.and_eq_true, decide_eq_true_eq] at hin
      omega
    simp [hlt]
  · simp [hin]

/-- Merging under the mask replaces the selected 16 bits of `x` and keeps the others (41_dp_immediate.md R157). -/
theorem getLsbD_insertWideImm {w j : Nat} (hj : j < w) (x : BitVec w) (hw : BitVec 2) (imm16 : BitVec 16) :
    ((x &&& keepMask w hw) ||| wideImm w hw imm16).getLsbD j =
      if inWideField hw j then imm16.getLsbD (j - 16 * hw.toNat) else x.getLsbD j := by
  rw [BitVec.getLsbD_or, BitVec.getLsbD_and, getLsbD_keepMask hj, getLsbD_wideImm hj]
  cases inWideField hw j <;> simp

/-- A register read at a narrower width has the register's low bits (10_state.md R23). -/
theorem getLsbD_readXw {w j : Nat} (hj : j < w) (i : RegIdx) (s : State) :
    (readXw w i s).getLsbD j = (readX i s).getLsbD j := by
  rw [readXw, BitVec.getLsbD_setWidth, decide_eq_true hj, Bool.true_and]

/-! ## Signed overflow (40_alu.md R131, R132) -/

theorem saddOverflow_iff_ne {w : Nat} (a b : BitVec w) :
    a.saddOverflow b = true ↔ a.toInt + b.toInt ≠ (a + b).toInt := by
  constructor
  · intro h heq
    have hlo := BitVec.le_toInt (a + b)
    have hhi := BitVec.toInt_lt (x := a + b)
    simp only [BitVec.saddOverflow, Bool.or_eq_true, decide_eq_true_eq, heq] at h
    omega
  · intro hne
    by_contra h
    exact hne (BitVec.toInt_add_of_not_saddOverflow h).symm

theorem ssubOverflow_iff_ne {w : Nat} (a b : BitVec w) :
    a.ssubOverflow b = true ↔ a.toInt - b.toInt ≠ (a - b).toInt := by
  constructor
  · intro h heq
    have hlo := BitVec.le_toInt (a - b)
    have hhi := BitVec.toInt_lt (x := a - b)
    simp only [BitVec.ssubOverflow, Bool.or_eq_true, decide_eq_true_eq, heq] at h
    omega
  · intro hne
    by_contra h
    exact hne (BitVec.toInt_sub_of_not_ssubOverflow h).symm

/-- The adder's V is the signed overflow of the sum. -/
theorem addFlags_v {w : Nat} (a b : BitVec w) : (addFlags a b).2.v = a.saddOverflow b := by
  rw [addFlags_flags, BitVec.saddOverflow_eq]
  simp [Bool.beq_eq_decide_eq]

/-- The subtracter's V is the signed overflow of the difference. -/
theorem subFlags_v {w : Nat} (a b : BitVec w) : (subFlags a b).2.v = a.ssubOverflow b := by
  rw [subFlags_flags, BitVec.ssubOverflow_eq]
  cases a.msb <;> cases b.msb <;> simp

theorem sumFlags_addFlags {w : Nat} (a b : BitVec w) : SumFlags a b (addFlags a b).1 (addFlags a b).2 := by
  refine ⟨rfl, decide_eq_true_iff, decide_eq_true_iff, ?_⟩
  rw [addFlags_v, addFlags_result, saddOverflow_iff_ne]

theorem differenceFlags_subFlags {w : Nat} (a b : BitVec w) :
    DifferenceFlags a b (subFlags a b).1 (subFlags a b).2 := by
  refine ⟨rfl, decide_eq_true_iff, decide_eq_true_iff, ?_⟩
  rw [subFlags_v, subFlags_result, ssubOverflow_iff_ne]

/-! ## Instructions that end in the adder -/

/-- The wrapped sum of a word and an operand given as a number (40_alu.md R133). -/
theorem add_ofNat_eq {w : Nat} (a : BitVec w) (n : Nat) : a + BitVec.ofNat w n = BitVec.ofNat w (a.toNat + n) := by
  rw [BitVec.ofNat_add, BitVec.ofNat_toNat, BitVec.setWidth_eq]

/-- The wrapped difference of a word and an operand given as a number (40_alu.md R133). -/
theorem sub_ofNat_eq {w : Nat} (a : BitVec w) (n : Nat) : a - BitVec.ofNat w n = BitVec.ofInt w (a.toNat - n) := by
  rw [ofInt_sub, ofInt_toNat, BitVec.ofInt_natCast]

/-- An instruction that writes `v` to `Rd` and advances, `v` being the value `v'` that the rule names. -/
theorem exec_dpResult {i : Instr} {s : State} {w : Nat} {rd : RegIdx} {v v' : BitVec w}
    (h : exec i s = .next (advance (writeXw w rd v s))) (hv : v = v') :
    ∃ t, exec i s = .next t ∧ DpResult s t rd v' :=
  ⟨_, h, hv ▸ dpResult_writeXw rd v s⟩

/-- An instruction that writes the adder's result and flags (40_alu.md R131). -/
theorem exec_addFlags {i : Instr} {s : State} {w : Nat} {rd : RegIdx} {a b : BitVec w}
    (h : exec i s = .next (advance (setFlags (addFlags a b).2 (writeXw w rd (addFlags a b).1 s)))) :
    ∃ t v f, exec i s = .next t ∧ v = BitVec.ofNat w (a.toNat + b.toNat) ∧
      DpFlagResult s t rd v f ∧ SumFlags a b v f :=
  ⟨_, _, _, h, rfl, dpFlagResult_writeXw rd _ _ s, sumFlags_addFlags a b⟩

/-- An instruction that writes the subtracter's result and flags (40_alu.md R132). -/
theorem exec_subFlags {i : Instr} {s : State} {w : Nat} {rd : RegIdx} {a b : BitVec w}
    (h : exec i s = .next (advance (setFlags (subFlags a b).2 (writeXw w rd (subFlags a b).1 s)))) :
    ∃ t v f, exec i s = .next t ∧ v = BitVec.ofInt w (a.toNat - b.toNat) ∧
      DpFlagResult s t rd v f ∧ DifferenceFlags a b v f := by
  have hv : (subFlags a b).1 = BitVec.ofInt w (a.toNat - b.toNat) := by
    rw [subFlags_result, ofInt_sub, ofInt_toNat, ofInt_toNat]
  exact ⟨_, _, _, h, hv, dpFlagResult_writeXw rd _ _ s, differenceFlags_subFlags a b⟩

/-! ## ADD, ADDS, SUB, SUBS (immediate) -/

/-- Settles O38: the operand is the number `imm12 * 4096 ^ sh`, and the sum or difference wraps. -/
theorem addSubImmediateResult : Obligations.AddSubImmediateResult := by
  intro sf sh imm12 rn rd s
  refine ⟨exec_dpResult rfl ?sum, exec_dpResult rfl ?difference⟩
  case sum => rw [arithImm_eq_ofNat, add_ofNat_eq]
  case difference => rw [arithImm_eq_ofNat, sub_ofNat_eq]

/-- Settles O39: both instructions end in the adder, whose operand is the number `imm12 * 4096 ^ sh`. -/
theorem addsSubsImmediateResult : Obligations.AddsSubsImmediateResult := by
  intro sf sh imm12 rn rd s a b
  have hb : arithImm (opBits sf) sh imm12 = b := arithImm_eq_ofNat _ sh imm12
  refine ⟨exec_addFlags ?sum, exec_subFlags ?difference⟩
  all_goals rw [← hb]; rfl

/-! ## MOVN, MOVZ, MOVK -/

/-- Settles O40: the placed immediate and the mask of MOVK, bit by bit. -/
theorem moveWideResult : Obligations.MoveWideResult := by
  intro sf hw imm16 rd s inside placed
  refine ⟨⟨_, _, rfl, dpResult_writeXw rd _ s, fun j hj => ?movn⟩,
    ⟨_, _, rfl, dpResult_writeXw rd _ s, fun j hj => ?movz⟩,
    ⟨_, _, rfl, dpResult_writeXw rd _ s, fun j hj => ?movk⟩⟩
  case movn =>
    rw [BitVec.getLsbD_not, getLsbD_wideImm hj, decide_eq_true hj, Bool.true_and]
    rfl
  case movz => exact getLsbD_wideImm hj hw imm16
  case movk =>
    rw [← getLsbD_readXw hj]
    exact getLsbD_insertWideImm hj _ hw imm16

end Sys2Proof.Machine
end

section
/-!
PROOFS. 42_dp_register.md R170 to R180, R183, R184 and R188: addition and subtraction with a shifted register,
the logical instructions that keep the flags, and the multiply-accumulate instructions.
-/

namespace Sys2Proof.Machine

/-! ## The operands and results in plain arithmetic -/

/-- The wrapped difference of two words (40_alu.md R133). -/
theorem sub_eq_ofInt_toNat {w : Nat} (a b : BitVec w) : a - b = BitVec.ofInt w (a.toNat - b.toNat) := by
  rw [ofInt_sub, ofInt_toNat, ofInt_toNat]

/-- The multiplier's difference, with the words read as unsigned numbers (40_alu.md R138). -/
theorem mulSub_eq_ofInt_toNat {w : Nat} (a n m : BitVec w) :
    mulSub a n m = BitVec.ofInt w (a.toNat - n.toNat * m.toNat) := by
  rw [mulSub, ofInt_sub, BitVec.ofInt_mul, ofInt_toNat, ofInt_toNat, ofInt_toNat]

/-- Every bit of the complemented operand is the shifted operand's, negated (42_dp_register.md R188). -/
theorem getLsbD_invertedReg {w j : Nat} (hj : j < w) (shift : ShiftKind) (rm : RegIdx) (imm6 : BitVec 6) (s : State) :
    (invertedReg w shift rm imm6 s).getLsbD j =
      !(shiftValue shift (readXw w rm s) imm6.toNat).getLsbD j := by
  rw [invertedReg, BitVec.getLsbD_not, decide_eq_true hj, Bool.true_and, shiftedReg]

/-- An instruction that writes `v` to `Rd` and advances, `v` being given bit by bit. -/
theorem exec_dpResult_bits {i : Instr} {s : State} {w : Nat} {rd : RegIdx} {v : BitVec w} {bit : Nat → Bool}
    (h : exec i s = .next (advance (writeXw w rd v s))) (hv : ∀ j, j < w → v.getLsbD j = bit j) :
    ∃ t, ∃ u : BitVec w, exec i s = .next t ∧ DpResult s t rd u ∧ ∀ j, j < w → u.getLsbD j = bit j :=
  ⟨_, v, h, dpResult_writeXw rd v s, hv⟩

/-! ## ADD, ADDS, SUB, SUBS (shifted register) -/

/-- Settles O41: the sum or difference of the two operands wraps. -/
theorem addSubRegisterResult : Obligations.AddSubRegisterResult := by
  intro sf shift rm imm6 rn rd s a b
  exact ⟨exec_dpResult rfl (BitVec.add_def a b), exec_dpResult rfl (sub_eq_ofInt_toNat a b)⟩

/-- Settles O42: both instructions end in the adder, whose second operand is the shifted register. -/
theorem addsSubsRegisterResult : Obligations.AddsSubsRegisterResult := by
  intro sf shift rm imm6 rn rd s a b
  exact ⟨exec_addFlags rfl, exec_subFlags rfl⟩

/-! ## AND, BIC, ORR, ORN, EOR, EON -/

/-- Settles O43: three bitwise operations, each on the shifted operand and on its complement. -/
theorem logicalResult : Obligations.LogicalResult := by
  intro sf shift rm imm6 rn rd s a b gives
  refine ⟨exec_dpResult_bits rfl fun j _ => ?and, exec_dpResult_bits rfl fun j hj => ?bic,
    exec_dpResult_bits rfl fun j _ => ?orr, exec_dpResult_bits rfl fun j hj => ?orn,
    exec_dpResult_bits rfl fun j _ => ?eor, exec_dpResult_bits rfl fun j hj => ?eon⟩
  case and => exact BitVec.getLsbD_and
  case bic => rw [BitVec.getLsbD_and, getLsbD_invertedReg hj]
  case orr => exact BitVec.getLsbD_or
  case orn => rw [BitVec.getLsbD_or, getLsbD_invertedReg hj]
  case eor => exact BitVec.getLsbD_xor
  case eon => rw [BitVec.getLsbD_xor, getLsbD_invertedReg hj]

/-! ## MADD, MSUB -/

/-- Settles O45: the multiplier's sum and difference, with the words read as unsigned numbers. -/
theorem multiplyResult : Obligations.MultiplyResult := by
  intro sf rm ra rn rd s a n m
  obtain ⟨hadd, -⟩ := multiplierKeepsLowBits (opBits sf) a n m
  exact ⟨exec_dpResult rfl hadd, exec_dpResult rfl (mulSub_eq_ofInt_toNat a n m)⟩

end Sys2Proof.Machine
end

section
/-!
PROOFS. 43_load_store.md R200 to R215: loads and stores whose access is allowed, with and without writeback, and
those whose access fails.
-/

namespace Sys2Proof.Machine

/-! ## A failing access (43_load_store.md R201) -/

/-- A load or store whose access raises `c` changes the run status only. -/
theorem exec_onlyFaulted {i : Instr} {s : State} {ea : DWord} {n : Nat} {c : FatalCondition}
    (ha : dataAccess i s = some (ea, n)) (hc : dataFault ea n s = some c) :
    ∃ t, exec i s = .next t ∧ OnlyFaulted s t c :=
  ⟨_, exec_of_dataFault ha hc, onlyFaulted_raise c s⟩

/-- Settles O37: both checks raise their condition, and raising it is all that the instruction does. -/
theorem dataFaultsArePrecise : Obligations.DataFaultsArePrecise := by
  intro i s ea n ha
  refine ⟨fun hout => ?bounds, fun hin hpolicy hmis => ?alignment⟩
  case bounds => exact exec_onlyFaulted ha (dataFault_of_outOfBounds hout)
  case alignment => exact exec_onlyFaulted ha (dataFault_of_misaligned hin hpolicy hmis)

/-! ## The register writes of an instruction with writeback -/

/-- Of two register writes the later one, to `i`, is seen where both name one register (43_load_store.md R216). -/
theorem readX_writeXw_writeXw {w w' : Nat} (i j r : RegIdx) (u : BitVec w) (v : BitVec w') (s : State) :
    readX r (writeXw w i u (writeXw w' j v s)) =
      if r = 31 then 0 else if r = i then u.setWidth 64 else if r = j then v.setWidth 64 else readX r s := by
  by_cases hr : r = 31
  · subst hr
    rfl
  · rw [readX_writeXw, readX_writeXw, if_neg hr]
    simp only [ne_eq, hr, not_false_eq_true, and_true]

/-- The base first and `Rt` last, as a pre-indexed load writes them (43_load_store.md R209). -/
theorem readX_writeXw_writeX {w : Nat} (rt rn r : RegIdx) (v : BitVec w) (base : DWord) (s : State) :
    readX r (writeXw w rt v (writeX rn base s)) =
      if r = 31 then 0 else if r = rt then v.setWidth 64 else if r = rn then base else readX r s := by
  rw [writeX, readX_writeXw_writeXw, BitVec.setWidth_eq base]

/-- `Rt` first and the base last, as a post-indexed load writes them (43_load_store.md R211). -/
theorem readX_writeX_writeXw {w : Nat} (rt rn r : RegIdx) (v : BitVec w) (base : DWord) (s : State) :
    readX r (writeX rn base (writeXw w rt v s)) =
      if r = 31 then 0 else if r = rn then base else if r = rt then v.setWidth 64 else readX r s := by
  rw [writeX, readX_writeXw_writeXw, BitVec.setWidth_eq base]

/-- Register writes followed by `pc + 4` leave control and memory as they were. -/
theorem WritesOnly.advance_frame {ds : List RegIdx} {s t : State} (h : WritesOnly ds s t) :
    SameControl s (advance t) ∧ NextPc s (advance t) ∧ SameMemory s (advance t) :=
  ⟨⟨h.flags_eq, h.status_eq, h.cfg_eq⟩, nextPc_of_pc_eq (by rw [advance_pc, h.pc_eq]), sameMemory_of_mem_eq h.mem_eq⟩

/-! ## Loads -/

section
variable {i : Instr} {s : State} {ea : DWord} {sf : OpSize} {rt : RegIdx}

/-- An instruction that loads `Rt` and writes no other register. -/
theorem exec_load_dpResult (hx : exec i s = loadThen ea (opBytes sf) (writeXw (opBits sf) rt) s)
    (hok : AccessAllowed s ea (opBytes sf)) :
    ∃ t, ∃ v : BitVec (opBits sf), exec i s = .next t ∧ LoadedFrom s ea (opBytes sf) v ∧ DpResult s t rt v :=
  ⟨_, _, hx.trans (loadThen_of_allowed hok _), loadedFrom_readLE s ea (opBytes sf), dpResult_writeXw rt _ s⟩

/-- A load whose register writes `finish` leave the registers at `regs`, a function of the value loaded. -/
theorem exec_load_writes {ds : List RegIdx} {finish : BitVec (opBits sf) → State → State}
    {regs : BitVec (opBits sf) → RegIdx → DWord} (hx : exec i s = loadThen ea (opBytes sf) finish s)
    (hok : AccessAllowed s ea (opBytes sf)) (hwrites : ∀ v, WritesOnly ds s (finish v s))
    (hregs : ∀ v r, readX r (finish v s) = regs v r) :
    ∃ t, ∃ v : BitVec (opBits sf), exec i s = .next t ∧ LoadedFrom s ea (opBytes sf) v ∧
      (∀ r, readX r t = regs v r) ∧ SameControl s t ∧ NextPc s t ∧ SameMemory s t :=
  ⟨_, _, hx.trans (loadThen_of_allowed hok _), loadedFrom_readLE s ea (opBytes sf), hregs _,
    (hwrites _).advance_frame⟩

/-- A store whose register writes `finish` leave the registers at `regs`. -/
theorem exec_store_writes {ds : List RegIdx} {finish : State → State} {regs : RegIdx → DWord} (hs : s.Inv)
    (hx : exec i s = storeThen ea (opBytes sf) rt finish s) (hok : AccessAllowed s ea (opBytes sf))
    (hwrites : ∀ u, WritesOnly ds u (finish u))
    (hregs : ∀ r, readX r (finish (putBytes ea (opBytes sf) (readXw (opBits sf) rt s) s)) = regs r) :
    ∃ t, exec i s = .next t ∧ StoredAt s t ea (opBytes sf) (readXw (opBits sf) rt s) ∧
      (∀ r, readX r t = regs r) ∧ SameControl s t ∧ NextPc s t := by
  have hput := hwrites (putBytes ea (opBytes sf) (readXw (opBits sf) rt s) s)
  obtain ⟨hcontrol, hpc, -⟩ := hput.advance_frame
  exact ⟨_, hx.trans (storeThen_of_allowed hok rt finish), storedAt_of_mem_eq hs.1 hput.mem_eq, hregs, hcontrol, hpc⟩

end

/-- Settles O46: the three forms differ in the address only. -/
theorem loadResult : Obligations.LoadResult := by
  intro sf imm12 simm19 rm rn rt s gives
  exact ⟨exec_load_dpResult rfl, exec_load_dpResult rfl, exec_load_dpResult rfl⟩

/-- Settles O47: a pre-indexed load writes the base first and `Rt` last, a post-indexed one `Rt` first. -/
theorem loadWritebackResult : Obligations.LoadWritebackResult := by
  intro sf simm9 rn rt s
  have hpre : ∀ v : BitVec (opBits sf), WritesOnly [rt, rn] s (writeXw _ rt v (writeX rn (eaIndexed simm9 rn s) s)) :=
    fun v => ((WritesOnly.refl _ s).writeX (by simp) _).writeXw (by simp) v
  have hpost : ∀ v : BitVec (opBits sf), WritesOnly [rt, rn] s (writeX rn (eaIndexed simm9 rn s) (writeXw _ rt v s)) :=
    fun v => ((WritesOnly.refl _ s).writeXw (by simp) v).writeX (by simp) _
  refine ⟨fun hok => exec_load_writes (exec_ldrPre sf simm9 rn rt s) hok hpre fun v r => ?_,
    fun hok => exec_load_writes (exec_ldrPost sf simm9 rn rt s) hok hpost fun v r => ?_⟩
  · exact readX_writeXw_writeX rt rn r v _ s
  · exact readX_writeX_writeXw rt rn r v _ s

/-! ## Stores -/

/-- Settles O48: no register is written after the bytes. -/
theorem storeResult : Obligations.StoreResult := by
  intro sf imm12 rm rn rt s hs gives
  exact ⟨fun hok => exec_store_writes hs rfl hok (WritesOnly.refl []) fun _ => rfl,
    fun hok => exec_store_writes hs rfl hok (WritesOnly.refl []) fun _ => rfl⟩

/-- Settles O49: the base is written after the bytes, which `Rt` gave before any write. -/
theorem storeWritebackResult : Obligations.StoreWritebackResult := by
  intro sf simm9 rn rt s hs gives
  have hframe : ∀ u, WritesOnly [rn] u (writeX rn (eaIndexed simm9 rn s) u) :=
    fun u => .writeXw_head [] u rn _
  exact ⟨fun hok => exec_store_writes hs rfl hok hframe fun r => readX_writeXw 64 rn r _ _,
    fun hok => exec_store_writes hs rfl hok hframe fun r => readX_writeXw 64 rn r _ _⟩

end Sys2Proof.Machine
end

section
/-!
PROOFS. 43_load_store.md R216, 30_encoding.md R101: writeback words with `Rt = Rn`.
-/

namespace Sys2Proof

theorem overlapRefused_fault {rn : RegIdx} (h : rn ≠ 31) : overlapRefused .fault rn rn = true := by
  simpa [overlapRefused] using h

theorem writebackValid_ordered (rn rt : RegIdx) : writebackValid .ordered rn rt = true := rfl

theorem decodeLoadStore_of_overlap {o : WbOverlap} {w : Word} (h31 : field w 31 1 = 1)
    (hfixed : field w 25 5 = 0b11100) (h23 : field w 23 1 = 0) (h24 : field w 24 1 = 0) (h21 : field w 21 1 = 0)
    (hmode : field w 10 2 = 0b11 ∨ field w 10 2 = 0b01)
    (hover : overlapRefused o (field w 5 5) (field w 0 5) = true) :
    decodeLoadStore o w = .error .writebackOverlap := by
  rcases hmode with hpre | hpost
  · simp [decodeLoadStore, h31, hfixed, h23, h24, h21, hpre, hover]
  · simp [decodeLoadStore, h31, hfixed, h23, h24, h21, hpost, hover]

theorem decodeClass_encIndexed_overlap {o : WbOverlap} (l : BitVec 1) {mode : BitVec 2}
    (hmode : mode = 0b11 ∨ mode = 0b01) (sf : OpSize) (simm9 : BitVec 9) {rn rt : RegIdx}
    (hover : overlapRefused o rn rt = true) :
    decodeClass o (encIndexed l mode sf simm9 rn rt) = .error .writebackOverlap := by
  obtain ⟨h31, -, hclass, hfixed, h24, h23, -, h21, -, hmode', hrn, hrt⟩ := encIndexed_fields l mode sf simm9 rn rt
  rw [decodeClass_of_loadStore hclass]
  exact decodeLoadStore_of_overlap h31 hfixed h23 h24 h21 (hmode'.symm ▸ hmode) (hrn.symm ▸ hrt.symm ▸ hover)

/-- The indexed instruction of a mode and the `L` bit (30_encoding.md R88, R89). -/
theorem decodeClass_encIndexed {o : WbOverlap} (l : BitVec 1) {mode : BitVec 2}
    (hmode : mode = 0b11 ∨ mode = 0b01) (sf : OpSize) (simm9 : BitVec 9) {rn rt : RegIdx}
    (hvalid : writebackValid o rn rt = true) :
    decodeClass o (encIndexed l mode sf simm9 rn rt) =
      .ok (if mode = 0b11 then (if l = 1 then .ldrPre sf simm9 rn rt else .strPre sf simm9 rn rt)
           else (if l = 1 then .ldrPost sf simm9 rn rt else .strPost sf simm9 rn rt)) := by
  rcases hmode with rfl | rfl
  · exact decodeClass_encIndexed_pre l sf simm9 hvalid
  · exact decodeClass_encIndexed_post l sf simm9 hvalid

end Sys2Proof

namespace Sys2Proof.Machine

/-- Settles O50: past the halt check the parameter alone decides between the overlap refusal and the
instruction of the mode. -/
theorem writebackOverlapByParameter : Obligations.WritebackOverlapByParameter := by
  intro cfg l mode sf simm9 rn hmode hrn hhalt
  rw [decode_of_ne cfg hhalt]
  refine ⟨fun hfault => ?fault, fun hordered => ?ordered⟩
  case fault =>
    have hrefused : decodeClass cfg.wbOverlap (encIndexed l mode sf simm9 rn rn) = .error .writebackOverlap :=
      decodeClass_encIndexed_overlap l hmode sf simm9 (hfault ▸ overlapRefused_fault hrn)
    refine ⟨hrefused, fun s hcfg hfetch => ?_⟩
    subst hcfg
    have hdecode := (decode_of_ne s.cfg hhalt).trans hrefused
    exact ⟨_, step_of_illegal hfetch hdecode, onlyFaulted_raise _ s⟩
  case ordered => exact decodeClass_encIndexed l hmode sf simm9 (hordered ▸ writebackValid_ordered rn rn)

end Sys2Proof.Machine
end

section
/-!
PROOFS. 44_branch.md R230 to R234: the branches, the halt sentinel, and the one source of every step's next `pc`.
-/

namespace Sys2Proof.Machine

/-! ## Moving `pc` by words (44_branch.md R230) -/

theorem pcMovedBy_pcRelative {k : Nat} (simm : BitVec k) (s : State) :
    PcMovedBy s (setPc (pcRelative simm s) s) simm.toInt :=
  toNat_pcRelative simm s

theorem pcMovedBy_one_of_pc_eq {s t : State} (h : t.pc = s.pc + 4) : PcMovedBy s t 1 := by
  rw [PcMovedBy, h]
  exact toNat_add_ofInt s.pc 4

/-! ## The branches (44_branch.md R231, R232, R233) -/

/-- Writing `pc` changes nothing else. -/
theorem setPc_frame (target : DWord) (s : State) :
    SameRegisters s (setPc target s) ∧ SameControl s (setPc target s) ∧ SameMemory s (setPc target s) :=
  ⟨fun r => readX_setPc r target s, ⟨rfl, rfl, rfl⟩, sameMemory_of_mem_eq rfl⟩

theorem exec_bCond_taken {simm19 : BitVec 19} {cond : Cond} {s : State} (hc : CondMeans s.flags cond) :
    exec (.bCond simm19 cond) s = .next (setPc (pcRelative simm19 s) s) :=
  if_pos ((condHolds_iff cond s.flags).2 hc)

theorem exec_bCond_not_taken {simm19 : BitVec 19} {cond : Cond} {s : State} (hc : ¬ CondMeans s.flags cond) :
    exec (.bCond simm19 cond) s = .next (advance s) :=
  if_neg (mt (condHolds_iff cond s.flags).1 hc)

/-- Settles O52: every branch only writes `pc`, and B.cond's condition selects the value. -/
theorem branchResult : Obligations.BranchResult := by
  intro simm26 simm19 cond rn s
  refine ⟨⟨_, rfl, pcMovedBy_pcRelative simm26 s, setPc_frame _ s⟩, ⟨_, rfl, rfl, setPc_frame _ s⟩, ?_⟩
  by_cases hc : CondMeans s.flags cond
  · exact ⟨_, exec_bCond_taken hc, fun _ => pcMovedBy_pcRelative simm19 s, fun hn => absurd hc hn, setPc_frame _ s⟩
  · exact ⟨_, exec_bCond_not_taken hc, fun h => absurd h hc, fun _ => pcMovedBy_one_of_pc_eq rfl, setPc_frame _ s⟩

/-! ## The halt sentinel (44_branch.md R234) -/

/-- Settles O29. -/
theorem haltCompletes : Obligations.HaltCompletes := fun s =>
  ⟨haltCore s, rfl, haltCore_status s, fun r => readX_haltCore r s, haltCore_pc s, haltCore_flags s,
    sameMemory_of_mem_eq (haltCore_mem s), haltCore_cfg s⟩

/-! ## The sequencer (44_branch.md R230) -/

/-- What an instruction that is neither a branch nor the halt sentinel does to `pc`: one word on if the run goes
on, and nothing if its access raised a condition. -/
def AdvancesOrStops (s t : State) : Prop :=
  (t.status = .running → PcMovedBy s t 1) ∧ (t.status ≠ .running → t.pc = s.pc)

theorem advancesOrStops_advance {s u : State} (hs : s.status = .running) (hstatus : u.status = s.status)
    (hpc : u.pc = s.pc) : AdvancesOrStops s (advance u) := by
  refine ⟨fun _ => pcMovedBy_one_of_pc_eq ?_, fun hstop => absurd (hstatus.trans hs) hstop⟩
  rw [advance_pc, hpc]

theorem advancesOrStops_raise (c : FatalCondition) (s : State) : AdvancesOrStops s (raise c s) :=
  ⟨fun hrun => by simp at hrun, fun _ => raise_pc c s⟩

/-- A load or store moves on to the next word, or its access raises a condition. -/
theorem advancesOrStops_of_access {i : Instr} {s t : State} {access : DWord × Nat} (hs : s.status = .running)
    (ha : dataAccess i s = some access) (h : exec i s = .next t) : AdvancesOrStops s t := by
  cases exec_effect h with
  | computes hnone | computesFlags _ hnone | branches _ hnone => simp [ha] at hnone
  | faults => exact advancesOrStops_raise _ s
  | loads _ _ _ ht | stores _ _ _ ht => exact advancesOrStops_advance hs ht.status_eq ht.pc_eq
  | halts hi => simp [hi, dataAccess] at ha

/-- Settles O30: a step that executes nothing raises a condition; an executed branch or halt writes its own next
`pc`, and every other instruction moves on or stops. -/
theorem pcSequencer : Obligations.PcSequencer := by
  intro s t h
  obtain ⟨hs, hsource⟩ := step_outcome h
  constructor
  · intro hnone
    obtain ⟨c, -, rfl⟩ | ⟨w, e, -, -, rfl⟩ | ⟨i, he, -⟩ := hsource
    · exact raise_pc c s
    · exact raise_pc _ s
    · exact absurd he (hnone i)
  · intro i he
    have hx : exec i s = .next t := (step_of_executes he).symm.trans h
    cases i with
    | b simm26 =>
      cases hx
      exact pcMovedBy_pcRelative simm26 s
    | br rn =>
      cases hx
      exact setPc_pc (readX rn s) s
    | bCond simm19 cond =>
      refine ⟨fun hc => ?_, fun hc => ?_⟩
      · cases (exec_bCond_taken hc).symm.trans hx
        exact pcMovedBy_pcRelative simm19 s
      · cases (exec_bCond_not_taken hc).symm.trans hx
        exact pcMovedBy_one_of_pc_eq (advance_pc s)
    | halt =>
      cases hx
      exact haltCore_pc s
    | ldrUnsigned | ldrPre | ldrPost | ldrReg | ldrLit | strUnsigned | strPre | strPost | strReg =>
      exact advancesOrStops_of_access hs rfl hx
    | _ =>
      cases hx
      exact advancesOrStops_advance hs (by simp) (by simp)

end Sys2Proof.Machine
end

section
/-!
PROOFS. 60_exceptions.md R250 to R261: the fatal conditions, their priority and their precision, and the halt.
-/

namespace Sys2Proof.Machine

/-! ## Raising a condition (60_exceptions.md R252) -/

/-- A state left by raising a condition is a dead end: no step, a nonzero exit, no dump. -/
theorem raise_ends_run (c : FatalCondition) (s : State) :
    (∀ u, step (raise c s) ≠ .next u) ∧ stepInput (raise c s) = raise c s ∧
      exitsZero (raise c s) = some false ∧ finalDump (raise c s) = none := by
  have hstopped : (raise c s).status ≠ .running := by simp
  exact ⟨step_ne_next hstopped, stepInput_of_not_running hstopped, rfl, rfl⟩

/-- Settles O26: a step that ends with a condition has raised it, wherever in the step it came from. -/
theorem fatalConditionsArePrecise : Obligations.FatalConditionsArePrecise := by
  intro s t c h ht
  obtain rfl : t = raise c s := step_faulted h ht
  exact ⟨onlyFaulted_raise c s, raise_ends_run c s⟩

/-! ## The order of the conditions (60_exceptions.md R253) -/

theorem fetchFault_of_outOfBounds {s : State} (ha : s.pc.toNat % 4 = 0) (hb : s.cfg.memSize < s.pc.toNat + 4) :
    fetchFault s = some (.outOfBoundsAccess s.pc 4 s.pc) := by
  have hbounds : inBounds s.cfg s.pc 4 = false := decide_eq_false (by omega)
  simp [fetchFault, ha, hbounds]

theorem step_onlyFaulted {s : State} {c : FatalCondition} (hs : s.status = .running) (h : Raises s c) :
    ∃ t, step s = .next t ∧ OnlyFaulted s t c :=
  ⟨_, step_of_raises hs h, onlyFaulted_raise c s⟩

/-- Fetching the halt word is executing the halt sentinel. -/
theorem step_of_fetches_haltWord {s : State} (h : Fetches s s.cfg.haltWord) : step s = .next (haltCore s) :=
  step_of_executes ((executes_halt_iff s).2 h)

/-- Settles O25: each clause's hypotheses exclude the earlier conditions, so its own is the one raised. -/
theorem conditionsInPriorityOrder : Obligations.ConditionsInPriorityOrder := by
  intro s hs
  refine ⟨fun hpc => ?misalignedFetch, fun hpc hout => ?fetchBounds,
    fun w hf => ⟨fun hw => ?halt, fun e _ hd => ?decode,
      fun i ea n _ hd ha => ⟨fun hout => ?dataBounds, fun hin hpolicy hmis => ?dataAlignment⟩⟩⟩
  case misalignedFetch => exact step_onlyFaulted hs (.inl (fetchFault_of_misaligned hpc))
  case fetchBounds => exact step_onlyFaulted hs (.inl (fetchFault_of_outOfBounds hpc hout))
  case halt =>
    subst hw
    exact ⟨_, step_of_fetches_haltWord hf, haltCore_status s⟩
  case decode => exact step_onlyFaulted hs (.inr (.inl ⟨w, e, hf, hd, rfl⟩))
  case dataBounds =>
    exact step_onlyFaulted hs (.inr (.inr ⟨i, ea, n, ⟨w, hf, hd⟩, ha, dataFault_of_outOfBounds hout⟩))
  case dataAlignment =>
    exact step_onlyFaulted hs (.inr (.inr ⟨i, ea, n, ⟨w, hf, hd⟩, ha, dataFault_of_misaligned hin hpolicy hmis⟩))

/-! ## After decode (60_exceptions.md R251) -/

/-- Settles O36: an executed instruction ends with a condition only if its data access raises it. -/
theorem onlyLoadsAndStoresRaise : Obligations.OnlyLoadsAndStoresRaise := by
  intro i s t c hs h ht
  obtain ⟨-, ea, n, ha, hc⟩ := exec_faulted hs h ht
  refine ⟨ea, n, ha, ?_⟩
  obtain ⟨-, hbounds⟩ | ⟨-, hpolicy, -, halign⟩ := dataFault_eq_some hc
  · exact .inl hbounds
  · exact .inr ⟨halign, hpolicy⟩

/-! ## The halt (60_exceptions.md R260) -/

/-- Settles O28: the step is the halt sentinel's, which writes the run status only, and a halted core has no
step. -/
theorem haltingKeepsAllState : Obligations.HaltingKeepsAllState := by
  intro s hf
  have hstopped : (haltCore s).status ≠ .running := by simp
  exact ⟨haltCore s, step_of_fetches_haltWord hf, rfl, haltCore_status s, haltCore_x s, haltCore_pc s,
    haltCore_flags s, haltCore_mem s, haltCore_cfg s, step_ne_next hstopped, rfl, rfl⟩

end Sys2Proof.Machine
end

section
/-!
PROOFS. 70_reset_and_hazards.md R282: fetch, halt check and decode, execute as one step, which always completes.
-/

namespace Sys2Proof.Machine

/-! ## The fetched bytes as one word (20_memory.md R55) -/

theorem readLE_one (m : Memory) (a : Nat) : readLE m a 1 = readByte m a :=
  readLE_eq_of_bytes fun k hk => by
    obtain rfl : k = 0 := by omega
    simp

theorem readLE_four (m : Memory) (a : Nat) :
    readLE m a 4 = wordOfBytes (readByte m a) (readByte m (a + 1)) (readByte m (a + 2)) (readByte m (a + 3)) :=
  calc readLE m a 4
      = wordOfBytes (readByte m a) (readByte m (a + 1)) (readByte m (a + 2)) (readLE m (a + 3) 1) := rfl
    _ = _ := by rw [readLE_one]

theorem decodeBytes_four (cfg : Config) (b0 b1 b2 b3 : Byte) :
    decodeBytes cfg [b0, b1, b2, b3] = decode cfg (wordOfBytes b0 b1 b2 b3) := rfl

/-- Settles O23: the fetch reads the four bytes as the word that `decodeBytes` decodes. -/
theorem stepRunsDecodedInstruction : Obligations.StepRunsDecodedInstruction := by
  intro s i b0 b1 b2 b3 hs ha hb h0 h1 h2 h3 hd
  have hw : readLE s.mem s.pc.toNat 4 = wordOfBytes b0 b1 b2 b3 := by rw [readLE_four, h0, h1, h2, h3]
  rw [decodeBytes_four] at hd
  exact step_of_executes ⟨_, ⟨hs, ha, hb, hw⟩, hd⟩

/-! ## Every running step completes (60_exceptions.md R252) -/

/-- What a running step meets: a fetch condition, a word that decodes to nothing, or an instruction. -/
theorem fetch_decode_cases {s : State} (hs : s.status = .running) :
    (∃ c, fetchFault s = some c) ∨ (∃ w e, Fetches s w ∧ decode s.cfg w = .error e) ∨ ∃ i, Executes s i := by
  cases hf : fetchWord s with
  | error c => exact .inl ⟨c, (fetchWord_eq_error_iff s c).1 hf⟩
  | ok w =>
    have hfetch : Fetches s w := fetches_of_fetchWord hs hf
    cases hd : decode s.cfg w with
    | error e => exact .inr (.inl ⟨w, e, hfetch, hd⟩)
    | ok i => exact .inr (.inr ⟨i, w, hfetch, hd⟩)

/-- Settles O24: a condition of the fetch or of the decoder is raised, which is a next state, and so is the
effect of every instruction. -/
theorem runningStepCompletes : Obligations.RunningStepCompletes := by
  intro s hs
  obtain ⟨c, hc⟩ | ⟨w, e, hf, hd⟩ | ⟨i, he⟩ := fetch_decode_cases hs
  · exact ⟨_, step_of_fetchFault hs hc⟩
  · exact ⟨_, step_of_illegal hf hd⟩
  · rw [step_of_executes he]
    exact exec_next i s

end Sys2Proof.Machine
end

section
/-!
PROOFS. 00_scope.md R6: the implementation parameters are fixed for a machine.
-/

namespace Sys2Proof.Machine

/-- No instruction writes the parameters: each writes registers, flags, `pc`, memory or the run status. -/
theorem exec_cfg {i : Instr} {s t : State} (h : exec i s = .next t) : t.cfg = s.cfg := by
  cases exec_effect h with
  | computes _ ht | computesFlags _ _ _ ht | loads _ _ _ ht | stores _ _ _ ht => exact ht.cfg_eq
  | faults | branches | halts => rfl

/-- Settles O6: a step raises, which writes the run status only, or executes an instruction. -/
theorem stepKeepsParameters : Obligations.StepKeepsParameters := by
  intro s t h
  obtain ⟨-, ⟨c, -, rfl⟩ | ⟨w, e, -, -, rfl⟩ | ⟨i, -, hx⟩⟩ := step_outcome h
  · exact raise_cfg c s
  · exact raise_cfg _ s
  · exact exec_cfg hx

end Sys2Proof.Machine
end
